-- ==== Sys2Proof/Word.lean ====
section
/-! DEFINITION. The word types of the BitArchive Huffman core (rules R4, R6): every value is unsigned and
bit 0 is the least significant bit. -/

namespace Sys2Proof

/-- One 8-bit symbol or byte value (R4 SYMW, R6). -/
abbrev Byte := BitVec 8

/-- One 16-bit command word (R4 CMDW, R70). -/
abbrev Word := BitVec 16

/-- A 32-bit unsigned count or weight (R4 CNTW): FREQ, node weights and LEN. -/
abbrev Count := BitVec 32

end Sys2Proof
end

