-- ==== Sys2Proof/Syntax.lean ====
section
/-! DEFINITION. The instructions: the 23 commands of rule R72 and the two tree tokens of rule R78, one
constructor for each row of the opcode table. -/

namespace Sys2Proof

/-- One row of the opcode table. The operands are those of rule R71: none, a bit `b`, or a byte `v`. -/
inductive Instr where
  /-- CLEAR (R178) -/
  | clear
  /-- COMPRESS (R185) -/
  | compress
  /-- DECOMPRESS (R186) -/
  | decompress
  /-- WBIT b (R105) -/
  | wbit (b : Bool)
  /-- WBYTE v (R106) -/
  | wbyte (v : Byte)
  /-- FLUSH (R107) -/
  | flush
  /-- RBIT (R108) -/
  | rbit
  /-- RBYTE (R109) -/
  | rbyte
  /-- FCLR (R122) -/
  | fclr
  /-- FCOUNT v (R123) -/
  | fcount (v : Byte)
  /-- ANALYZE (R124) -/
  | analyze
  /-- SEED (R137) -/
  | seed
  /-- MERGE (R138) -/
  | merge
  /-- BUILD (R139) -/
  | build
  /-- CODEGEN (R153) -/
  | codegen
  /-- SERIALIZE (R164) -/
  | serialize
  /-- DESERIALIZE (R165) -/
  | deserialize
  /-- WRHDR (R179) -/
  | wrhdr
  /-- RDHDR (R180) -/
  | rdhdr
  /-- ENCSYM v (R181) -/
  | encsym (v : Byte)
  /-- ENCODE (R182) -/
  | encode
  /-- DECSYM (R183) -/
  | decsym
  /-- DECODE (R184) -/
  | decode
  /-- LEAF(s), a token of the serialized tree and no command (R78) -/
  | leaf (s : Byte)
  /-- INTERNAL, a token of the serialized tree and no command (R78) -/
  | internal
  deriving DecidableEq, Repr

end Sys2Proof
end

