-- ==== Sys2Proof/WellFormed.lean ====
section
/-! DEFINITION. Which instructions the command port can carry. The operand types of Syntax hold exactly the
values rule R71 allows, so the one check left is that the instruction is a command of rule R72 and not a
token of the serialized tree (R78). -/

namespace Sys2Proof

/-- The instruction has a command word (R72). The two tree tokens have none (R78). -/
def Instr.wellFormed : Instr → Bool
  | .clear | .compress | .decompress => true
  | .wbit _ | .wbyte _ | .flush | .rbit | .rbyte => true
  | .fclr | .fcount _ | .analyze => true
  | .seed | .merge | .build | .codegen => true
  | .serialize | .deserialize => true
  | .wrhdr | .rdhdr | .encsym _ | .encode | .decsym | .decode => true
  | .leaf _ | .internal => false

/-- The three commands the core accepts while an error is pending (R74, R202). -/
def Instr.startsInvocation : Instr → Bool
  | .clear | .compress | .decompress => true
  | .wbit _ | .wbyte _ | .flush | .rbit | .rbyte => false
  | .fclr | .fcount _ | .analyze => false
  | .seed | .merge | .build | .codegen => false
  | .serialize | .deserialize => false
  | .wrhdr | .rdhdr | .encsym _ | .encode | .decsym | .decode => false
  | .leaf _ | .internal => false

end Sys2Proof
end

