-- ==== Sys2Proof/Decode.lean ====
section
/-! DEFINITION. Decoding a command word (rules R71 to R73), its encoder, and the tree tokens of rule R78 as
bit strings. Decoding is total: every word is an instruction or is rejected by name. -/

namespace Sys2Proof

/-- Why a command word is illegal (R73, R75). -/
inductive DecodeError where
  /-- the opcode is not in the map of R72 -/
  | unknownOpcode
  /-- `arg` is not 0 on a command with no operand -/
  | operandNotZero
  /-- `arg[7:1]` is not 0 on WBIT -/
  | operandNotBit
  deriving DecidableEq, Repr

/-- The operand shapes of R71, each with the instruction it makes. -/
inductive Form where
  | none (i : Instr)
  | bit (f : Bool → Instr)
  | byte (f : Byte → Instr)

/-- The field `op`, bits 15:8 (R71). -/
def opField (w : Word) : Byte := w.extractLsb' 8 8

/-- The field `arg`, bits 7:0 (R71). -/
def argField (w : Word) : Byte := w.extractLsb' 0 8

/-- The opcode map of R72. -/
def form (op : Byte) : Option Form :=
  if op = 0x01#8 then some (.none .clear)
  else if op = 0x02#8 then some (.none .compress)
  else if op = 0x03#8 then some (.none .decompress)
  else if op = 0x10#8 then some (.bit .wbit)
  else if op = 0x11#8 then some (.byte .wbyte)
  else if op = 0x12#8 then some (.none .flush)
  else if op = 0x13#8 then some (.none .rbit)
  else if op = 0x14#8 then some (.none .rbyte)
  else if op = 0x20#8 then some (.none .fclr)
  else if op = 0x21#8 then some (.byte .fcount)
  else if op = 0x22#8 then some (.none .analyze)
  else if op = 0x30#8 then some (.none .seed)
  else if op = 0x31#8 then some (.none .merge)
  else if op = 0x32#8 then some (.none .build)
  else if op = 0x40#8 then some (.none .codegen)
  else if op = 0x50#8 then some (.none .serialize)
  else if op = 0x51#8 then some (.none .deserialize)
  else if op = 0x60#8 then some (.none .wrhdr)
  else if op = 0x61#8 then some (.none .rdhdr)
  else if op = 0x62#8 then some (.byte .encsym)
  else if op = 0x63#8 then some (.none .encode)
  else if op = 0x64#8 then some (.none .decsym)
  else if op = 0x65#8 then some (.none .decode)
  else none

/-- `Decode16` of R73: the instruction of a command word, or the reason it is ILLEGAL. -/
def decode (w : Word) : Except DecodeError Instr :=
  match form (opField w) with
  | .none => .error .unknownOpcode
  | some (.none i) => if argField w = 0#8 then .ok i else .error .operandNotZero
  | some (.bit f) =>
    if (argField w).extractLsb' 1 7 = 0#7 then .ok (f ((argField w).getLsbD 0)) else .error .operandNotBit
  | some (.byte f) => .ok (f (argField w))

/-- `v` as the eight bits that travel on the bit stream, most significant first (R54). -/
def byteBits (v : Byte) : List Bool :=
  [v.getLsbD 7, v.getLsbD 6, v.getLsbD 5, v.getLsbD 4, v.getLsbD 3, v.getLsbD 2, v.getLsbD 1, v.getLsbD 0]

/-- `v[6:0] :: b`, the shift of R104. -/
def shiftIn (v : Byte) (b : Bool) : Byte := v.extractLsb' 0 7 ++ BitVec.ofBool b

/-- The byte whose bits, most significant first, are the last eight of the list (R104). -/
def byteOfBits (bs : List Bool) : Byte := bs.foldl shiftIn 0#8

/-- The word `op :: arg` of format C (R71). -/
def formatC (op arg : Byte) : Word := op ++ arg

/-- The command word of an instruction, from the opcode map of R72. A tree token has no command word
(`Instr.wellFormed` is false on it); its own bits, zero-extended, stand here and no rule uses them. -/
def encode : Instr → Word
  | .clear => formatC 0x01#8 0#8
  | .compress => formatC 0x02#8 0#8
  | .decompress => formatC 0x03#8 0#8
  | .wbit b => formatC 0x10#8 ((BitVec.ofBool b).setWidth 8)
  | .wbyte v => formatC 0x11#8 v
  | .flush => formatC 0x12#8 0#8
  | .rbit => formatC 0x13#8 0#8
  | .rbyte => formatC 0x14#8 0#8
  | .fclr => formatC 0x20#8 0#8
  | .fcount v => formatC 0x21#8 v
  | .analyze => formatC 0x22#8 0#8
  | .seed => formatC 0x30#8 0#8
  | .merge => formatC 0x31#8 0#8
  | .build => formatC 0x32#8 0#8
  | .codegen => formatC 0x40#8 0#8
  | .serialize => formatC 0x50#8 0#8
  | .deserialize => formatC 0x51#8 0#8
  | .wrhdr => formatC 0x60#8 0#8
  | .rdhdr => formatC 0x61#8 0#8
  | .encsym v => formatC 0x62#8 v
  | .encode => formatC 0x63#8 0#8
  | .decsym => formatC 0x64#8 0#8
  | .decode => formatC 0x65#8 0#8
  | .leaf s => formatC 0x01#8 s
  | .internal => 0#16

/-- The bits of LEAF(s) in stream order: `1`, then the symbol, most significant bit first (R78). -/
def leafBits (s : Byte) : List Bool := true :: byteBits s

/-- The bits of INTERNAL: `0` (R78). -/
def internalBits : List Bool := [false]

/-- The tree token at the head of a bit string, with the bits after it; none when the string ends first.
There is no illegal token (R78). -/
def decodeToken : List Bool → Option (Instr × List Bool)
  | [] => none
  | false :: rest => some (.internal, rest)
  | true :: rest => if rest.length < 8 then none else some (.leaf (byteOfBits (rest.take 8)), rest.drop 8)

/-- The low `n` bits of `w`, most significant first. -/
def natBits : Nat → Nat → List Bool
  | 0, _ => []
  | n + 1, w => w.testBit n :: natBits n w

/-- The instruction an opcode-table row's bits decode to. 16 bits are a command word; 9 bits, and 1 bit or the
one whole byte that holds it, are the tree tokens, whose rows the table gives these widths. -/
def decodeTableWord (nbits w : Nat) : Option Instr :=
  if nbits = 16 then
    if w < 2 ^ 16 then (decode (BitVec.ofNat 16 w)).toOption else none
  else if nbits = 9 then
    match decodeToken (natBits 9 w) with
    | some (.leaf s, []) => if w < 2 ^ 9 then some (.leaf s) else none
    | _ => none
  else if nbits = 1 ∨ nbits = 8 then
    if w = 0 then some .internal else none
  else none

end Sys2Proof
end

