-- ==== Sys2Proof/Config.lean ====
section
/-! DEFINITION. The parameters an implementation fixes (rule R4), at the values this hardware takes.
The core is fully determined (R9 item 6, 92_eei_decisions.md): there is no free value here. -/

namespace Sys2Proof.Config

/-- NSYM, the alphabet size (R4). -/
def nsym : Nat := 256

/-- NODECAP, the number of node arena entries (R4, R22). -/
def nodeCap : Nat := 511

/-- HEAPCAP, the number of heap entries (R4, R25). -/
def heapCap : Nat := 256

/-- MAXCODELEN, the longest code in bits (R4, R152). -/
def maxCodeLen : Nat := 255

/-- The traversal stack of the deserializer (R4 STACKDEPTH, R167): 511 pending nodes, plus the call that
meets the capacity test of R162. -/
def desFuel : Nat := nodeCap + 1

/-- The largest value of LEN and of a FREQ entry, 2^32 - 1 (R121). -/
def countMax : Count := 0xFFFFFFFF#32

/-- 2 to the width POSW of SLEN (R4, R31): a bound source is shorter than this (R212 row H3). -/
def posLimit : Nat := 2 ^ 64

end Sys2Proof.Config
end

