-- ==== Sys2Proof/Machine/State.lean ====
section
/-! DEFINITION. The architectural state of the core (10_state.md), the host's bound source (R31) and pending
moves (R212), the reasons a step can stop, and the state after reset (R35).

NODE, HEAP and CODE are held as rule R36 asks: the in-use prefix of the arena and of the heap, and an option
for each code. So NCOUNT (R23), HSIZE (R26) and CODEV (R28) have one home each, the length of `node`, the
length of `heap` and the presence of a code; Machine/Flags.lean names these views. -/

namespace Sys2Proof.Machine

/-- A byte space: cells (address, byte), addresses strictly rising. An address that is not listed is absent
(R58) and reads as no value. -/
abbrev Memory := List Host.Cell

/-- The canonical form of a byte space. No byte equals what an absent address reads as, so the one condition
is that addresses rise strictly. -/
abbrev Memory.wf (m : Memory) : Prop := m.Pairwise fun a b => a.1 < b.1

/-- One record of the node arena (R22). Children are arena indices. -/
inductive Node where
  | leaf (sym : Byte) (weight : Count) (minsym : Byte)
  | internal (left right : Nat) (weight : Count) (minsym : Byte)
  deriving DecidableEq, Repr

/-- The error codes of R200. -/
inductive ErrorKind where
  /-- E_ILLEGAL_CMD -/
  | illegalCmd
  /-- E_EOS -/
  | eos
  /-- E_TREE_OVERFLOW -/
  | treeOverflow
  /-- E_COUNT_OVERFLOW -/
  | countOverflow
  /-- E_WEIGHT_OVERFLOW -/
  | weightOverflow
  /-- E_NOCODE -/
  | noCode
  /-- E_NOTREE -/
  | noTree
  /-- E_HEAP_UNDERFLOW -/
  | heapUnderflow
  deriving DecidableEq, Repr

/-- The host's moves between commands that act on the core (R212 rows H1, H3, H4). Reading the status view or
DST (H2) has no effect and is no move here. -/
inductive HostMove where
  /-- present a command word (H1, R70) -/
  | command (w : Word)
  /-- bind a new source (H3, R244) -/
  | bindSource (bytes : List Byte)
  /-- assert reset (H4, R230) -/
  | reset
  deriving DecidableEq, Repr

/-- The machine's state. -/
structure State where
  /-- ERR, 8 bits (R11) -/
  err : Byte
  /-- ERRCMD, 16 bits (R12) -/
  errCmd : Word
  /-- RES, 8 bits (R13) -/
  res : Byte
  /-- LEN, 32 bits (R14) -/
  len : Count
  /-- SPOS, an unbounded natural as D8 allows (R18) -/
  spos : Nat
  /-- DPOS, an unbounded natural as R19 allows -/
  dpos : Nat
  /-- FREQ[0..255] (R21) -/
  freq : Vector Count 256
  /-- NODE[0..NCOUNT-1] (R22, R23, R36); `none` is an entry below NCOUNT whose record was not written, which a
  DESERIALIZE that fails leaves (R162 point d) -/
  node : List (Option Node)
  /-- ROOT, 9 bits (R24) -/
  root : Nat
  /-- ROOTV (R24) -/
  rootv : Bool
  /-- HEAP[0..HSIZE-1] (R25, R26, R36) -/
  heap : List Nat
  /-- CODE[s] where CODEV[s] = 1 (R27, R28, R36): the code's bits, the edge out of the root first; its length is
  CODE[s].len -/
  code : Vector (Option (List Bool)) 256
  /-- WBUF, 8 bits (R29) -/
  wbuf : Byte
  /-- WCNT, 3 bits (R29) -/
  wcnt : BitVec 3
  /-- RBUF, 8 bits (R30) -/
  rbuf : Byte
  /-- RCNT, 4 bits (R30) -/
  rcnt : BitVec 4
  /-- DST[0..DPOS-1] (R32, R51) -/
  dst : Memory
  /-- SRC[0..SLEN-1], the host's (R31, R50) -/
  src : Memory
  /-- SLEN, the host's (R31) -/
  slen : Nat
  /-- the host's pending moves, the first to come first (R70, R212) -/
  port : List HostMove
  deriving DecidableEq, Repr

/-- Why the machine stops. Every reason is a read of storage that rule R36 or R58 says has no value, or a walk
over links that rule R34 item 2 says cannot occur: no run reaches one, and stopping there is safe. -/
inductive Fault where
  /-- an arena entry with no record is read: by MERGE and BUILD through `Less`, by CODEGEN, SERIALIZE, DECSYM,
  DECODE through the tree (R22, R36). Safe. -/
  | unwrittenNode
  /-- a tree walk does not reach a leaf within NCOUNT nodes: by CODEGEN, SERIALIZE, DECSYM, DECODE (R34 item 2).
  Safe. -/
  | endlessTree
  /-- a heap entry at or beyond HSIZE is read: by MERGE and BUILD (R25, R36). Safe. -/
  | unwrittenHeap
  /-- SRC has no byte at an address below SLEN: by the commands that read the source (R31, R58). Safe. -/
  | absentSourceByte
  deriving DecidableEq, Repr

/-- Why the model has no meaning for what it is given. -/
inductive Refusal where
  /-- raised by `exec` for an instruction not modelled yet; safe -/
  | notModelled (mnemonic : String)
  /-- raised by `step` for a host move that rule R212 row H3 rules out, a source of 2^64 bytes or more; safe -/
  | sourceTooLong
  deriving DecidableEq, Repr

/-- The state right after reset (R35, R230), with the empty source bound and no host move pending. -/
def State.reset : State where
  err := 0#8
  errCmd := 0#16
  res := 0#8
  len := 0#32
  spos := 0
  dpos := 0
  freq := Vector.replicate 256 0#32
  node := []
  root := 0
  rootv := false
  heap := []
  code := Vector.replicate 256 none
  wbuf := 0#8
  wcnt := 0#3
  rbuf := 0#8
  rcnt := 0#4
  dst := []
  src := []
  slen := 0
  port := []

end Sys2Proof.Machine
end

