-- ==== Sys2Proof/Machine/Ops.lean ====
section
/-! DEFINITION. The operations every family shares: the byte spaces and their cursors (R52, R53), reading and
writing the tables, error entry and what ends an error (R201, R203), the start and the end of an invocation
(R170, R171), and how a command ends. -/

namespace Sys2Proof.Machine

/-- How a micro-operation ends: with a value, with a `raise` (R201) in the state reached there, or at a read
that has no value. -/
inductive Res (α : Type) where
  | ok (a : α) (s : State)
  | err (e : ErrorKind) (s : State)
  | stuck (f : Fault)
  deriving DecidableEq, Repr

/-- Go on after a micro-operation; a `raise` abandons the rest of the command (R201). -/
def Res.bind {α β : Type} (r : Res α) (f : α → State → Res β) : Res β :=
  match r with
  | .ok a s => f a s
  | .err e s => .err e s
  | .stuck x => .stuck x

/-- The byte at an address; none where the space has none (R58). -/
def Memory.read (m : Memory) (a : Nat) : Option Byte :=
  match m with
  | [] => none
  | c :: rest => if c.1 = a then some c.2 else Memory.read rest a

/-- Write one byte, keeping addresses rising. -/
def Memory.write (m : Memory) (a : Nat) (b : Byte) : Memory :=
  match m with
  | [] => [(a, b)]
  | c :: rest =>
    if a < c.1 then (a, b) :: c :: rest
    else if a = c.1 then (a, b) :: rest
    else c :: Memory.write rest a b

/-- The bytes given, at ascending addresses from `a`. -/
def Memory.ofBytesAt (a : Nat) : List Byte → Memory
  | [] => []
  | b :: rest => (a, b) :: Memory.ofBytesAt (a + 1) rest

/-- The bytes of a space in address order: what the host reads of DST (R16, R32). -/
def Memory.bytes (m : Memory) : List Byte := m.map Prod.snd

/-- `SrcNext()` (R52). -/
def srcNext (s : State) : Res Byte :=
  if s.slen ≤ s.spos then .err .eos s
  else
    match s.src.read s.spos with
    | some v => .ok v { s with spos := s.spos + 1 }
    | none => .stuck .absentSourceByte

/-- `SinkPut(v)` (R53). -/
def sinkPut (v : Byte) (s : State) : State :=
  { s with dst := s.dst.write s.dpos v, dpos := s.dpos + 1 }

/-- FREQ[v] (R21). -/
def State.freqAt (s : State) (v : Byte) : Count := s.freq[v.toNat]'v.isLt

/-- FREQ[v] <- n (R21). -/
def State.setFreq (s : State) (v : Byte) (n : Count) : State :=
  { s with freq := s.freq.set v.toNat n v.isLt }

/-- CODE[v] where CODEV[v] = 1, else none (R27, R28). -/
def State.codeAt (s : State) (v : Byte) : Option (List Bool) := s.code[v.toNat]'v.isLt

/-- CODE[v] <- p; CODEV[v] <- 1 (R151). -/
def State.setCode (s : State) (v : Byte) (p : List Bool) : State :=
  { s with code := s.code.set v.toNat (some p) v.isLt }

/-- NODE[i]; none where the entry has no record (R22, R36). -/
def nodeAt (ns : List (Option Node)) (i : Nat) : Option Node := (ns[i]?).join

/-- All symbol values in ascending order: the loop `for s = 0 to 255`. -/
def allSymbols : List Byte := (List.range Config.nsym).map (BitVec.ofNat 8)

/-- The frequency table in ascending symbol order: the pairs (s, FREQ[s]) for s = 0 to 255. -/
def State.freqTable (s : State) : List (Byte × Count) := allSymbols.zip s.freq.toList

/-- The codes of R200. -/
def ErrorKind.code : ErrorKind → Byte
  | .illegalCmd => 1#8
  | .eos => 2#8
  | .treeOverflow => 3#8
  | .countOverflow => 4#8
  | .weightOverflow => 5#8
  | .noCode => 6#8
  | .noTree => 7#8
  | .heapUnderflow => 8#8

/-- `Release()` (R171). -/
def release (s : State) : State :=
  { s with freq := Vector.replicate 256 0#32, node := [], root := 0, rootv := false, heap := [],
           code := Vector.replicate 256 none }

/-- `raise E_X` with `cmd` the word in flight (R201): error entry. -/
def raise (cmd : Word) (e : ErrorKind) (s : State) : State :=
  let recorded := { s with err := e.code, errCmd := cmd }
  if cmd = encode .compress ∨ cmd = encode .decompress then release recorded else recorded

/-- `Init()` (R170): the start of an invocation, and the one thing that ends a pending error (R203). SRC, SLEN and
the host's pending moves are not the core's. -/
def init (s : State) : State :=
  { State.reset with src := s.src, slen := s.slen, port := s.port }

/-- How a step command ends: its last state, or error entry with its own word (R201). -/
def finish {α : Type} (cmd : Word) (r : Res α) : Host.Outcome State Fault Refusal :=
  match r with
  | .ok _ s => .next s
  | .err e s => .next (raise cmd e s)
  | .stuck f => .fault f

/-- How COMPRESS and DECOMPRESS end: `Release()` on the normal path as after a `raise` (R185, R186, R207). -/
def finishReleasing {α : Type} (cmd : Word) (r : Res α) : Host.Outcome State Fault Refusal :=
  match r with
  | .ok _ s => .next (release s)
  | .err e s => .next (raise cmd e s)
  | .stuck f => .fault f

/-- The host binds a new source (R212 row H3): SRC and SLEN change and nothing else (R244). -/
def bindSource (bytes : List Byte) (s : State) : State :=
  { s with src := Memory.ofBytesAt 0 bytes, slen := bytes.length }

end Sys2Proof.Machine
end

