-- ==== Sys2Proof/Machine/Operands.lean ====
section
/-! DEFINITION. The operand and field forms commands compute with: a bit as a byte (R13), one bit of a byte
buffer (R29), and the header bytes of LEN (R55). The operand fields of the command word itself are read in
Decode.lean (R71). -/

namespace Sys2Proof.Machine

/-- `zext_8(b)` (R13, R108). -/
def bitByte (b : Bool) : Byte := (BitVec.ofBool b).setWidth 8

/-- `v[i] <- b`, the other bits keeping their values (R100). -/
def setBit (v : Byte) (i : Nat) (b : Bool) : Byte :=
  if b then v ||| (1#8 <<< i) else v &&& ~~~(1#8 <<< i)

/-- The four header bytes of a count, least significant first (R55, R172). -/
def headerBytes (n : Count) : List Byte :=
  [n.extractLsb' 0 8, n.extractLsb' 8 8, n.extractLsb' 16 8, n.extractLsb' 24 8]

/-- `b3 :: b2 :: b1 :: b0` (R173). -/
def headerCount (b0 b1 b2 b3 : Byte) : Count := b3 ++ b2 ++ b1 ++ b0

end Sys2Proof.Machine
end

