-- ==== Sys2Proof/Machine/Flags.lean ====
section
/-! DEFINITION. The views the spec computes from other state: STATUS (R15), NCOUNT, HSIZE and CODEV (R23, R26,
R28), and which commands a pending error lets through (R74, R202). There are no condition codes (R20). -/

namespace Sys2Proof.Machine

/-- NCOUNT, the number of arena entries in use (R23). -/
def State.ncount (s : State) : Nat := s.node.length

/-- HSIZE, the number of heap entries in use (R26). -/
def State.hsize (s : State) : Nat := s.heap.length

/-- CODEV[v] (R28). -/
def State.codev (s : State) (v : Byte) : Bool := (s.codeAt v).isSome

/-- CODE[v].len (R27). -/
def State.codeLen (s : State) (v : Byte) : Option Nat := (s.codeAt v).map List.length

/-- STATUS.ERRF (R15). -/
def State.errf (s : State) : Bool := s.err != 0#8

/-- STATUS.WPEND (R15). -/
def State.wpend (s : State) : Bool := s.wcnt != 0#3

/-- STATUS.RPEND (R15). -/
def State.rpend (s : State) : Bool := s.rcnt != 0#4

/-- STATUS.SEND (R15). -/
def State.send (s : State) : Bool := decide (s.slen ≤ s.spos)

/-- STATUS, the 16-bit view: bits 4 to 0 as R15 lists them, bits 15:5 zero. -/
def State.status (s : State) : Word :=
  0#11 ++ BitVec.ofBool s.send ++ BitVec.ofBool s.rpend ++ BitVec.ofBool s.wpend ++ BitVec.ofBool s.rootv ++
    BitVec.ofBool s.errf

/-- The bytes of DST the host reads (R16, R32). -/
def State.output (s : State) : List Byte := s.dst.bytes

/-- The core accepts the command: no error is pending, or the command starts an invocation (R74, R202). -/
def accepts (i : Instr) (s : State) : Bool := s.err == 0#8 || i.startsInvocation

end Sys2Proof.Machine
end

