-- ==== Sys2Proof/Machine/BitStream.lean ====
section
/-! DEFINITION. Bit stream I/O (40_bitstream.md): the writer's and the reader's micro-operations and the commands
WBIT, WBYTE, FLUSH, RBIT, RBYTE. -/

namespace Sys2Proof.Machine

/-- `WriteBit(b)` (R100). -/
def writeBit (b : Bool) (s : State) : State :=
  let buf := setBit s.wbuf (7 - s.wcnt.toNat) b
  if s.wcnt = 7#3 then { sinkPut buf s with wbuf := 0#8, wcnt := 0#3 }
  else { s with wbuf := buf, wcnt := s.wcnt + 1#3 }

/-- `WriteBit` for each bit in turn. -/
def writeBits (bs : List Bool) (s : State) : State :=
  match bs with
  | [] => s
  | b :: rest => writeBits rest (writeBit b s)

/-- `WriteByte(v)` (R101). -/
def writeByte (v : Byte) (s : State) : State := writeBits (byteBits v) s

/-- `Flush()` (R102). -/
def flush (s : State) : State :=
  if s.wcnt = 0#3 then s else { sinkPut s.wbuf s with wbuf := 0#8, wcnt := 0#3 }

/-- The fetch of `ReadBit()`: a byte is pulled only when no bit is left (R103). -/
def refill (s : State) : Res Unit :=
  if s.rcnt = 0#4 then (srcNext s).bind fun v s => .ok () { s with rbuf := v, rcnt := 8#4 } else .ok () s

/-- `ReadBit()` (R103). -/
def readBit (s : State) : Res Bool :=
  (refill s).bind fun _ s => .ok (s.rbuf.getLsbD (s.rcnt.toNat - 1)) { s with rcnt := s.rcnt - 1#4 }

/-- `repeat n times: v <- v[6:0] :: ReadBit()` (R104). -/
def readInto (n : Nat) (v : Byte) (s : State) : Res Byte :=
  match n with
  | 0 => .ok v s
  | n + 1 => (readBit s).bind fun b s => readInto n (shiftIn v b) s

/-- `ReadByte()` (R104). -/
def readByte (s : State) : Res Byte := readInto 8 0#8 s

/-- WBIT b (R105). -/
def execWbit (b : Bool) (s : State) : Host.Outcome State Fault Refusal := .next (writeBit b s)

/-- WBYTE v (R106). -/
def execWbyte (v : Byte) (s : State) : Host.Outcome State Fault Refusal := .next (writeByte v s)

/-- FLUSH (R107). -/
def execFlush (s : State) : Host.Outcome State Fault Refusal := .next (flush s)

/-- RBIT (R108). -/
def execRbit (s : State) : Host.Outcome State Fault Refusal :=
  finish (encode .rbit) ((readBit s).bind fun b s => .ok () { s with res := bitByte b })

/-- RBYTE (R109). -/
def execRbyte (s : State) : Host.Outcome State Fault Refusal :=
  finish (encode .rbyte) ((readByte s).bind fun v s => .ok () { s with res := v })

end Sys2Proof.Machine
end

