-- ==== Sys2Proof/Machine/Frequency.lean ====
section
/-! DEFINITION. The frequency analyzer (41_frequency.md): FCLR, FCOUNT, ANALYZE. -/

namespace Sys2Proof.Machine

/-- `FreqClear()` (R120). -/
def freqClear (s : State) : State := { s with freq := Vector.replicate 256 0#32, len := 0#32 }

/-- `Count(v)` (R121): the test comes before either write. -/
def count (v : Byte) (s : State) : Res Unit :=
  if s.len = Config.countMax ∨ s.freqAt v = Config.countMax then .err .countOverflow s
  else .ok () { s.setFreq v (s.freqAt v + 1#32) with len := s.len + 1#32 }

/-- `while SPOS < SLEN: Count(SrcNext())` (R124); `n` bounds the passes, SLEN - SPOS of them (R249). -/
def countAll (n : Nat) (s : State) : Res Unit :=
  match n with
  | 0 => .ok () s
  | n + 1 =>
    if s.spos < s.slen then
      ((srcNext s).bind count).bind fun _ s => countAll n s
    else .ok () s

/-- `Analyze()` (R124). -/
def analyze (s : State) : Res Unit :=
  (countAll s.slen { freqClear s with spos := 0 }).bind fun _ s => .ok () { s with spos := 0 }

/-- FCLR (R122). -/
def execFclr (s : State) : Host.Outcome State Fault Refusal := .next (freqClear s)

/-- FCOUNT v (R123). -/
def execFcount (v : Byte) (s : State) : Host.Outcome State Fault Refusal :=
  finish (encode (.fcount v)) (count v s)

/-- ANALYZE (R124). -/
def execAnalyze (s : State) : Host.Outcome State Fault Refusal := finish (encode .analyze) (analyze s)

end Sys2Proof.Machine
end

