-- ==== Sys2Proof/Machine/TreeBuilder.lean ====
section
/-! DEFINITION. The Huffman tree builder and its binary min-heap (42_tree_builder.md): SEED, MERGE, BUILD. -/

namespace Sys2Proof.Machine

/-- A node's weight (R22). -/
def Node.weight : Node → Count
  | .leaf _ w _ => w
  | .internal _ _ w _ => w

/-- A node's minsym (R22, R130). -/
def Node.minsym : Node → Byte
  | .leaf _ _ m => m
  | .internal _ _ _ m => m

/-- The order of keys (weight, minsym), lexicographic and unsigned (R130). -/
def Node.keyLt (a b : Node) : Bool :=
  decide (a.weight < b.weight) || (decide (a.weight = b.weight) && decide (a.minsym < b.minsym))

/-- `Less(i, j)` (R130). -/
def less (ns : List (Option Node)) (i j : Nat) : Option Bool :=
  match nodeAt ns i, nodeAt ns j with
  | some a, some b => some (a.keyLt b)
  | _, _ => none

/-- `Less(HEAP[k], HEAP[p])`. -/
def lessAt (ns : List (Option Node)) (h : List Nat) (k p : Nat) : Option Bool :=
  match h[k]?, h[p]? with
  | some i, some j => less ns i j
  | _, _ => none

/-- `swap HEAP[k] and HEAP[p]`. -/
def swapAt (h : List Nat) (k p : Nat) : List Nat :=
  match h[k]?, h[p]? with
  | some x, some y => (h.set k y).set p x
  | _, _ => h

/-- The loop of R131, from position `k`; `n` bounds the passes. -/
def siftUp (ns : List (Option Node)) (n : Nat) (h : List Nat) (k : Nat) : Option (List Nat) :=
  match n with
  | 0 => some h
  | n + 1 =>
    if k = 0 then some h
    else
      match lessAt ns h k ((k - 1) / 2) with
      | none => none
      | some true => siftUp ns n (swapAt h k ((k - 1) / 2)) ((k - 1) / 2)
      | some false => some h

/-- `if c < HSIZE and Less(HEAP[c], HEAP[t]): t <- c`, the two tests of R132. -/
def lesserOf (ns : List (Option Node)) (h : List Nat) (c t : Nat) : Option Nat :=
  if c < h.length then
    match lessAt ns h c t with
    | none => none
    | some true => some c
    | some false => some t
  else some t

/-- The loop of R132, from position `k`; `n` bounds the passes. -/
def siftDown (ns : List (Option Node)) (n : Nat) (h : List Nat) (k : Nat) : Option (List Nat) :=
  match n with
  | 0 => some h
  | n + 1 =>
    match (lesserOf ns h (2 * k + 1) k).bind (lesserOf ns h (2 * k + 2)) with
    | none => none
    | some t => if t = k then some h else siftDown ns n (swapAt h k t) t

/-- `HeapInsert(n)` (R131). -/
def heapInsert (i : Nat) (s : State) : Res Unit :=
  match siftUp s.node (s.heap.length + 1) (s.heap ++ [i]) s.heap.length with
  | some h => .ok () { s with heap := h }
  | none => .stuck .unwrittenNode

/-- `HeapExtractMin()` (R132). -/
def heapExtractMin (s : State) : Res Nat :=
  match s.heap with
  | [] => .stuck .unwrittenHeap
  | m :: rest =>
    match rest.getLast? with
    | none => .ok m { s with heap := [] }
    | some last =>
      match siftDown s.node rest.length (last :: rest.dropLast) 0 with
      | some h => .ok m { s with heap := h }
      | none => .stuck .unwrittenNode

/-- `SetRoot()` (R133). -/
def setRoot (s : State) : State :=
  match s.heap with
  | [r] => { s with root := r, rootv := true }
  | _ => { s with root := 0, rootv := false }

/-- `NODE[NCOUNT] <- n; NCOUNT <- NCOUNT + 1`. -/
def allocNode (n : Option Node) (s : State) : State := { s with node := s.node ++ [n] }

/-- The first statement of `Seed()` and of `Deserialize()`: discard any earlier tree and heap (R134, R163). -/
def discardTree (s : State) : State := { s with node := [], heap := [], rootv := false, root := 0 }

/-- The loop of `Seed()` over table entries (s, FREQ[s]) (R134). -/
def seedAll (table : List (Byte × Count)) (s : State) : Res Unit :=
  match table with
  | [] => .ok () s
  | (v, n) :: rest =>
    if n = 0#32 then seedAll rest s
    else (heapInsert s.node.length (allocNode (some (.leaf v n v)) s)).bind fun _ s => seedAll rest s

/-- `Seed()` (R134): symbols in ascending order; the loop does not change FREQ. -/
def seed (s : State) : Res Unit :=
  (seedAll s.freqTable (discardTree s)).bind fun _ s => .ok () (setRoot s)

/-- The allocation and reinsertion of `Merge()` with the two extracted nodes `a` and `b` (R135). -/
def mergePair (a b : Nat) (s : State) : Res Unit :=
  match nodeAt s.node a, nodeAt s.node b with
  | some x, some y =>
    if 2 ^ 32 ≤ x.weight.toNat + y.weight.toNat then .err .weightOverflow s
    else
      (heapInsert s.node.length
        (allocNode (some (.internal a b (x.weight + y.weight) (if x.minsym ≤ y.minsym then x.minsym else y.minsym))) s)).bind
        fun _ s => .ok () (setRoot s)
  | _, _ => .stuck .unwrittenNode

/-- `Merge()` (R135). -/
def merge (s : State) : Res Unit :=
  if s.heap.length < 2 then .err .heapUnderflow s
  else (heapExtractMin s).bind fun a s => (heapExtractMin s).bind fun b s => mergePair a b s

/-- `while HSIZE > 1: Merge()` (R136); `n` bounds the passes, each of which takes one off HSIZE. -/
def mergeAll (n : Nat) (s : State) : Res Unit :=
  match n with
  | 0 => .ok () s
  | n + 1 => if 1 < s.heap.length then (merge s).bind fun _ s => mergeAll n s else .ok () s

/-- `Build()` (R136). -/
def build (s : State) : Res Unit := (seed s).bind fun _ s => mergeAll s.heap.length s

/-- SEED (R137). -/
def execSeed (s : State) : Host.Outcome State Fault Refusal := finish (encode .seed) (seed s)

/-- MERGE (R138). -/
def execMerge (s : State) : Host.Outcome State Fault Refusal := finish (encode .merge) (merge s)

/-- BUILD (R139). -/
def execBuild (s : State) : Host.Outcome State Fault Refusal := finish (encode .build) (build s)

end Sys2Proof.Machine
end

