-- ==== Sys2Proof/Machine/CodeTable.lean ====
section
/-! DEFINITION. The code table generator (43_code_table.md): CODEGEN. -/

namespace Sys2Proof.Machine

/-- `Walk(i, p)` (R151). `n` bounds the nodes on a path, at most NCOUNT (R33). -/
def walk (n i : Nat) (p : List Bool) (s : State) : Res Unit :=
  match n with
  | 0 => .stuck .endlessTree
  | n + 1 =>
    match nodeAt s.node i with
    | none => .stuck .unwrittenNode
    | some (.leaf v _ _) => .ok () (s.setCode v p)
    | some (.internal l r _ _) => (walk n l (p ++ [false]) s).bind fun _ s => walk n r (p ++ [true]) s

/-- `CodeGen()` (R150). -/
def codeGen (s : State) : Res Unit :=
  let cleared := { s with code := Vector.replicate 256 none }
  if s.rootv then walk s.node.length s.root [] cleared else .ok () cleared

/-- CODEGEN (R153). -/
def execCodegen (s : State) : Host.Outcome State Fault Refusal := finish (encode .codegen) (codeGen s)

end Sys2Proof.Machine
end

