-- ==== Sys2Proof/Machine/TreeSerdes.lean ====
section
/-! DEFINITION. The tree serializer and deserializer (44_tree_serdes.md): SERIALIZE, DESERIALIZE, and what the
serializer does for each of the two tree tokens (R78, R160). -/

namespace Sys2Proof.Machine

/-- The serializer's step for LEAF(v): `WriteBit(1); WriteByte(v)` (R160). -/
def putLeaf (v : Byte) (s : State) : State := writeByte v (writeBit true s)

/-- The serializer's step for INTERNAL: `WriteBit(0)` (R160). -/
def putInternal (s : State) : State := writeBit false s

/-- `SerNode(i)` (R160). `n` bounds the nodes on a path, at most NCOUNT (R33). -/
def serNode (n i : Nat) (s : State) : Res Unit :=
  match n with
  | 0 => .stuck .endlessTree
  | n + 1 =>
    match nodeAt s.node i with
    | none => .stuck .unwrittenNode
    | some (.leaf v _ _) => .ok () (putLeaf v s)
    | some (.internal l r _ _) => (serNode n l (putInternal s)).bind fun _ s => serNode n r s

/-- `Serialize()` (R161). -/
def serialize (s : State) : Res Unit := if s.rootv then serNode s.node.length s.root s else .ok () s

/-- `NODE[i] <- n` for an entry already counted. -/
def writeNode (i : Nat) (n : Node) (s : State) : State := { s with node := s.node.set i (some n) }

/-- `DesNode()` (R162). `n` bounds the pending nodes: the capacity test stops the recursion first (R167). -/
def desNode (n : Nat) (s : State) : Res Nat :=
  match n with
  | 0 => .stuck .endlessTree
  | n + 1 =>
    (readBit s).bind fun b s =>
      if s.node.length = Config.nodeCap then .err .treeOverflow s
      else
        let i := s.node.length
        let s := allocNode none s
        if b then (readByte s).bind fun v s => .ok i (writeNode i (.leaf v 0#32 0#8) s)
        else
          (desNode n s).bind fun l s =>
            (desNode n s).bind fun r s => .ok i (writeNode i (.internal l r 0#32 0#8) s)

/-- `Deserialize()` (R163). -/
def deserialize (s : State) : Res Unit :=
  (desNode Config.desFuel (discardTree s)).bind fun r s => .ok () { s with root := r, rootv := true }

/-- SERIALIZE (R164). -/
def execSerialize (s : State) : Host.Outcome State Fault Refusal := finish (encode .serialize) (serialize s)

/-- DESERIALIZE (R165). -/
def execDeserialize (s : State) : Host.Outcome State Fault Refusal := finish (encode .deserialize) (deserialize s)

/-- LEAF(v), a token the serializer writes (R78, R160). The command port never presents one. -/
def execLeaf (v : Byte) (s : State) : Host.Outcome State Fault Refusal := .next (putLeaf v s)

/-- INTERNAL, a token the serializer writes (R78, R160). The command port never presents one. -/
def execInternal (s : State) : Host.Outcome State Fault Refusal := .next (putInternal s)

end Sys2Proof.Machine
end

