-- ==== Sys2Proof/Machine/Pipeline.lean ====
section
/-! DEFINITION. The encode and decode pipeline (45_pipeline.md): CLEAR, WRHDR, RDHDR, ENCSYM, ENCODE, DECSYM,
DECODE, COMPRESS, DECOMPRESS. -/

namespace Sys2Proof.Machine

/-- `WriteByte` for each byte in turn. -/
def writeBytes (vs : List Byte) (s : State) : State :=
  match vs with
  | [] => s
  | v :: rest => writeBytes rest (writeByte v s)

/-- `WrHdr()` (R172). -/
def wrHdr (s : State) : State := writeBytes (headerBytes s.len) s

/-- `RdHdr()` (R173): LEN is written once, after the fourth byte. -/
def rdHdr (s : State) : Res Unit :=
  (readByte s).bind fun b0 s =>
    (readByte s).bind fun b1 s =>
      (readByte s).bind fun b2 s =>
        (readByte s).bind fun b3 s => .ok () { s with len := headerCount b0 b1 b2 b3 }

/-- `EncSym(v)` (R174). -/
def encSym (v : Byte) (s : State) : Res Unit :=
  match s.codeAt v with
  | none => .err .noCode s
  | some p => .ok () (writeBits p s)

/-- The loop of `Encode()` (R175); `n` bounds the passes, SLEN - SPOS of them (R249). -/
def encodeAll (n : Nat) (s : State) : Res Unit :=
  match n with
  | 0 => .ok () s
  | n + 1 =>
    if s.spos < s.slen then
      ((srcNext s).bind encSym).bind fun _ s => encodeAll n s
    else .ok () s

/-- `Encode()` (R175). -/
def encodeSource (s : State) : Res Unit := encodeAll (s.slen - s.spos) s

/-- The walk of `DecSym()` from node `i` (R176). `n` bounds the nodes on a path, at most NCOUNT (R33). -/
def decWalk (n i : Nat) (s : State) : Res Unit :=
  match n with
  | 0 => .stuck .endlessTree
  | n + 1 =>
    match nodeAt s.node i with
    | none => .stuck .unwrittenNode
    | some (.leaf v _ _) => .ok () (sinkPut v s)
    | some (.internal l r _ _) => (readBit s).bind fun b s => decWalk n (if b then r else l) s

/-- `DecSym()` (R176). -/
def decSym (s : State) : Res Unit := if s.rootv then decWalk s.node.length s.root s else .err .noTree s

/-- `repeat n times: DecSym()` (R177). -/
def decodeAll (n : Nat) (s : State) : Res Unit :=
  match n with
  | 0 => .ok () s
  | n + 1 => (decSym s).bind fun _ s => decodeAll n s

/-- `Decode()` (R177). -/
def decodeSource (s : State) : Res Unit := decodeAll s.len.toNat s

/-- The `try` part of `Compress()` (R185). -/
def compressBody (s : State) : Res Unit :=
  (analyze s).bind fun _ s =>
    (build s).bind fun _ s =>
      (codeGen s).bind fun _ s =>
        (serialize (wrHdr s)).bind fun _ s =>
          (encodeSource s).bind fun _ s => .ok () (flush s)

/-- The `try` part of `Decompress()` (R186). -/
def decompressBody (s : State) : Res Unit :=
  (rdHdr s).bind fun _ s =>
    if s.len = 0#32 then .ok () s else (deserialize s).bind fun _ s => decodeSource s

/-- CLEAR (R178). -/
def execClear (s : State) : Host.Outcome State Fault Refusal := .next (init s)

/-- WRHDR (R179). -/
def execWrhdr (s : State) : Host.Outcome State Fault Refusal := .next (wrHdr s)

/-- RDHDR (R180). -/
def execRdhdr (s : State) : Host.Outcome State Fault Refusal := finish (encode .rdhdr) (rdHdr s)

/-- ENCSYM v (R181). -/
def execEncsym (v : Byte) (s : State) : Host.Outcome State Fault Refusal := finish (encode (.encsym v)) (encSym v s)

/-- ENCODE (R182). -/
def execEncode (s : State) : Host.Outcome State Fault Refusal := finish (encode .encode) (encodeSource s)

/-- DECSYM (R183). -/
def execDecsym (s : State) : Host.Outcome State Fault Refusal := finish (encode .decsym) (decSym s)

/-- DECODE (R184). -/
def execDecode (s : State) : Host.Outcome State Fault Refusal := finish (encode .decode) (decodeSource s)

/-- COMPRESS (R185). -/
def execCompress (s : State) : Host.Outcome State Fault Refusal :=
  finishReleasing (encode .compress) (compressBody (init s))

/-- DECOMPRESS (R186). -/
def execDecompress (s : State) : Host.Outcome State Fault Refusal :=
  finishReleasing (encode .decompress) (decompressBody (init s))

end Sys2Proof.Machine
end

