-- ==== Sys2Proof/Machine/Dispatch.lean ====
section
/-! DEFINITION. The meaning of each instruction: one arm per constructor of Instr. -/

namespace Sys2Proof.Machine

def exec (i : Instr) (s : State) : Host.Outcome State Fault Refusal :=
  match i with
  | .clear => Sys2Proof.Machine.execClear s
  | .compress => Sys2Proof.Machine.execCompress s
  | .decompress => Sys2Proof.Machine.execDecompress s
  | .wbit b => Sys2Proof.Machine.execWbit b s
  | .wbyte v => Sys2Proof.Machine.execWbyte v s
  | .flush => Sys2Proof.Machine.execFlush s
  | .rbit => Sys2Proof.Machine.execRbit s
  | .rbyte => Sys2Proof.Machine.execRbyte s
  | .fclr => Sys2Proof.Machine.execFclr s
  | .fcount v => Sys2Proof.Machine.execFcount v s
  | .analyze => Sys2Proof.Machine.execAnalyze s
  | .seed => Sys2Proof.Machine.execSeed s
  | .merge => Sys2Proof.Machine.execMerge s
  | .build => Sys2Proof.Machine.execBuild s
  | .codegen => Sys2Proof.Machine.execCodegen s
  | .serialize => Sys2Proof.Machine.execSerialize s
  | .deserialize => Sys2Proof.Machine.execDeserialize s
  | .wrhdr => Sys2Proof.Machine.execWrhdr s
  | .rdhdr => Sys2Proof.Machine.execRdhdr s
  | .encsym v => Sys2Proof.Machine.execEncsym v s
  | .encode => Sys2Proof.Machine.execEncode s
  | .decsym => Sys2Proof.Machine.execDecsym s
  | .decode => Sys2Proof.Machine.execDecode s
  | .leaf v => Sys2Proof.Machine.execLeaf v s
  | .internal => Sys2Proof.Machine.execInternal s

end Sys2Proof.Machine
end

