-- ==== Sys2Proof/Machine/Port.lean ====
section
/-! DEFINITION. The command port and the host's other moves (R70, R74, R212): what one move does to the core. -/

namespace Sys2Proof.Machine

/-- `Step(w)` of R74: refuse while an error is pending, raise E_ILLEGAL_CMD, or execute the command rule. -/
def present (w : Word) (s : State) : Host.Outcome State Fault Refusal :=
  match decode w with
  | .error _ => if s.err = 0#8 then .next (raise w .illegalCmd s) else .next s
  | .ok i => if accepts i s then exec i s else .next s

/-- One move of the host (R212 rows H1, H3, H4). Reset has exactly the effect of `Init()` (R230). -/
def hostMove (m : HostMove) (s : State) : Host.Outcome State Fault Refusal :=
  match m with
  | .command w => present w s
  | .bindSource bytes => if bytes.length < Config.posLimit then .next (bindSource bytes s) else .refused .sourceTooLong
  | .reset => .next (init s)

/-- Take the host's next pending move; with none pending the core is idle and nothing changes (R230). -/
def portStep (s : State) : Host.Outcome State Fault Refusal :=
  match s.port with
  | [] => .next s
  | m :: rest => hostMove m { s with port := rest }

/-- The host presents `w` as its next command word. -/
def presentNext (w : Word) (s : State) : State := { s with port := .command w :: s.port }

end Sys2Proof.Machine
end

