-- ==== Sys2Proof/Machine/Step.lean ====
section
/-! DEFINITION. One step of the machine: one move of the host, a presented command word in the first place
(R70, R74). There is no program counter and no fetch from memory (R17, R62). -/

namespace Sys2Proof.Machine

/-- One step. -/
def step (s : State) : Host.Outcome State Fault Refusal := portStep s

/-- `s` with a command word presented next at the port, where the step takes its next instruction (R70). All
command words have 16 bits; `nbits` does not enter. -/
def State.withFetchWord (s : State) (_nbits w : Nat) : State := presentNext (BitVec.ofNat 16 w) s

end Sys2Proof.Machine
end

