-- ==== Sys2Proof/Safety.lean ====
section
/-! DEFINITION. The terms claims use: the bits a state has written and has left to read, the tree in an arena,
the invariants of rule R34, and what a safe step is. No definition of the machine uses this file. -/

namespace Sys2Proof.Machine

/-! ### The bit streams -/

/-- The first `n` bits of a byte, most significant first: what the writer holds (R29). -/
def topBits (v : Byte) (n : Nat) : List Bool := (byteBits v).take n

/-- The last `n` bits of a byte, most significant first: what the reader has not delivered (R30). -/
def lowBits (v : Byte) (n : Nat) : List Bool := (byteBits v).drop (8 - n)

/-- All bits written since the sink was last emptied: those in DST, then those pending in WBUF (R54, R61). -/
def State.bitsWritten (s : State) : List Bool := s.output.flatMap byteBits ++ topBits s.wbuf s.wcnt.toNat

/-- All bits the reader can still deliver: those left in RBUF, then the source from SPOS on (R54, R103). -/
def State.bitsLeft (s : State) : List Bool :=
  lowBits s.rbuf s.rcnt.toNat ++ (s.src.bytes.drop s.spos).flatMap byteBits

/-- `ReadBit` `n` times, the bits in the order read. -/
def readBits (n : Nat) (s : State) : Res (List Bool) :=
  match n with
  | 0 => .ok [] s
  | n + 1 => (readBit s).bind fun b s => (readBits n s).bind fun bs s => .ok (b :: bs) s

/-- `t` is `s` after the bit writer has taken `bits`: they follow the bits written before, in whole bytes at the
addresses from DPOS on and the rest in WBUF, padded with zeros; every other byte of DST and every other field is as it was
(R100, R101). -/
def State.wrote (s t : State) (bits : List Bool) : Prop :=
  t = { s with wbuf := t.wbuf, wcnt := t.wcnt, dst := t.dst, dpos := t.dpos } ∧
  t.dpos = s.dpos + (s.wcnt.toNat + bits.length) / 8 ∧
  t.wcnt.toNat = (s.wcnt.toNat + bits.length) % 8 ∧
  (∀ j, j + t.wcnt.toNat < 8 → t.wbuf.getLsbD j = false) ∧
  t.bitsWritten = s.bitsWritten ++ bits ∧
  ∀ a, a < s.dpos ∨ t.dpos ≤ a → t.dst.read a = s.dst.read a

/-- The bits of the header of a file of `n` bytes (R79). -/
def headerBits (n : Count) : List Bool := (headerBytes n).flatMap byteBits

/-! ### Frequencies -/

/-- The keys of the frequency table, in ascending order (R21, R125). -/
def State.keys (s : State) : List Byte := allSymbols.filter fun v => decide (s.freqAt v ≠ 0#32)

/-- The sum of FREQ over all symbols (R34 item 3). -/
def State.totalCount (s : State) : Nat := (allSymbols.map fun v => (s.freqAt v).toNat).sum

/-- No code of a symbol in `vs` is a prefix of another's (R152). -/
def PrefixFree (vs : List Byte) (code : Byte → List Bool) : Prop := ∀ v ∈ vs, ∀ w ∈ vs, code v <+: code w → v = w

/-- The sum over the table's symbols of count times code length (R142). -/
def State.codedBits (s : State) (code : Byte → List Bool) : Nat :=
  (s.keys.map fun v => (s.freqAt v).toNat * (code v).length).sum

/-! ### Trees -/

/-- A Huffman tree as a shape with leaf symbols (R8, R166). -/
inductive CodeTree where
  | leaf (sym : Byte)
  | fork (left right : CodeTree)
  deriving DecidableEq, Repr

/-- The serialized tree (R78). -/
def CodeTree.bits : CodeTree → List Bool
  | .leaf v => leafBits v
  | .fork l r => internalBits ++ l.bits ++ r.bits

/-- The number of nodes. -/
def CodeTree.size : CodeTree → Nat
  | .leaf _ => 1
  | .fork l r => 1 + l.size + r.size

/-- The leaf symbols, left to right. -/
def CodeTree.symbols : CodeTree → List Byte
  | .leaf v => [v]
  | .fork l r => l.symbols ++ r.symbols

/-- The leaves left to right, each with its path from the root, left = false, right = true (R151). -/
def CodeTree.paths : CodeTree → List (Byte × List Bool)
  | .leaf v => [(v, [])]
  | .fork l r => l.paths.map (fun c => (c.1, false :: c.2)) ++ r.paths.map (fun c => (c.1, true :: c.2))

/-- The code of a symbol: the path of its rightmost leaf, which is visited last (R151); none where no leaf has it. -/
def CodeTree.codeOf (t : CodeTree) (v : Byte) : Option (List Bool) := t.paths.reverse.lookup v

/-- The payload of a sequence of symbols: their codes one after the other (R79). -/
def CodeTree.payload (t : CodeTree) (vs : List Byte) : List Bool := vs.flatMap fun v => (t.codeOf v).getD []

/-- The arena entries `Deserialize()` makes for a tree whose root takes index `i`: pre-order, weight and minsym
0 (R162). -/
def CodeTree.layout (i : Nat) : CodeTree → List Node
  | .leaf v => [.leaf v 0#32 0#8]
  | .fork l r => .internal (i + 1) (i + 1 + l.size) 0#32 0#8 :: (l.layout (i + 1) ++ r.layout (i + 1 + l.size))

/-- A tree read in pre-order as far as a node whose marker has not been taken: what `DesNode()` has read when it fails
(R162). -/
inductive CutTree where
  /-- this node's marker is the one not taken -/
  | here
  /-- an internal node, cut in its left subtree -/
  | inLeft (left : CutTree)
  /-- an internal node with a whole left subtree, cut in its right one -/
  | inRight (left : CodeTree) (right : CutTree)
  deriving DecidableEq, Repr

/-- The bits read (R78). -/
def CutTree.bits : CutTree → List Bool
  | .here => []
  | .inLeft l => internalBits ++ l.bits
  | .inRight l r => internalBits ++ l.bits ++ r.bits

/-- The number of markers taken. -/
def CutTree.size : CutTree → Nat
  | .here => 0
  | .inLeft l => 1 + l.size
  | .inRight l r => 1 + l.size + r.size

/-- The arena entries made so far where the root takes index `i`: whole subtrees have their records, the internal nodes
still open have none (R162 point d). -/
def CutTree.layout (i : Nat) : CutTree → List (Option Node)
  | .here => []
  | .inLeft l => none :: l.layout (i + 1)
  | .inRight l r => none :: ((l.layout (i + 1)).map some ++ r.layout (i + 1 + l.size))

/-- `DesNode()` on the stream `bits`, with `ns` in the arena, fails with code `e`, and then `ns'` is in the arena and `left`
in the stream (R162, R204 item 3, R206): the stream ends where a marker is due, at most 511 nodes having been read; or
inside the symbol of a leaf that still found room; or one more marker is there, and read, with the arena full. -/
def DesFailure (ns : List (Option Node)) (bits : List Bool) (e : Byte) (ns' : List (Option Node)) (left : List Bool) : Prop :=
  ∃ c : CutTree,
    (e = 2#8 ∧ bits = c.bits ∧ ns.length + c.size ≤ 511 ∧ ns' = ns ++ c.layout ns.length ∧ left = []) ∨
    (e = 2#8 ∧ (∃ part, bits = c.bits ++ true :: part ∧ part.length < 8) ∧ ns.length + c.size < 511 ∧
      ns' = ns ++ c.layout ns.length ++ [none] ∧ left = []) ∨
    (e = 3#8 ∧ (∃ marker, bits = c.bits ++ marker :: left) ∧ ns.length + c.size = 511 ∧ ns' = ns ++ c.layout ns.length)

/-- The tree at node `i` of an arena; none when a link leads to no record or the walk does not end within `n`
nodes on a path. -/
def treeOf (ns : List (Option Node)) : Nat → Nat → Option CodeTree
  | 0, _ => none
  | n + 1, i =>
    match nodeAt ns i with
    | none => none
    | some (.leaf v _ _) => some (.leaf v)
    | some (.internal l r _ _) =>
      match treeOf ns n l, treeOf ns n r with
      | some a, some b => some (.fork a b)
      | _, _ => none

/-- The arena indices of the nodes reached from node `i`, in pre-order, under the same bound. -/
def reach (ns : List (Option Node)) : Nat → Nat → Option (List Nat)
  | 0, _ => none
  | n + 1, i =>
    match nodeAt ns i with
    | none => none
    | some (.leaf _ _ _) => some [i]
    | some (.internal l r _ _) =>
      match reach ns n l, reach ns n r with
      | some a, some b => some (i :: (a ++ b))
      | _, _ => none

/-- The arena indices of all nodes below the heap's entries, entry by entry. -/
def forest (ns : List (Option Node)) : List Nat → Option (List Nat)
  | [] => some []
  | i :: rest =>
    match reach ns ns.length i, forest ns rest with
    | some a, some b => some (a ++ b)
    | _, _ => none

/-- The current tree, where ROOTV = 1. -/
def State.tree (s : State) : Option CodeTree := if s.rootv then treeOf s.node s.node.length s.root else none

/-! ### Invariants (R34) -/

/-- The space holds exactly the addresses 0 to n - 1, in order (R58). -/
def Memory.covers (m : Memory) (n : Nat) : Prop := m.map Prod.fst = List.range n

/-- The invariants of R34 between two commands, except those that tell how a tree was made (items 3 and 4) and the
heap order of item 6, which is `State.HeapOrdered`. -/
structure State.Inv (s : State) : Prop where
  /-- item 8: ERR is 0 to 8 -/
  errCode : s.err.toNat ≤ 8
  /-- R32: DST holds the addresses 0 to DPOS - 1 -/
  sink : s.dst.covers s.dpos
  /-- R31: SRC holds the addresses 0 to SLEN - 1 -/
  source : s.src.covers s.slen
  /-- item 5 and R29: the positions of WBUF not yet written hold 0 -/
  writerPad : ∀ j, j + s.wcnt.toNat < 8 → s.wbuf.getLsbD j = false
  /-- R30: between commands RCNT is 0 to 7 -/
  readerCount : s.rcnt.toNat ≤ 7
  /-- item 1: a null root has ROOT = 0 -/
  nullRoot : s.rootv = false → s.root = 0
  /-- item 5: at most 511 arena entries are in use -/
  arenaCap : s.node.length ≤ Config.nodeCap
  /-- item 5: at most 256 heap entries are in use -/
  heapCap : s.heap.length ≤ Config.heapCap
  /-- R141: while nodes wait in the heap the arena has room for every merge to come -/
  arenaRoom : s.heap ≠ [] → s.node.length + s.heap.length ≤ 2 * Config.heapCap
  /-- item 2: a valid root reaches only written entries, each at most once -/
  rootTree : s.rootv = true → ∃ is, reach s.node s.node.length s.root = some is ∧ is.Nodup
  /-- item 6: the heap's entries are different and root disjoint trees of written entries -/
  heapForest : ∃ is, forest s.node s.heap = some is ∧ is.Nodup
  /-- item 7: no code is longer than 255 bits -/
  codeLens : ∀ v p, s.codeAt v = some p → p.length ≤ Config.maxCodeLen

/-- The heap order of R25: no entry is `Less` than its parent. -/
def State.HeapOrdered (s : State) : Prop :=
  ∀ k, 0 < k → k < s.heap.length → lessAt s.node s.heap k ((k - 1) / 2) = some false

/-- The leaf symbols below arena entry `i`, left to right. -/
def leavesBelow (ns : List (Option Node)) (i : Nat) : List Byte := (treeOf ns ns.length i).elim [] CodeTree.symbols

/-- What makes `Less` a strict total order on the heap (R140): the leaves below the heap carry distinct symbols, and the
`minsym` of a heap entry is one of its own leaves'. -/
def State.HeapDistinct (s : State) : Prop :=
  (s.heap.flatMap (leavesBelow s.node)).Nodup ∧
  ∀ i ∈ s.heap, ∃ n, nodeAt s.node i = some n ∧ n.minsym ∈ leavesBelow s.node i

/-! ### Runs -/

/-- Instructions executed one after the other. -/
def execAll : List Instr → State → Host.Outcome State Fault Refusal
  | [], s => .next s
  | i :: rest, s =>
    match exec i s with
    | .next t => execAll rest t
    | .fault x => .fault x
    | .refused r => .refused r

/-- The host keeps the "never" rows of R212 that a move could break: the pending move is no source of 2^64 bytes
or more. -/
def State.hostKeepsDuty (s : State) : Prop :=
  ∀ bytes rest, s.port = .bindSource bytes :: rest → bytes.length < Config.posLimit

/-- One step neither faults nor is refused. -/
def State.stepsSafely (s : State) : Prop := ∃ t, step s = .next t

end Sys2Proof.Machine
end

