-- ==== Sys2Proof/Certificates/Slice0/Obligations.lean ====
section
/-! DEFINITION. The statements for the provers, from the numbered rules of spec/. Each instruction that has a meaning has a
statement whose conclusion is its next state. A field that a statement's `t = { s with … }` does not name is as it was: that
is the frame. Statements about what a run has written or can read speak of `bitsWritten` and `bitsLeft` (Safety.lean). -/

open Sys2Proof Sys2Proof.Machine

/-! ### Encoding -/

/-- R71, R72: sample words of every family, written out from the opcode map, and words that are illegal for each reason. -/
def Obligations.DecodeSampleWords : Prop :=
  decode 0x0100#16 = .ok .clear ∧ decode 0x0300#16 = .ok .decompress ∧ decode 0x1001#16 = .ok (.wbit true) ∧
  decode 0x11A5#16 = .ok (.wbyte 0xA5#8) ∧ decode 0x2141#16 = .ok (.fcount 0x41#8) ∧ decode 0x3200#16 = .ok .build ∧
  decode 0x4000#16 = .ok .codegen ∧ decode 0x5100#16 = .ok .deserialize ∧ decode 0x62FF#16 = .ok (.encsym 0xFF#8) ∧
  decode 0x6400#16 = .ok .decsym ∧ decode 0x0000#16 = .error .unknownOpcode ∧ decode 0xFFFF#16 = .error .unknownOpcode ∧
  decode 0x0101#16 = .error .operandNotZero ∧ decode 0x1002#16 = .error .operandNotBit ∧
  decodeToken (true :: [false, true, false, false, false, false, false, true]) = some (.leaf 0x41#8, []) ∧
  decodeToken [false] = some (.internal, [])

/-- R72, R73: which words are legal, by their two fields. -/
def Obligations.LegalWordsByFields : Prop :=
  ∀ w : Word, (∃ i, decode w = .ok i) ↔
    (w.extractLsb' 8 8 ∈ [0x01#8, 0x02#8, 0x03#8, 0x12#8, 0x13#8, 0x14#8, 0x20#8, 0x22#8, 0x30#8, 0x31#8, 0x32#8, 0x40#8,
      0x50#8, 0x51#8, 0x60#8, 0x61#8, 0x63#8, 0x64#8, 0x65#8] ∧ w.extractLsb' 0 8 = 0#8) ∨
    (w.extractLsb' 8 8 = 0x10#8 ∧ w.extractLsb' 1 7 = 0#7) ∨
    w.extractLsb' 8 8 ∈ [0x11#8, 0x21#8, 0x62#8]

/-- R71 to R73: decoding and encoding invert each other, on every command with every operand and on every legal word. -/
def Obligations.DecodeEncodeAgree : Prop :=
  (∀ i : Instr, i.wellFormed = true → decode (encode i) = .ok i) ∧
  (∀ (w : Word) (i : Instr), decode w = .ok i → i.wellFormed = true ∧ encode i = w)

/-- R78: the serialized tree delimits itself, and has 10k - 1 bits for k leaves; its first token reads back. -/
def Obligations.TreeBitsDelimitThemselves : Prop :=
  (∀ (t u : CodeTree) (xs ys : List Bool), t.bits ++ xs = u.bits ++ ys → t = u ∧ xs = ys) ∧
  (∀ t : CodeTree, t.bits.length + 1 = 10 * t.symbols.length) ∧
  (∀ (v : Byte) (xs : List Bool), decodeToken ((CodeTree.leaf v).bits ++ xs) = some (.leaf v, xs)) ∧
  (∀ (l r : CodeTree) (xs : List Bool),
    decodeToken ((CodeTree.fork l r).bits ++ xs) = some (.internal, l.bits ++ (r.bits ++ xs)))

/-! ### The step -/

/-- R70, R74: a presented word that decodes to a command the core accepts is executed, and the host's queue moves on;
a word stored by `withFetchWord` is the next one presented. -/
def Obligations.StepRunsDecodedInstruction : Prop :=
  (∀ (s : State) (w : Word) (rest : List HostMove) (i : Instr), s.port = .command w :: rest → decode w = .ok i →
    s.err = 0#8 ∨ i.startsInvocation = true → step s = exec i { s with port := rest }) ∧
  (∀ (s : State) (n w : Nat) (i : Instr), decode (BitVec.ofNat 16 w) = .ok i →
    s.err = 0#8 ∨ i.startsInvocation = true → step (s.withFetchWord n w) = exec i s)

/-- R202: while an error is pending every word but three is refused, and the first error stays recorded. -/
def Obligations.PendingErrorRefuses : Prop :=
  (∀ (s : State) (w : Word) (rest : List HostMove), s.port = .command w :: rest → s.err ≠ 0#8 →
    (w ≠ 0x0100#16 → w ≠ 0x0200#16 → w ≠ 0x0300#16 → step s = .next { s with port := rest }) ∧
    (w = 0x0100#16 → step s = exec .clear { s with port := rest }) ∧
    (w = 0x0200#16 → step s = exec .compress { s with port := rest }) ∧
    (w = 0x0300#16 → step s = exec .decompress { s with port := rest })) ∧
  (∀ s t : State, s.err ≠ 0#8 → step s = .next t → (t.err = s.err ∧ t.errCmd = s.errCmd) ∨
    ∃ m rest, s.port = m :: rest ∧
      m ∈ [.command 0x0100#16, .command 0x0200#16, .command 0x0300#16, HostMove.reset])

/-- R75: an illegal word presented with no error pending raises E_ILLEGAL_CMD, records itself and changes nothing else;
while an error is pending it is refused. Which words are illegal is said by their fields. -/
def Obligations.IllegalWordRaises : Prop :=
  ∀ (s : State) (w : Word) (rest : List HostMove), s.port = .command w :: rest →
    ¬(w.extractLsb' 8 8 ∈ [0x01#8, 0x02#8, 0x03#8, 0x12#8, 0x13#8, 0x14#8, 0x20#8, 0x22#8, 0x30#8, 0x31#8, 0x32#8, 0x40#8,
        0x50#8, 0x51#8, 0x60#8, 0x61#8, 0x63#8, 0x64#8, 0x65#8] ∧ w.extractLsb' 0 8 = 0#8) →
    ¬(w.extractLsb' 8 8 = 0x10#8 ∧ w.extractLsb' 1 7 = 0#7) → ¬w.extractLsb' 8 8 ∈ [0x11#8, 0x21#8, 0x62#8] →
    (s.err = 0#8 → step s = .next { s with err := 1#8, errCmd := w, port := rest }) ∧
    (s.err ≠ 0#8 → step s = .next { s with port := rest })

/-- R244, R212 row H3: binding a source changes SRC and SLEN only, and the next byte comes from the new source at the old
SPOS; a source of 2^64 bytes or more is the host's breach and is refused by name. With no move pending the core is idle. -/
def Obligations.BindSourceOnly : Prop :=
  (∀ (s : State) (bytes : List Byte) (rest : List HostMove), s.port = .bindSource bytes :: rest →
    (bytes.length < 2 ^ 64 → ∃ t, step s = .next t ∧ t = { s with src := t.src, slen := bytes.length, port := rest } ∧
      (∀ a, t.src.read a = bytes[a]?) ∧
      (∀ v, bytes[s.spos]? = some v → srcNext t = .ok v { t with spos := s.spos + 1 }) ∧
      (bytes.length ≤ s.spos → srcNext t = .err .eos t)) ∧
    (2 ^ 64 ≤ bytes.length → step s = .refused .sourceTooLong)) ∧
  (∀ s : State, s.port = [] → step s = .next s)

/-- R35, R230: what reset leaves, from every state. -/
def Obligations.ResetValues : Prop :=
  (∀ (s : State) (rest : List HostMove), s.port = .reset :: rest → ∃ t, step s = .next t ∧
    t.err = 0#8 ∧ t.errCmd = 0#16 ∧ t.res = 0#8 ∧ t.len = 0#32 ∧ t.spos = 0 ∧ t.dpos = 0 ∧ t.dst = [] ∧
    (∀ v, t.freqAt v = 0#32) ∧ t.ncount = 0 ∧ t.root = 0 ∧ t.rootv = false ∧ t.hsize = 0 ∧ (∀ v, t.codev v = false) ∧
    t.wbuf = 0#8 ∧ t.wcnt = 0#3 ∧ t.rbuf = 0#8 ∧ t.rcnt = 0#4 ∧ t.src = s.src ∧ t.slen = s.slen ∧ t.port = rest) ∧
  init State.reset = State.reset

/-- R231: reset and CLEAR are one state transformer, which forgets everything but the host's own; COMPRESS and DECOMPRESS
start from it whatever ran before. -/
def Obligations.ResetEqualsClear : Prop :=
  (∀ (s : State) (rest : List HostMove), s.port = .reset :: rest → step s = exec .clear { s with port := rest }) ∧
  (∀ s : State, exec .clear s = .next (init s)) ∧
  (∀ s u : State, s.src = u.src → s.slen = u.slen → s.port = u.port →
    exec .clear s = exec .clear u ∧ exec .compress s = exec .compress u ∧ exec .decompress s = exec .decompress u)

/-- R15: STATUS bit by bit, and what it reads after reset with an empty and with a non-empty source. -/
def Obligations.StatusBits : Prop :=
  (∀ s : State, s.status.getLsbD 0 = decide (s.err ≠ 0#8) ∧ s.status.getLsbD 1 = s.rootv ∧
    s.status.getLsbD 2 = decide (s.wcnt ≠ 0#3) ∧ s.status.getLsbD 3 = decide (s.rcnt ≠ 0#4) ∧
    s.status.getLsbD 4 = decide (s.slen ≤ s.spos) ∧ ∀ j, 5 ≤ j → s.status.getLsbD j = false) ∧
  ∀ (s : State) (rest : List HostMove), s.port = .reset :: rest → ∃ t, step s = .next t ∧
    (s.slen = 0 → t.status = 0x0010#16) ∧ (s.slen ≠ 0 → t.status = 0x0000#16)

/-! ### Errors -/

/-- R12, R201: whatever error an instruction raises, ERRCMD holds the instruction's own word, also for COMPRESS and
DECOMPRESS, whose inner steps raise; an instruction that raises nothing leaves ERR and ERRCMD or starts an invocation. -/
def Obligations.ErrorRecordsCommand : Prop :=
  ∀ (i : Instr) (s t : State), s.err = 0#8 → exec i s = .next t →
    (t.err ≠ 0#8 → t.errCmd = encode i) ∧
    (t.err = 0#8 → t.errCmd = s.errCmd ∨ (i.startsInvocation = true ∧ t.errCmd = 0#16))

/-- R205: which presented word can raise what. R205 speaks of the commands; the last clause, that the tree tokens LEAF and
INTERNAL raise nothing, is the model's choice (notes/assumptions/1.md). -/
def Obligations.ErrorTable : Prop :=
  (∀ (w : Word) (rest : List HostMove) (e : DecodeError) (s t : State), s.port = .command w :: rest → decode w = .error e →
    s.err = 0#8 → step s = .next t → t.err = 1#8) ∧
  ∀ (i : Instr) (s t : State), s.Inv → s.err = 0#8 → exec i s = .next t →
    match i with
    | .clear | .wbit _ | .wbyte _ | .flush | .fclr | .seed | .codegen | .serialize | .wrhdr => t.err = 0#8
    | .rbit | .rbyte | .rdhdr => t.err ∈ [0#8, 2#8]
    | .fcount _ | .analyze | .compress => t.err ∈ [0#8, 4#8]
    | .merge => t.err ∈ [0#8, 5#8, 8#8]
    | .build => t.err ∈ [0#8, 5#8]
    | .deserialize | .decompress => t.err ∈ [0#8, 2#8, 3#8]
    | .encsym _ | .encode => t.err ∈ [0#8, 6#8]
    | .decsym | .decode => t.err ∈ [0#8, 2#8, 7#8]
    | .leaf _ | .internal => t.err = 0#8

/-- R207: COMPRESS and DECOMPRESS release the tables and the tree on every exit path. -/
def Obligations.ReleaseOnEveryExit : Prop :=
  ∀ (i : Instr) (s t : State), i = .compress ∨ i = .decompress → exec i s = .next t →
    (∀ v, t.freqAt v = 0#32) ∧ t.ncount = 0 ∧ t.root = 0 ∧ t.rootv = false ∧ t.hsize = 0 ∧ ∀ v, t.codev v = false

/-! ### Bit stream -/

/-- R170, R178: CLEAR. -/
def Obligations.ClearResetsTheCore : Prop :=
  ∀ s : State, exec .clear s = .next { s with
    err := 0#8, errCmd := 0#16, res := 0#8, len := 0#32, freq := Vector.replicate 256 0#32, node := [], root := 0,
    rootv := false, heap := [], code := Vector.replicate 256 none, wbuf := 0#8, wcnt := 0#3, rbuf := 0#8, rcnt := 0#4,
    spos := 0, dpos := 0, dst := [] }

/-- R100, R105: WBIT, whether or not it fills the byte. -/
def Obligations.WbitWritesOneBit : Prop :=
  ∀ (b : Bool) (s : State), ∃ v : Byte,
    (∀ j, j < 8 → v.getLsbD j = if j = 7 - s.wcnt.toNat then b else s.wbuf.getLsbD j) ∧
    (s.wcnt ≠ 7#3 → exec (.wbit b) s = .next { s with wbuf := v, wcnt := s.wcnt + 1#3 }) ∧
    (s.wcnt = 7#3 → ∃ t, exec (.wbit b) s = .next t ∧
      t = { s with wbuf := 0#8, wcnt := 0#3, dst := t.dst, dpos := s.dpos + 1 } ∧ t.dst.read s.dpos = some v ∧
      ∀ a, a ≠ s.dpos → t.dst.read a = s.dst.read a)

/-- R101, R106: WBYTE from every bit position: with c bits pending the byte emitted is `u[7 : 8-c] :: v[7 : c]` and WBUF is
then `v[c-1 : 0]` left-aligned. -/
def Obligations.WbyteWritesEightBits : Prop :=
  ∀ (v : Byte) (s : State), ∃ t e, exec (.wbyte v) s = .next t ∧
    t = { s with wbuf := t.wbuf, dst := t.dst, dpos := s.dpos + 1 } ∧ t.dst.read s.dpos = some e ∧
    (∀ j, j < 8 → e.getLsbD j =
      if 8 - s.wcnt.toNat ≤ j then s.wbuf.getLsbD j else v.getLsbD (j + s.wcnt.toNat)) ∧
    (∀ j, j < 8 → t.wbuf.getLsbD j =
      if 8 - s.wcnt.toNat ≤ j then v.getLsbD (j - (8 - s.wcnt.toNat)) else false) ∧
    ∀ a, a ≠ s.dpos → t.dst.read a = s.dst.read a

/-- R102, R107: FLUSH emits the partial byte if there is one, and nothing otherwise. -/
def Obligations.FlushPadsThePartialByte : Prop :=
  ∀ s : State, (s.wcnt = 0#3 → exec .flush s = .next s) ∧
    (s.wcnt ≠ 0#3 → ∃ t, exec .flush s = .next t ∧
      t = { s with wbuf := 0#8, wcnt := 0#3, dst := t.dst, dpos := s.dpos + 1 } ∧ t.dst.read s.dpos = some s.wbuf ∧
      ∀ a, a ≠ s.dpos → t.dst.read a = s.dst.read a)

/-- R103, R108: RBIT from the buffer, across a fetch, and at the end of the source. -/
def Obligations.RbitReadsOneBit : Prop :=
  ∀ s : State,
    (s.rcnt ≠ 0#4 → exec .rbit s = .next { s with
      rcnt := s.rcnt - 1#4, res := if s.rbuf.getLsbD (s.rcnt.toNat - 1) then 1#8 else 0#8 }) ∧
    (∀ v, s.rcnt = 0#4 → s.spos < s.slen → s.src.read s.spos = some v → exec .rbit s = .next { s with
      rbuf := v, rcnt := 7#4, spos := s.spos + 1, res := if v.getLsbD 7 then 1#8 else 0#8 }) ∧
    (s.rcnt = 0#4 → s.slen ≤ s.spos → exec .rbit s = .next { s with err := 2#8, errCmd := 0x1300#16 })

/-- R104, R109: RBYTE with c bits waiting joins them with the high bits of the next byte; at the end of the source the bits
waiting are consumed and RES stays. -/
def Obligations.RbyteReadsEightBits : Prop :=
  ∀ s : State, s.rcnt.toNat ≤ 7 →
    (∀ x, s.spos < s.slen → s.src.read s.spos = some x → ∃ v : Byte,
      (∀ j, j < 8 → v.getLsbD j =
        if 8 - s.rcnt.toNat ≤ j then s.rbuf.getLsbD (j - (8 - s.rcnt.toNat)) else x.getLsbD (j + s.rcnt.toNat)) ∧
      exec .rbyte s = .next { s with rbuf := x, spos := s.spos + 1, res := v }) ∧
    (s.slen ≤ s.spos → exec .rbyte s = .next { s with rcnt := 0#4, err := 2#8, errCmd := 0x1400#16 })

/-- R110: what is written bit by bit from an empty sink and flushed is read back bit by bit, then the padding zeros, then
E_EOS. -/
def Obligations.ReaderInvertsWriter : Prop :=
  ∀ (bs : List Bool) (s t r : State), s.Inv → s.wcnt = 0#3 → s.dpos = 0 →
    execAll (bs.map .wbit ++ [.flush]) s = .next t → r.src.bytes = t.output → r.src.covers r.slen → r.rcnt = 0#4 →
    r.spos = 0 →
    t.output.length = (bs.length + 7) / 8 ∧
    ∃ u, readBits (8 * t.output.length) r =
        .ok (bs ++ List.replicate (8 * t.output.length - bs.length) false) u ∧
      exec .rbit u = .next { u with err := 2#8, errCmd := 0x1300#16 }

/-- R78, R160: what the serializer does for each tree token. The port never presents a token: that these two rows of the
opcode table are executed by the serializer's step is the model's choice (notes/assumptions/1.md). -/
def Obligations.TokensAreWrittenAsTheirBits : Prop :=
  (∀ (v : Byte) (s : State), s.Inv → ∃ t, exec (.leaf v) s = .next t ∧
    s.wrote t [true, v.getLsbD 7, v.getLsbD 6, v.getLsbD 5, v.getLsbD 4, v.getLsbD 3, v.getLsbD 2, v.getLsbD 1,
      v.getLsbD 0]) ∧
  (∀ s : State, s.Inv → ∃ t, exec .internal s = .next t ∧ s.wrote t [false])

/-! ### Frequencies -/

/-- R120, R122: FCLR. -/
def Obligations.FclrEmptiesTheTable : Prop :=
  ∀ s : State, ∃ t, exec .fclr s = .next t ∧ t = { s with freq := t.freq, len := 0#32 } ∧ ∀ v, t.freqAt v = 0#32

/-- R121, R123: FCOUNT counts one symbol, or raises E_COUNT_OVERFLOW with nothing written. -/
def Obligations.FcountCountsOneSymbol : Prop :=
  ∀ (v : Byte) (s : State),
    (s.len = 0xFFFFFFFF#32 ∨ s.freqAt v = 0xFFFFFFFF#32 →
      exec (.fcount v) s = .next { s with err := 4#8, errCmd := 0x21#8 ++ v }) ∧
    (s.len ≠ 0xFFFFFFFF#32 → s.freqAt v ≠ 0xFFFFFFFF#32 → ∃ t, exec (.fcount v) s = .next t ∧
      t = { s with freq := t.freq, len := s.len + 1#32 } ∧ t.freqAt v = s.freqAt v + 1#32 ∧
      ∀ w, w ≠ v → t.freqAt w = s.freqAt w)

/-- R124: ANALYZE counts the whole source from its start and rewinds; the 2^32-th byte raises E_COUNT_OVERFLOW with the
counts of the bytes before it and the failing byte fetched. -/
def Obligations.AnalyzeCountsTheSource : Prop :=
  ∀ s : State, s.src.covers s.slen → ∃ t, exec .analyze s = .next t ∧
    (s.slen < 2 ^ 32 → t = { s with freq := t.freq, len := BitVec.ofNat 32 s.slen, spos := 0 } ∧
      ∀ v, (t.freqAt v).toNat = s.src.bytes.count v) ∧
    (2 ^ 32 ≤ s.slen → t = { s with freq := t.freq, len := 0xFFFFFFFF#32, spos := 2 ^ 32, err := 4#8, errCmd := 0x2200#16 } ∧
      ∀ v, (t.freqAt v).toNat = (s.src.bytes.take (2 ^ 32 - 1)).count v)

/-- R125: the table is a function of the multiset of source bytes, its keys are the bytes that occur, and SEED makes one
leaf for each. -/
def Obligations.TableIsOfTheMultiset : Prop :=
  ∀ s u t t' : State, s.src.covers s.slen → u.src.covers u.slen → s.slen < 2 ^ 32 → s.src.bytes.Perm u.src.bytes →
    exec .analyze s = .next t → exec .analyze u = .next t' →
    t.freq = t'.freq ∧ (∀ v, t.freqAt v ≠ 0#32 ↔ v ∈ s.src.bytes) ∧ t.keys.length ≤ 256 ∧
    ∃ x, exec .seed t = .next x ∧ x.ncount = t.keys.length

/-! ### The tree builder -/

/-- R134, R137: SEED, in every state: one leaf for each key in ascending order, all of them in the heap, which is in heap
order; a single leaf is at once the root. -/
def Obligations.SeedMakesTheLeaves : Prop :=
  ∀ s : State, ∃ t, exec .seed s = .next t ∧
    t = { s with node := t.node, root := 0, rootv := decide (s.keys.length = 1), heap := t.heap } ∧
    t.node = s.keys.map (fun v => some (.leaf v (s.freqAt v) v)) ∧ t.heap.Perm (List.range s.keys.length) ∧
    t.HeapOrdered

/-- R135, R138: MERGE with fewer than two nodes in the heap raises E_HEAP_UNDERFLOW; else it takes the two nodes of least keys out of the heap; their parent joins the arena and the heap, or, when
the weights do not fit 32 bits, E_WEIGHT_OVERFLOW leaves both out. -/
def Obligations.MergeJoinsTheTwoLeast : Prop :=
  (∀ s : State, s.hsize < 2 → exec .merge s = .next { s with err := 8#8, errCmd := 0x3100#16 }) ∧
  ∀ s : State, s.Inv → s.HeapOrdered → 2 ≤ s.hsize →
    ∃ a b rest x y t, s.heap.Perm (a :: b :: rest) ∧ nodeAt s.node a = some x ∧ nodeAt s.node b = some y ∧
      (∀ i ∈ s.heap, less s.node i a = some false) ∧ (∀ i ∈ b :: rest, less s.node i b = some false) ∧
      exec .merge s = .next t ∧
      (2 ^ 32 ≤ x.weight.toNat + y.weight.toNat →
        t = { s with heap := t.heap, err := 5#8, errCmd := 0x3100#16 } ∧ t.heap.Perm rest) ∧
      (x.weight.toNat + y.weight.toNat < 2 ^ 32 →
        t = { s with node := t.node, heap := t.heap, root := t.root, rootv := decide (s.hsize = 2) } ∧
        t.node = s.node ++ [some (.internal a b (x.weight + y.weight) (if x.minsym ≤ y.minsym then x.minsym else y.minsym))] ∧
        t.root = (if s.hsize = 2 then s.ncount else 0) ∧ t.heap.Perm (s.ncount :: rest)) ∧
      t.HeapOrdered

/-- R136, R139: BUILD when the counts sum to less than 2^32: no tree for no symbol; else 2k - 1 nodes, the seeds first, the
last node the root and alone in the heap, its weight the sum of the counts, its leaves the keys. -/
def Obligations.BuildMakesTheTree : Prop :=
  ∀ s : State, s.totalCount < 2 ^ 32 → ∃ t, exec .build s = .next t ∧
    t = { s with node := t.node, root := t.root, rootv := t.rootv, heap := t.heap } ∧
    (s.keys = [] → t.node = [] ∧ t.heap = [] ∧ t.root = 0 ∧ t.rootv = false) ∧
    (s.keys ≠ [] → t.ncount + 1 = 2 * s.keys.length ∧ t.root + 1 = t.ncount ∧ t.rootv = true ∧ t.heap = [t.root] ∧
      t.node.take s.keys.length = s.keys.map (fun v => some (.leaf v (s.freqAt v) v)) ∧
      ∃ T x, t.tree = some T ∧ T.symbols.Perm s.keys ∧ nodeAt t.node t.root = some x ∧
        x.weight.toNat = s.totalCount)

/-- R136, R139, R206: BUILD when the counts sum to 2^32 or more raises E_WEIGHT_OVERFLOW in one of its merges. `u` is the
state after SEED and the `m` merges before it, which stay: one more node in the arena and one less in the heap for each. The
failing merge takes the two nodes of least keys out of the heap and allocates none, as MERGE does in `u`. -/
def Obligations.BuildOverflows : Prop :=
  ∀ s : State, 2 ^ 32 ≤ s.totalCount → ∃ (m : Nat) (u t : State) (a b : Nat) (rest : List Nat) (x y : Node),
    execAll (.seed :: List.replicate m .merge) s = .next u ∧
    u = { s with node := u.node, root := 0, rootv := false, heap := u.heap } ∧
    u.ncount = s.keys.length + m ∧ u.hsize + m = s.keys.length ∧
    u.node.take s.keys.length = s.keys.map (fun v => some (.leaf v (s.freqAt v) v)) ∧
    u.heap.Perm (a :: b :: rest) ∧ nodeAt u.node a = some x ∧ nodeAt u.node b = some y ∧
    (∀ i ∈ u.heap, less u.node i a = some false) ∧ (∀ i ∈ b :: rest, less u.node i b = some false) ∧
    2 ^ 32 ≤ x.weight.toNat + y.weight.toNat ∧
    exec .build s = .next t ∧ t = { u with heap := t.heap, err := 5#8, errCmd := 0x3200#16 } ∧ t.heap.Perm rest ∧
    t.HeapOrdered ∧ exec .merge u = .next { t with errCmd := 0x3100#16 }

/-- R138: SEED followed by k - 1 MERGE commands gives exactly the state BUILD gives. -/
def Obligations.BuildIsSeedThenMerges : Prop :=
  ∀ s : State, s.totalCount < 2 ^ 32 → s.keys ≠ [] →
    ∃ t, exec .build s = .next t ∧ execAll (.seed :: List.replicate (s.keys.length - 1) .merge) s = .next t

/-- R140: the tree built is a function of the frequency table alone. -/
def Obligations.BuildIsAFunctionOfFreq : Prop :=
  ∀ s u t t' : State, s.freq = u.freq → exec .build s = .next t → exec .build u = .next t' →
    t.node = t'.node ∧ t.root = t'.root ∧ t.rootv = t'.rootv ∧ t.heap = t'.heap

/-- R142: the codes of the tree BUILD makes are prefix-free, and no prefix code for the same table needs fewer bits. -/
def Obligations.BuiltTreeIsOptimal : Prop :=
  ∀ s : State, s.totalCount < 2 ^ 32 → s.keys ≠ [] → ∃ t T, exec .build s = .next t ∧ t.tree = some T ∧
    PrefixFree s.keys (fun v => (T.codeOf v).getD []) ∧
    ∀ code, PrefixFree s.keys code → s.codedBits (fun v => (T.codeOf v).getD []) ≤ s.codedBits code

/-- R140: of two different nodes in the heap exactly one is `Less` than the other. -/
def Obligations.LessIsStrictOnTheHeap : Prop :=
  ∀ s : State, s.HeapDistinct → ∀ i ∈ s.heap, ∀ j ∈ s.heap, i ≠ j →
    ∃ b, less s.node i j = some b ∧ less s.node j i = some !b

/-- R141, R33: a tree in the arena has k leaves, k - 1 internal nodes, and fewer than 256 edges on a path. -/
def Obligations.TreeShapeBounds : Prop :=
  ∀ (s : State) (T : CodeTree), s.Inv → s.tree = some T →
    T.size + 1 = 2 * T.symbols.length ∧ T.size ≤ s.ncount ∧ T.symbols.length ≤ 256 ∧
    ∀ v p, (v, p) ∈ T.paths → p.length < T.symbols.length

/-! ### The code table -/

/-- R150, R151, R153: CODEGEN without a tree and with one: each symbol gets the path of its rightmost leaf, every other
symbol none. -/
def Obligations.CodegenRecordsThePaths : Prop :=
  ∀ s : State, (s.rootv = false → exec .codegen s = .next { s with code := Vector.replicate 256 none }) ∧
    ∀ T, s.tree = some T → ∃ t, exec .codegen s = .next t ∧ t = { s with code := t.code } ∧
      ∀ v, t.codeAt v = T.codeOf v

/-- R152: after CODEGEN on a tree with distinct leaf symbols no code is a prefix of another's, none is longer than 255 bits,
none is empty unless the tree is one leaf, the leaf symbols are the ones with a code, and CODEGEN again changes nothing. -/
def Obligations.CodesArePrefixFree : Prop :=
  ∀ (s t : State) (T : CodeTree), s.Inv → s.tree = some T → T.symbols.Nodup → exec .codegen s = .next t →
    (∀ v w p q, t.codeAt v = some p → t.codeAt w = some q → p <+: q → v = w) ∧
    (∀ v p, t.codeAt v = some p → (v, p) ∈ T.paths ∧ p.length ≤ 255 ∧ (2 ≤ T.symbols.length → p ≠ [])) ∧
    (∀ v, t.codev v = true ↔ v ∈ T.symbols) ∧ exec .codegen t = .next t

/-! ### The tree wire format -/

/-- R160, R161, R164: SERIALIZE writes nothing without a tree and the tree's tokens with one. -/
def Obligations.SerializeWritesTheTree : Prop :=
  ∀ s : State, (s.rootv = false → exec .serialize s = .next s) ∧
    ∀ T, s.Inv → s.tree = some T → ∃ t, exec .serialize s = .next t ∧ s.wrote t T.bits

/-- R162, R163, R165: DESERIALIZE of a tree of at most 511 nodes in the stream: the arena holds its nodes in pre-order, the
bits after it are left. -/
def Obligations.DeserializeReadsTheTree : Prop :=
  ∀ (s : State) (T : CodeTree) (rest : List Bool), s.Inv → s.bitsLeft = T.bits ++ rest → T.size ≤ 511 →
    ∃ t, exec .deserialize s = .next t ∧
      t = { s with node := (T.layout 0).map some, root := 0, rootv := true, heap := [],
                   rbuf := t.rbuf, rcnt := t.rcnt, spos := t.spos } ∧
      t.bitsLeft = rest ∧ t.rcnt.toNat ≤ 7 ∧ t.tree = some T

/-- R162, R163, R204 item 3, R206: DESERIALIZE where the stream does not begin with a tree of at most 511 nodes: where the
tree is cut decides between E_EOS and E_TREE_OVERFLOW and what is in the arena (`DesFailure`), NCOUNT being the markers read,
so 511 zero bits give E_EOS and 512 E_TREE_OVERFLOW; no tree is left, the heap is empty, and the reader stands where it
failed: at the end of the source for E_EOS, behind the 512th marker for E_TREE_OVERFLOW. -/
def Obligations.DeserializeRaises : Prop :=
  ∀ s : State, s.Inv → (∀ (T : CodeTree) (rest : List Bool), s.bitsLeft = T.bits ++ rest → 511 < T.size) →
    ∃ t, exec .deserialize s = .next t ∧
      t = { s with node := t.node, root := 0, rootv := false, heap := [], rbuf := t.rbuf, rcnt := t.rcnt, spos := t.spos,
                   err := t.err, errCmd := 0x5100#16 } ∧
      DesFailure [] s.bitsLeft t.err t.node t.bitsLeft ∧ t.rcnt.toNat ≤ 7 ∧
      ((t.spos = s.spos ∧ t.rbuf = s.rbuf) ∨ (s.spos < t.spos ∧ s.src.read (t.spos - 1) = some t.rbuf)) ∧
      (t.err = 2#8 → t.slen ≤ t.spos ∧ t.rcnt = 0#4 ∧ t.ncount ≤ 511) ∧ (t.err = 3#8 → t.ncount = 511) ∧
      ((∃ (T : CodeTree) (rest : List Bool), s.bitsLeft = T.bits ++ rest) → t.err = 3#8)

/-- R166: a tree serialized and read back is the same tree, numbered in pre-order with weights and minsym 0, and CODEGEN
gives the same table for both. -/
def Obligations.SerializedTreeReadsBack : Prop :=
  ∀ (s u t : State) (T : CodeTree) (rest : List Bool), s.Inv → s.tree = some T → exec .serialize s = .next t → u.Inv →
    s.bitsWritten ++ u.bitsLeft = t.bitsWritten ++ rest →
    ∃ x, exec .deserialize u = .next x ∧ x.err = u.err ∧ x.tree = some T ∧ x.bitsLeft = rest ∧
      (∀ n, some n ∈ x.node → n.weight = 0#32 ∧ n.minsym = 0#8) ∧
      ∃ a b, exec .codegen s = .next a ∧ exec .codegen x = .next b ∧ a.code = b.code

/-! ### The pipeline -/

/-- R172, R179: WRHDR writes the four bytes of LEN, least significant first, from any bit position. -/
def Obligations.WrhdrWritesLen : Prop :=
  ∀ s : State, s.Inv → ∃ t, exec .wrhdr s = .next t ∧
    s.wrote t (byteBits (s.len.extractLsb' 0 8) ++ byteBits (s.len.extractLsb' 8 8) ++
      byteBits (s.len.extractLsb' 16 8) ++ byteBits (s.len.extractLsb' 24 8))

/-- R173, R180: RDHDR loads LEN from 32 bits, or raises E_EOS with LEN kept and the bits that were there consumed. -/
def Obligations.RdhdrReadsLen : Prop :=
  ∀ s : State, s.Inv →
    (∀ b0 b1 b2 b3 rest, s.bitsLeft = byteBits b0 ++ byteBits b1 ++ byteBits b2 ++ byteBits b3 ++ rest →
      ∃ t, exec .rdhdr s = .next t ∧
        t = { s with len := b3 ++ b2 ++ b1 ++ b0, rbuf := t.rbuf, rcnt := t.rcnt, spos := t.spos } ∧
        t.bitsLeft = rest ∧ t.rcnt.toNat ≤ 7) ∧
    (s.bitsLeft.length < 32 → ∃ t, exec .rdhdr s = .next t ∧
      t = { s with rbuf := t.rbuf, rcnt := 0#4, spos := t.spos, err := 2#8, errCmd := 0x6100#16 } ∧
      t.bitsLeft = [] ∧ t.slen ≤ t.spos)

/-- R174, R181: ENCSYM writes the symbol's code, or raises E_NOCODE with nothing written. -/
def Obligations.EncsymWritesTheCode : Prop :=
  ∀ (v : Byte) (s : State),
    (s.codeAt v = none → exec (.encsym v) s = .next { s with err := 6#8, errCmd := 0x62#8 ++ v }) ∧
    (∀ p, s.Inv → s.codeAt v = some p → ∃ t, exec (.encsym v) s = .next t ∧ s.wrote t p)

/-- R175, R182: ENCODE writes the codes of the source bytes from SPOS on; at the first byte without a code it raises
E_NOCODE with that byte fetched and the codes before it written. RBUF and RCNT play no part. -/
def Obligations.EncodeWritesTheCodes : Prop :=
  ∀ s : State, s.Inv →
    ((∀ v ∈ s.src.bytes.drop s.spos, (s.codeAt v).isSome = true) → ∃ t, exec .encode s = .next t ∧
      t.spos = max s.spos s.slen ∧
      State.wrote { s with spos := t.spos } t ((s.src.bytes.drop s.spos).flatMap fun v => (s.codeAt v).getD [])) ∧
    (∀ pre v post, s.src.bytes.drop s.spos = pre ++ v :: post → (∀ x ∈ pre, (s.codeAt x).isSome = true) →
      s.codeAt v = none → ∃ t, exec .encode s = .next t ∧
        State.wrote { s with spos := s.spos + pre.length + 1, err := 6#8, errCmd := 0x6300#16 } t
          (pre.flatMap fun x => (s.codeAt x).getD []))

/-- R176, R183: DECSYM without a tree, along a leaf's path, and when the stream ends inside every path. -/
def Obligations.DecsymEmitsASymbol : Prop :=
  ∀ s : State, (s.rootv = false → exec .decsym s = .next { s with err := 7#8, errCmd := 0x6400#16 }) ∧
    ∀ T, s.Inv → s.tree = some T →
      (∀ v p rest, (v, p) ∈ T.paths → s.bitsLeft = p ++ rest → ∃ t, exec .decsym s = .next t ∧
        t = { s with rbuf := t.rbuf, rcnt := t.rcnt, spos := t.spos, dst := t.dst, dpos := s.dpos + 1 } ∧
        t.bitsLeft = rest ∧ t.rcnt.toNat ≤ 7 ∧ t.dst.read s.dpos = some v ∧
        ∀ a, a ≠ s.dpos → t.dst.read a = s.dst.read a) ∧
      ((∀ v p, (v, p) ∈ T.paths → ¬p <+: s.bitsLeft) → ∃ t, exec .decsym s = .next t ∧
        t = { s with rbuf := t.rbuf, rcnt := 0#4, spos := t.spos, err := 2#8, errCmd := 0x6400#16 } ∧
        t.bitsLeft = [] ∧ t.slen ≤ t.spos)

/-- R177, R184: DECODE with LEN = 0; without a tree; on a payload of LEN codewords; on a payload that ends early. -/
def Obligations.DecodeEmitsLenSymbols : Prop :=
  ∀ s : State, (s.len = 0#32 → exec .decode s = .next s) ∧
    (s.len ≠ 0#32 → s.rootv = false → exec .decode s = .next { s with err := 7#8, errCmd := 0x6500#16 }) ∧
    ∀ (T : CodeTree) (cs : List (Byte × List Bool)) (rest : List Bool), s.Inv → s.tree = some T → (∀ c ∈ cs, c ∈ T.paths) →
      s.bitsLeft = cs.flatMap Prod.snd ++ rest →
      (cs.length = s.len.toNat → ∃ t, exec .decode s = .next t ∧
        t = { s with rbuf := t.rbuf, rcnt := t.rcnt, spos := t.spos, dst := t.dst, dpos := s.dpos + cs.length } ∧
        t.output = s.output ++ cs.map Prod.fst ∧ t.bitsLeft = rest ∧ t.rcnt.toNat ≤ 7) ∧
      (cs.length < s.len.toNat → (∀ c ∈ T.paths, ¬c.2 <+: rest) → ∃ t, exec .decode s = .next t ∧
        t = { s with rbuf := t.rbuf, rcnt := 0#4, spos := t.spos, dst := t.dst, dpos := s.dpos + cs.length,
                     err := 2#8, errCmd := 0x6500#16 } ∧
        t.output = s.output ++ cs.map Prod.fst ∧ t.bitsLeft = [] ∧ t.slen ≤ t.spos)

/-- R185, R79, R188: COMPRESS of a source of less than 2^32 bytes: the registers it leaves, and DST the compressed file:
header, tree, payload, zero padding, the tree being the one BUILD makes of the source's counts. -/
def Obligations.CompressMakesTheFile : Prop :=
  ∀ s : State, s.src.covers s.slen → s.slen < 2 ^ 32 → ∃ t, exec .compress s = .next t ∧
    t = { init s with len := BitVec.ofNat 32 s.slen, spos := s.slen, dst := t.dst, dpos := t.dpos } ∧
    t.dst.covers t.dpos ∧
    (s.slen = 0 → t.output = [0#8, 0#8, 0#8, 0#8]) ∧
    (s.slen ≠ 0 → ∃ a b T pad, exec .analyze (init s) = .next a ∧ exec .build a = .next b ∧ b.tree = some T ∧
      T.symbols.Nodup ∧ (∀ v, v ∈ T.symbols ↔ v ∈ s.src.bytes) ∧ pad < 8 ∧
      t.output.flatMap byteBits = headerBits (BitVec.ofNat 32 s.slen) ++ T.bits ++ T.payload s.src.bytes ++
        List.replicate pad false ∧
      t.dpos = 4 + (T.bits.length + (T.payload s.src.bytes).length + 7) / 8)

/-- R185, R206: COMPRESS of a longer source fails in its first step, before anything is written. -/
def Obligations.CompressOverflows : Prop :=
  ∀ s : State, s.src.covers s.slen → 2 ^ 32 ≤ s.slen → exec .compress s = .next
    { init s with err := 4#8, errCmd := 0x0200#16, len := 0xFFFFFFFF#32, spos := 2 ^ 32 }

/-- R186: DECOMPRESS of a file: the N symbols are in DST, the bits after the payload are left; N = 0 reads four bytes and
emits nothing. -/
def Obligations.DecompressRestoresTheBytes : Prop :=
  ∀ s : State, s.src.covers s.slen →
    (∀ (N : Count) (T : CodeTree) (cs : List (Byte × List Bool)) (rest : List Bool), N ≠ 0#32 →
      s.src.bytes.flatMap byteBits = headerBits N ++ T.bits ++ cs.flatMap Prod.snd ++ rest →
      T.size ≤ 511 → (∀ c ∈ cs, c ∈ T.paths) → cs.length = N.toNat → ∃ t, exec .decompress s = .next t ∧
      t = { init s with len := N, rbuf := t.rbuf, rcnt := t.rcnt, spos := t.spos, dst := t.dst, dpos := N.toNat } ∧
      t.output = cs.map Prod.fst ∧ t.bitsLeft = rest ∧ t.rcnt.toNat ≤ 7 ∧ s.src.read (t.spos - 1) = some t.rbuf) ∧
    (∀ rest, s.src.bytes.flatMap byteBits = headerBits 0#32 ++ rest → ∃ x, s.src.read 3 = some x ∧
      exec .decompress s = .next { init s with rbuf := x, spos := 4 })

/-- R186, R206, R207: DECOMPRESS of a malformed file: a short header; no tree of at most 511 nodes after the header, where
it ends as DESERIALIZE after RDHDR does, with its own word recorded and the tree released; a payload that ends early. RBUF is
the last byte fetched. -/
def Obligations.DecompressRaises : Prop :=
  ∀ s : State, s.src.covers s.slen →
    (s.slen < 4 → ∃ t, exec .decompress s = .next t ∧
      t = { init s with rbuf := t.rbuf, spos := s.slen, err := 2#8, errCmd := 0x0300#16 } ∧
      t.rbuf = (s.src.read (s.slen - 1)).getD 0#8) ∧
    (∀ N rest, N ≠ 0#32 → s.src.bytes.flatMap byteBits = headerBits N ++ rest →
      (∀ (T : CodeTree) (more : List Bool), rest = T.bits ++ more → 511 < T.size) → ∃ d u t,
      exec .rdhdr (init s) = .next d ∧ exec .deserialize d = .next u ∧ exec .decompress s = .next t ∧
      t = release { u with errCmd := 0x0300#16 } ∧
      t = { init s with len := N, rbuf := t.rbuf, rcnt := t.rcnt, spos := t.spos, err := t.err, errCmd := 0x0300#16 } ∧
      DesFailure [] rest t.err u.node t.bitsLeft ∧ (t.err = 2#8 → t.spos = s.slen ∧ t.rcnt = 0#4) ∧
      t.rcnt.toNat ≤ 7 ∧ t.spos ≤ s.slen ∧ s.src.read (t.spos - 1) = some t.rbuf) ∧
    (∀ (N : Count) (T : CodeTree) (cs : List (Byte × List Bool)) (rest : List Bool),
      s.src.bytes.flatMap byteBits = headerBits N ++ T.bits ++ cs.flatMap Prod.snd ++ rest →
      T.size ≤ 511 → (∀ c ∈ cs, c ∈ T.paths) → cs.length < N.toNat → (∀ c ∈ T.paths, ¬c.2 <+: rest) →
      ∃ t, exec .decompress s = .next t ∧
      t = { init s with len := N, rbuf := t.rbuf, rcnt := 0#4, spos := s.slen, dst := t.dst, dpos := cs.length,
                        err := 2#8, errCmd := 0x0300#16 } ∧
      t.output = cs.map Prod.fst ∧ s.src.read (s.slen - 1) = some t.rbuf)

/-- R187: COMPRESS and DECOMPRESS do what their steps do one at a time, and release. -/
def Obligations.CompositesAreTheirSteps : Prop :=
  (∀ s t : State,
    execAll [.clear, .analyze, .build, .codegen, .wrhdr, .serialize, .encode, .flush] s = .next t → t.err = 0#8 →
    exec .compress s = .next (release t)) ∧
  (∀ s t : State, execAll [.clear, .rdhdr, .deserialize, .decode] s = .next t → t.err = 0#8 → t.len ≠ 0#32 →
    exec .decompress s = .next (release t))

/-- R187: decompress(compress(S)) = S for every S shorter than 2^32 bytes, whatever the core did before. -/
def Obligations.RoundTrip : Prop :=
  ∀ (bytes : List Byte) (s : State), bytes.length < 2 ^ 32 → ∃ t u, exec .compress (bindSource bytes s) = .next t ∧
    exec .decompress (bindSource t.output t) = .next u ∧
    t.err = 0#8 ∧ u.err = 0#8 ∧ u.output = bytes ∧ u.len.toNat = bytes.length

/-! ### Frames over all instructions -/

/-- R13, R14, R31, R16: RES and LEN have the writers their rules name and no other, and no instruction writes SRC, SLEN or
the host's queue. -/
def Obligations.RegisterWriters : Prop :=
  ∀ (i : Instr) (s t : State), exec i s = .next t →
    (i ∉ [.rbit, .rbyte, .clear, .compress, .decompress] → t.res = s.res) ∧
    (i ∉ [.fclr, .analyze, .rdhdr, .clear, .compress, .decompress] → (∀ v, i ≠ .fcount v) → t.len = s.len) ∧
    t.src = s.src ∧ t.slen = s.slen ∧ t.port = s.port

/-- R21, R22 to R26, R28: FREQ, the tree with its heap, and the code table have the writers their rules name and no other. -/
def Obligations.TableWriters : Prop :=
  ∀ (i : Instr) (s t : State), exec i s = .next t →
    (i ∉ [.fclr, .analyze, .clear, .compress, .decompress] → (∀ v, i ≠ .fcount v) → t.freq = s.freq) ∧
    (i ∉ [.seed, .merge, .build, .deserialize, .clear, .compress, .decompress] →
      t.node = s.node ∧ t.root = s.root ∧ t.rootv = s.rootv ∧ t.heap = s.heap) ∧
    (i ∉ [.codegen, .clear, .compress, .decompress] → t.code = s.code)

/-- R18, R29, R30, R32, R243: the writer's and the reader's buffers, SPOS and the sink have the writers their rules name and
no other, a byte once in DST is never changed but by a new invocation, and RBUF holds the last byte the bit reader fetched. -/
def Obligations.StreamWriters : Prop :=
  ∀ (i : Instr) (s t : State), exec i s = .next t → i.startsInvocation = false →
    (i ∉ [.flush, .serialize, .wrhdr, .encode, .internal] → (∀ v, i ≠ .wbyte v ∧ i ≠ .encsym v ∧ i ≠ .leaf v) →
      (∀ b, i ≠ .wbit b) → t.wbuf = s.wbuf ∧ t.wcnt = s.wcnt) ∧
    (i ∉ [.rbit, .rbyte, .rdhdr, .deserialize, .decsym, .decode] → t.rbuf = s.rbuf ∧ t.rcnt = s.rcnt) ∧
    (i ∉ [.rbit, .rbyte, .rdhdr, .deserialize, .decsym, .decode, .analyze, .encode] → t.spos = s.spos) ∧
    (i ∈ [.rbit, .rbyte, .fclr, .analyze, .seed, .merge, .build, .codegen, .deserialize, .rdhdr] ∨ (∃ v, i = .fcount v) →
      t.dst = s.dst ∧ t.dpos = s.dpos) ∧
    (∀ a, a < s.dpos ∨ t.dpos ≤ a → t.dst.read a = s.dst.read a) ∧ s.dpos ≤ t.dpos ∧
    (i ≠ .analyze → i ≠ .encode →
      (t.spos = s.spos ∧ t.rbuf = s.rbuf) ∨ (s.spos < t.spos ∧ s.src.read (t.spos - 1) = some t.rbuf))

/-! ### Invariants -/

/-- The invariants of R34 hold right after reset. -/
def Obligations.InvariantAtReset : Prop :=
  State.reset.Inv ∧ State.reset.HeapOrdered ∧ State.reset.HeapDistinct

/-- R34: every step keeps the invariants. -/
def Obligations.InvariantKept : Prop :=
  ∀ s t : State, s.Inv → step s = .next t → t.Inv

/-- R25, R34 item 6, R140: every step keeps the heap order, and the heap's leaves distinct. -/
def Obligations.HeapOrderKept : Prop :=
  ∀ s t : State, s.Inv → step s = .next t → (s.HeapOrdered → t.HeapOrdered) ∧ (s.HeapDistinct → t.HeapDistinct)

/-- R70, R212 row H1: in every state that meets the invariants, whatever the host presents, the step completes. -/
def Obligations.EveryStepCompletes : Prop :=
  ∀ s : State, s.Inv → s.hostKeepsDuty → s.stepsSafely
end

