-- ==== Sys2Proof/Laws/State.lean ====
section
/-! SUPPORT. One lemma per field for each named state update: what the field holds afterwards. -/

namespace Sys2Proof.Laws

open Sys2Proof.Machine

/-! ### `sinkPut` -/

@[simp] theorem sinkPut_err (v : Byte) (s : State) : (sinkPut v s).err = s.err := rfl
@[simp] theorem sinkPut_errCmd (v : Byte) (s : State) : (sinkPut v s).errCmd = s.errCmd := rfl
@[simp] theorem sinkPut_res (v : Byte) (s : State) : (sinkPut v s).res = s.res := rfl
@[simp] theorem sinkPut_len (v : Byte) (s : State) : (sinkPut v s).len = s.len := rfl
@[simp] theorem sinkPut_spos (v : Byte) (s : State) : (sinkPut v s).spos = s.spos := rfl
@[simp] theorem sinkPut_dpos (v : Byte) (s : State) : (sinkPut v s).dpos = s.dpos + 1 := rfl
@[simp] theorem sinkPut_freq (v : Byte) (s : State) : (sinkPut v s).freq = s.freq := rfl
@[simp] theorem sinkPut_node (v : Byte) (s : State) : (sinkPut v s).node = s.node := rfl
@[simp] theorem sinkPut_root (v : Byte) (s : State) : (sinkPut v s).root = s.root := rfl
@[simp] theorem sinkPut_rootv (v : Byte) (s : State) : (sinkPut v s).rootv = s.rootv := rfl
@[simp] theorem sinkPut_heap (v : Byte) (s : State) : (sinkPut v s).heap = s.heap := rfl
@[simp] theorem sinkPut_code (v : Byte) (s : State) : (sinkPut v s).code = s.code := rfl
@[simp] theorem sinkPut_wbuf (v : Byte) (s : State) : (sinkPut v s).wbuf = s.wbuf := rfl
@[simp] theorem sinkPut_wcnt (v : Byte) (s : State) : (sinkPut v s).wcnt = s.wcnt := rfl
@[simp] theorem sinkPut_rbuf (v : Byte) (s : State) : (sinkPut v s).rbuf = s.rbuf := rfl
@[simp] theorem sinkPut_rcnt (v : Byte) (s : State) : (sinkPut v s).rcnt = s.rcnt := rfl
@[simp] theorem sinkPut_dst (v : Byte) (s : State) : (sinkPut v s).dst = s.dst.write s.dpos v := rfl
@[simp] theorem sinkPut_src (v : Byte) (s : State) : (sinkPut v s).src = s.src := rfl
@[simp] theorem sinkPut_slen (v : Byte) (s : State) : (sinkPut v s).slen = s.slen := rfl
@[simp] theorem sinkPut_port (v : Byte) (s : State) : (sinkPut v s).port = s.port := rfl

/-! ### `State.setFreq` -/

@[simp] theorem setFreq_err (v : Byte) (n : Count) (s : State) : (s.setFreq v n).err = s.err := rfl
@[simp] theorem setFreq_errCmd (v : Byte) (n : Count) (s : State) : (s.setFreq v n).errCmd = s.errCmd := rfl
@[simp] theorem setFreq_res (v : Byte) (n : Count) (s : State) : (s.setFreq v n).res = s.res := rfl
@[simp] theorem setFreq_len (v : Byte) (n : Count) (s : State) : (s.setFreq v n).len = s.len := rfl
@[simp] theorem setFreq_spos (v : Byte) (n : Count) (s : State) : (s.setFreq v n).spos = s.spos := rfl
@[simp] theorem setFreq_dpos (v : Byte) (n : Count) (s : State) : (s.setFreq v n).dpos = s.dpos := rfl
@[simp] theorem setFreq_freq (v : Byte) (n : Count) (s : State) : (s.setFreq v n).freq = s.freq.set v.toNat n v.isLt := rfl
@[simp] theorem setFreq_node (v : Byte) (n : Count) (s : State) : (s.setFreq v n).node = s.node := rfl
@[simp] theorem setFreq_root (v : Byte) (n : Count) (s : State) : (s.setFreq v n).root = s.root := rfl
@[simp] theorem setFreq_rootv (v : Byte) (n : Count) (s : State) : (s.setFreq v n).rootv = s.rootv := rfl
@[simp] theorem setFreq_heap (v : Byte) (n : Count) (s : State) : (s.setFreq v n).heap = s.heap := rfl
@[simp] theorem setFreq_code (v : Byte) (n : Count) (s : State) : (s.setFreq v n).code = s.code := rfl
@[simp] theorem setFreq_wbuf (v : Byte) (n : Count) (s : State) : (s.setFreq v n).wbuf = s.wbuf := rfl
@[simp] theorem setFreq_wcnt (v : Byte) (n : Count) (s : State) : (s.setFreq v n).wcnt = s.wcnt := rfl
@[simp] theorem setFreq_rbuf (v : Byte) (n : Count) (s : State) : (s.setFreq v n).rbuf = s.rbuf := rfl
@[simp] theorem setFreq_rcnt (v : Byte) (n : Count) (s : State) : (s.setFreq v n).rcnt = s.rcnt := rfl
@[simp] theorem setFreq_dst (v : Byte) (n : Count) (s : State) : (s.setFreq v n).dst = s.dst := rfl
@[simp] theorem setFreq_src (v : Byte) (n : Count) (s : State) : (s.setFreq v n).src = s.src := rfl
@[simp] theorem setFreq_slen (v : Byte) (n : Count) (s : State) : (s.setFreq v n).slen = s.slen := rfl
@[simp] theorem setFreq_port (v : Byte) (n : Count) (s : State) : (s.setFreq v n).port = s.port := rfl

/-! ### `State.setCode` -/

@[simp] theorem setCode_err (v : Byte) (p : List Bool) (s : State) : (s.setCode v p).err = s.err := rfl
@[simp] theorem setCode_errCmd (v : Byte) (p : List Bool) (s : State) : (s.setCode v p).errCmd = s.errCmd := rfl
@[simp] theorem setCode_res (v : Byte) (p : List Bool) (s : State) : (s.setCode v p).res = s.res := rfl
@[simp] theorem setCode_len (v : Byte) (p : List Bool) (s : State) : (s.setCode v p).len = s.len := rfl
@[simp] theorem setCode_spos (v : Byte) (p : List Bool) (s : State) : (s.setCode v p).spos = s.spos := rfl
@[simp] theorem setCode_dpos (v : Byte) (p : List Bool) (s : State) : (s.setCode v p).dpos = s.dpos := rfl
@[simp] theorem setCode_freq (v : Byte) (p : List Bool) (s : State) : (s.setCode v p).freq = s.freq := rfl
@[simp] theorem setCode_node (v : Byte) (p : List Bool) (s : State) : (s.setCode v p).node = s.node := rfl
@[simp] theorem setCode_root (v : Byte) (p : List Bool) (s : State) : (s.setCode v p).root = s.root := rfl
@[simp] theorem setCode_rootv (v : Byte) (p : List Bool) (s : State) : (s.setCode v p).rootv = s.rootv := rfl
@[simp] theorem setCode_heap (v : Byte) (p : List Bool) (s : State) : (s.setCode v p).heap = s.heap := rfl
@[simp] theorem setCode_code (v : Byte) (p : List Bool) (s : State) : (s.setCode v p).code = s.code.set v.toNat (some p) v.isLt := rfl
@[simp] theorem setCode_wbuf (v : Byte) (p : List Bool) (s : State) : (s.setCode v p).wbuf = s.wbuf := rfl
@[simp] theorem setCode_wcnt (v : Byte) (p : List Bool) (s : State) : (s.setCode v p).wcnt = s.wcnt := rfl
@[simp] theorem setCode_rbuf (v : Byte) (p : List Bool) (s : State) : (s.setCode v p).rbuf = s.rbuf := rfl
@[simp] theorem setCode_rcnt (v : Byte) (p : List Bool) (s : State) : (s.setCode v p).rcnt = s.rcnt := rfl
@[simp] theorem setCode_dst (v : Byte) (p : List Bool) (s : State) : (s.setCode v p).dst = s.dst := rfl
@[simp] theorem setCode_src (v : Byte) (p : List Bool) (s : State) : (s.setCode v p).src = s.src := rfl
@[simp] theorem setCode_slen (v : Byte) (p : List Bool) (s : State) : (s.setCode v p).slen = s.slen := rfl
@[simp] theorem setCode_port (v : Byte) (p : List Bool) (s : State) : (s.setCode v p).port = s.port := rfl

/-! ### `allocNode` -/

@[simp] theorem allocNode_err (n : Option Node) (s : State) : (allocNode n s).err = s.err := rfl
@[simp] theorem allocNode_errCmd (n : Option Node) (s : State) : (allocNode n s).errCmd = s.errCmd := rfl
@[simp] theorem allocNode_res (n : Option Node) (s : State) : (allocNode n s).res = s.res := rfl
@[simp] theorem allocNode_len (n : Option Node) (s : State) : (allocNode n s).len = s.len := rfl
@[simp] theorem allocNode_spos (n : Option Node) (s : State) : (allocNode n s).spos = s.spos := rfl
@[simp] theorem allocNode_dpos (n : Option Node) (s : State) : (allocNode n s).dpos = s.dpos := rfl
@[simp] theorem allocNode_freq (n : Option Node) (s : State) : (allocNode n s).freq = s.freq := rfl
@[simp] theorem allocNode_node (n : Option Node) (s : State) : (allocNode n s).node = s.node ++ [n] := rfl
@[simp] theorem allocNode_root (n : Option Node) (s : State) : (allocNode n s).root = s.root := rfl
@[simp] theorem allocNode_rootv (n : Option Node) (s : State) : (allocNode n s).rootv = s.rootv := rfl
@[simp] theorem allocNode_heap (n : Option Node) (s : State) : (allocNode n s).heap = s.heap := rfl
@[simp] theorem allocNode_code (n : Option Node) (s : State) : (allocNode n s).code = s.code := rfl
@[simp] theorem allocNode_wbuf (n : Option Node) (s : State) : (allocNode n s).wbuf = s.wbuf := rfl
@[simp] theorem allocNode_wcnt (n : Option Node) (s : State) : (allocNode n s).wcnt = s.wcnt := rfl
@[simp] theorem allocNode_rbuf (n : Option Node) (s : State) : (allocNode n s).rbuf = s.rbuf := rfl
@[simp] theorem allocNode_rcnt (n : Option Node) (s : State) : (allocNode n s).rcnt = s.rcnt := rfl
@[simp] theorem allocNode_dst (n : Option Node) (s : State) : (allocNode n s).dst = s.dst := rfl
@[simp] theorem allocNode_src (n : Option Node) (s : State) : (allocNode n s).src = s.src := rfl
@[simp] theorem allocNode_slen (n : Option Node) (s : State) : (allocNode n s).slen = s.slen := rfl
@[simp] theorem allocNode_port (n : Option Node) (s : State) : (allocNode n s).port = s.port := rfl

/-! ### `writeNode` -/

@[simp] theorem writeNode_err (i : Nat) (n : Node) (s : State) : (writeNode i n s).err = s.err := rfl
@[simp] theorem writeNode_errCmd (i : Nat) (n : Node) (s : State) : (writeNode i n s).errCmd = s.errCmd := rfl
@[simp] theorem writeNode_res (i : Nat) (n : Node) (s : State) : (writeNode i n s).res = s.res := rfl
@[simp] theorem writeNode_len (i : Nat) (n : Node) (s : State) : (writeNode i n s).len = s.len := rfl
@[simp] theorem writeNode_spos (i : Nat) (n : Node) (s : State) : (writeNode i n s).spos = s.spos := rfl
@[simp] theorem writeNode_dpos (i : Nat) (n : Node) (s : State) : (writeNode i n s).dpos = s.dpos := rfl
@[simp] theorem writeNode_freq (i : Nat) (n : Node) (s : State) : (writeNode i n s).freq = s.freq := rfl
@[simp] theorem writeNode_node (i : Nat) (n : Node) (s : State) : (writeNode i n s).node = s.node.set i (some n) := rfl
@[simp] theorem writeNode_root (i : Nat) (n : Node) (s : State) : (writeNode i n s).root = s.root := rfl
@[simp] theorem writeNode_rootv (i : Nat) (n : Node) (s : State) : (writeNode i n s).rootv = s.rootv := rfl
@[simp] theorem writeNode_heap (i : Nat) (n : Node) (s : State) : (writeNode i n s).heap = s.heap := rfl
@[simp] theorem writeNode_code (i : Nat) (n : Node) (s : State) : (writeNode i n s).code = s.code := rfl
@[simp] theorem writeNode_wbuf (i : Nat) (n : Node) (s : State) : (writeNode i n s).wbuf = s.wbuf := rfl
@[simp] theorem writeNode_wcnt (i : Nat) (n : Node) (s : State) : (writeNode i n s).wcnt = s.wcnt := rfl
@[simp] theorem writeNode_rbuf (i : Nat) (n : Node) (s : State) : (writeNode i n s).rbuf = s.rbuf := rfl
@[simp] theorem writeNode_rcnt (i : Nat) (n : Node) (s : State) : (writeNode i n s).rcnt = s.rcnt := rfl
@[simp] theorem writeNode_dst (i : Nat) (n : Node) (s : State) : (writeNode i n s).dst = s.dst := rfl
@[simp] theorem writeNode_src (i : Nat) (n : Node) (s : State) : (writeNode i n s).src = s.src := rfl
@[simp] theorem writeNode_slen (i : Nat) (n : Node) (s : State) : (writeNode i n s).slen = s.slen := rfl
@[simp] theorem writeNode_port (i : Nat) (n : Node) (s : State) : (writeNode i n s).port = s.port := rfl

/-! ### `discardTree` -/

@[simp] theorem discardTree_err (s : State) : (discardTree s).err = s.err := rfl
@[simp] theorem discardTree_errCmd (s : State) : (discardTree s).errCmd = s.errCmd := rfl
@[simp] theorem discardTree_res (s : State) : (discardTree s).res = s.res := rfl
@[simp] theorem discardTree_len (s : State) : (discardTree s).len = s.len := rfl
@[simp] theorem discardTree_spos (s : State) : (discardTree s).spos = s.spos := rfl
@[simp] theorem discardTree_dpos (s : State) : (discardTree s).dpos = s.dpos := rfl
@[simp] theorem discardTree_freq (s : State) : (discardTree s).freq = s.freq := rfl
@[simp] theorem discardTree_node (s : State) : (discardTree s).node = [] := rfl
@[simp] theorem discardTree_root (s : State) : (discardTree s).root = 0 := rfl
@[simp] theorem discardTree_rootv (s : State) : (discardTree s).rootv = false := rfl
@[simp] theorem discardTree_heap (s : State) : (discardTree s).heap = [] := rfl
@[simp] theorem discardTree_code (s : State) : (discardTree s).code = s.code := rfl
@[simp] theorem discardTree_wbuf (s : State) : (discardTree s).wbuf = s.wbuf := rfl
@[simp] theorem discardTree_wcnt (s : State) : (discardTree s).wcnt = s.wcnt := rfl
@[simp] theorem discardTree_rbuf (s : State) : (discardTree s).rbuf = s.rbuf := rfl
@[simp] theorem discardTree_rcnt (s : State) : (discardTree s).rcnt = s.rcnt := rfl
@[simp] theorem discardTree_dst (s : State) : (discardTree s).dst = s.dst := rfl
@[simp] theorem discardTree_src (s : State) : (discardTree s).src = s.src := rfl
@[simp] theorem discardTree_slen (s : State) : (discardTree s).slen = s.slen := rfl
@[simp] theorem discardTree_port (s : State) : (discardTree s).port = s.port := rfl

/-! ### `freqClear` -/

@[simp] theorem freqClear_err (s : State) : (freqClear s).err = s.err := rfl
@[simp] theorem freqClear_errCmd (s : State) : (freqClear s).errCmd = s.errCmd := rfl
@[simp] theorem freqClear_res (s : State) : (freqClear s).res = s.res := rfl
@[simp] theorem freqClear_len (s : State) : (freqClear s).len = 0#32 := rfl
@[simp] theorem freqClear_spos (s : State) : (freqClear s).spos = s.spos := rfl
@[simp] theorem freqClear_dpos (s : State) : (freqClear s).dpos = s.dpos := rfl
@[simp] theorem freqClear_freq (s : State) : (freqClear s).freq = Vector.replicate 256 0#32 := rfl
@[simp] theorem freqClear_node (s : State) : (freqClear s).node = s.node := rfl
@[simp] theorem freqClear_root (s : State) : (freqClear s).root = s.root := rfl
@[simp] theorem freqClear_rootv (s : State) : (freqClear s).rootv = s.rootv := rfl
@[simp] theorem freqClear_heap (s : State) : (freqClear s).heap = s.heap := rfl
@[simp] theorem freqClear_code (s : State) : (freqClear s).code = s.code := rfl
@[simp] theorem freqClear_wbuf (s : State) : (freqClear s).wbuf = s.wbuf := rfl
@[simp] theorem freqClear_wcnt (s : State) : (freqClear s).wcnt = s.wcnt := rfl
@[simp] theorem freqClear_rbuf (s : State) : (freqClear s).rbuf = s.rbuf := rfl
@[simp] theorem freqClear_rcnt (s : State) : (freqClear s).rcnt = s.rcnt := rfl
@[simp] theorem freqClear_dst (s : State) : (freqClear s).dst = s.dst := rfl
@[simp] theorem freqClear_src (s : State) : (freqClear s).src = s.src := rfl
@[simp] theorem freqClear_slen (s : State) : (freqClear s).slen = s.slen := rfl
@[simp] theorem freqClear_port (s : State) : (freqClear s).port = s.port := rfl

/-! ### `release` -/

@[simp] theorem release_err (s : State) : (release s).err = s.err := rfl
@[simp] theorem release_errCmd (s : State) : (release s).errCmd = s.errCmd := rfl
@[simp] theorem release_res (s : State) : (release s).res = s.res := rfl
@[simp] theorem release_len (s : State) : (release s).len = s.len := rfl
@[simp] theorem release_spos (s : State) : (release s).spos = s.spos := rfl
@[simp] theorem release_dpos (s : State) : (release s).dpos = s.dpos := rfl
@[simp] theorem release_freq (s : State) : (release s).freq = Vector.replicate 256 0#32 := rfl
@[simp] theorem release_node (s : State) : (release s).node = [] := rfl
@[simp] theorem release_root (s : State) : (release s).root = 0 := rfl
@[simp] theorem release_rootv (s : State) : (release s).rootv = false := rfl
@[simp] theorem release_heap (s : State) : (release s).heap = [] := rfl
@[simp] theorem release_code (s : State) : (release s).code = Vector.replicate 256 none := rfl
@[simp] theorem release_wbuf (s : State) : (release s).wbuf = s.wbuf := rfl
@[simp] theorem release_wcnt (s : State) : (release s).wcnt = s.wcnt := rfl
@[simp] theorem release_rbuf (s : State) : (release s).rbuf = s.rbuf := rfl
@[simp] theorem release_rcnt (s : State) : (release s).rcnt = s.rcnt := rfl
@[simp] theorem release_dst (s : State) : (release s).dst = s.dst := rfl
@[simp] theorem release_src (s : State) : (release s).src = s.src := rfl
@[simp] theorem release_slen (s : State) : (release s).slen = s.slen := rfl
@[simp] theorem release_port (s : State) : (release s).port = s.port := rfl

/-! ### `init` -/

@[simp] theorem init_err (s : State) : (init s).err = State.reset.err := rfl
@[simp] theorem init_errCmd (s : State) : (init s).errCmd = State.reset.errCmd := rfl
@[simp] theorem init_res (s : State) : (init s).res = State.reset.res := rfl
@[simp] theorem init_len (s : State) : (init s).len = State.reset.len := rfl
@[simp] theorem init_spos (s : State) : (init s).spos = State.reset.spos := rfl
@[simp] theorem init_dpos (s : State) : (init s).dpos = State.reset.dpos := rfl
@[simp] theorem init_freq (s : State) : (init s).freq = State.reset.freq := rfl
@[simp] theorem init_node (s : State) : (init s).node = State.reset.node := rfl
@[simp] theorem init_root (s : State) : (init s).root = State.reset.root := rfl
@[simp] theorem init_rootv (s : State) : (init s).rootv = State.reset.rootv := rfl
@[simp] theorem init_heap (s : State) : (init s).heap = State.reset.heap := rfl
@[simp] theorem init_code (s : State) : (init s).code = State.reset.code := rfl
@[simp] theorem init_wbuf (s : State) : (init s).wbuf = State.reset.wbuf := rfl
@[simp] theorem init_wcnt (s : State) : (init s).wcnt = State.reset.wcnt := rfl
@[simp] theorem init_rbuf (s : State) : (init s).rbuf = State.reset.rbuf := rfl
@[simp] theorem init_rcnt (s : State) : (init s).rcnt = State.reset.rcnt := rfl
@[simp] theorem init_dst (s : State) : (init s).dst = State.reset.dst := rfl
@[simp] theorem init_src (s : State) : (init s).src = s.src := rfl
@[simp] theorem init_slen (s : State) : (init s).slen = s.slen := rfl
@[simp] theorem init_port (s : State) : (init s).port = s.port := rfl

/-! ### `bindSource` -/

@[simp] theorem bindSource_err (bytes : List Byte) (s : State) : (bindSource bytes s).err = s.err := rfl
@[simp] theorem bindSource_errCmd (bytes : List Byte) (s : State) : (bindSource bytes s).errCmd = s.errCmd := rfl
@[simp] theorem bindSource_res (bytes : List Byte) (s : State) : (bindSource bytes s).res = s.res := rfl
@[simp] theorem bindSource_len (bytes : List Byte) (s : State) : (bindSource bytes s).len = s.len := rfl
@[simp] theorem bindSource_spos (bytes : List Byte) (s : State) : (bindSource bytes s).spos = s.spos := rfl
@[simp] theorem bindSource_dpos (bytes : List Byte) (s : State) : (bindSource bytes s).dpos = s.dpos := rfl
@[simp] theorem bindSource_freq (bytes : List Byte) (s : State) : (bindSource bytes s).freq = s.freq := rfl
@[simp] theorem bindSource_node (bytes : List Byte) (s : State) : (bindSource bytes s).node = s.node := rfl
@[simp] theorem bindSource_root (bytes : List Byte) (s : State) : (bindSource bytes s).root = s.root := rfl
@[simp] theorem bindSource_rootv (bytes : List Byte) (s : State) : (bindSource bytes s).rootv = s.rootv := rfl
@[simp] theorem bindSource_heap (bytes : List Byte) (s : State) : (bindSource bytes s).heap = s.heap := rfl
@[simp] theorem bindSource_code (bytes : List Byte) (s : State) : (bindSource bytes s).code = s.code := rfl
@[simp] theorem bindSource_wbuf (bytes : List Byte) (s : State) : (bindSource bytes s).wbuf = s.wbuf := rfl
@[simp] theorem bindSource_wcnt (bytes : List Byte) (s : State) : (bindSource bytes s).wcnt = s.wcnt := rfl
@[simp] theorem bindSource_rbuf (bytes : List Byte) (s : State) : (bindSource bytes s).rbuf = s.rbuf := rfl
@[simp] theorem bindSource_rcnt (bytes : List Byte) (s : State) : (bindSource bytes s).rcnt = s.rcnt := rfl
@[simp] theorem bindSource_dst (bytes : List Byte) (s : State) : (bindSource bytes s).dst = s.dst := rfl
@[simp] theorem bindSource_src (bytes : List Byte) (s : State) : (bindSource bytes s).src = Memory.ofBytesAt 0 bytes := rfl
@[simp] theorem bindSource_slen (bytes : List Byte) (s : State) : (bindSource bytes s).slen = bytes.length := rfl
@[simp] theorem bindSource_port (bytes : List Byte) (s : State) : (bindSource bytes s).port = s.port := rfl

/-! ### `presentNext` -/

@[simp] theorem presentNext_err (w : Word) (s : State) : (presentNext w s).err = s.err := rfl
@[simp] theorem presentNext_errCmd (w : Word) (s : State) : (presentNext w s).errCmd = s.errCmd := rfl
@[simp] theorem presentNext_res (w : Word) (s : State) : (presentNext w s).res = s.res := rfl
@[simp] theorem presentNext_len (w : Word) (s : State) : (presentNext w s).len = s.len := rfl
@[simp] theorem presentNext_spos (w : Word) (s : State) : (presentNext w s).spos = s.spos := rfl
@[simp] theorem presentNext_dpos (w : Word) (s : State) : (presentNext w s).dpos = s.dpos := rfl
@[simp] theorem presentNext_freq (w : Word) (s : State) : (presentNext w s).freq = s.freq := rfl
@[simp] theorem presentNext_node (w : Word) (s : State) : (presentNext w s).node = s.node := rfl
@[simp] theorem presentNext_root (w : Word) (s : State) : (presentNext w s).root = s.root := rfl
@[simp] theorem presentNext_rootv (w : Word) (s : State) : (presentNext w s).rootv = s.rootv := rfl
@[simp] theorem presentNext_heap (w : Word) (s : State) : (presentNext w s).heap = s.heap := rfl
@[simp] theorem presentNext_code (w : Word) (s : State) : (presentNext w s).code = s.code := rfl
@[simp] theorem presentNext_wbuf (w : Word) (s : State) : (presentNext w s).wbuf = s.wbuf := rfl
@[simp] theorem presentNext_wcnt (w : Word) (s : State) : (presentNext w s).wcnt = s.wcnt := rfl
@[simp] theorem presentNext_rbuf (w : Word) (s : State) : (presentNext w s).rbuf = s.rbuf := rfl
@[simp] theorem presentNext_rcnt (w : Word) (s : State) : (presentNext w s).rcnt = s.rcnt := rfl
@[simp] theorem presentNext_dst (w : Word) (s : State) : (presentNext w s).dst = s.dst := rfl
@[simp] theorem presentNext_src (w : Word) (s : State) : (presentNext w s).src = s.src := rfl
@[simp] theorem presentNext_slen (w : Word) (s : State) : (presentNext w s).slen = s.slen := rfl
@[simp] theorem presentNext_port (w : Word) (s : State) : (presentNext w s).port = .command w :: s.port := rfl

/-! ### The reset state -/

@[simp] theorem reset_err : State.reset.err = 0#8 := rfl
@[simp] theorem reset_errCmd : State.reset.errCmd = 0#16 := rfl
@[simp] theorem reset_res : State.reset.res = 0#8 := rfl
@[simp] theorem reset_len : State.reset.len = 0#32 := rfl
@[simp] theorem reset_spos : State.reset.spos = 0 := rfl
@[simp] theorem reset_dpos : State.reset.dpos = 0 := rfl
@[simp] theorem reset_freq : State.reset.freq = Vector.replicate 256 0#32 := rfl
@[simp] theorem reset_node : State.reset.node = [] := rfl
@[simp] theorem reset_root : State.reset.root = 0 := rfl
@[simp] theorem reset_rootv : State.reset.rootv = false := rfl
@[simp] theorem reset_heap : State.reset.heap = [] := rfl
@[simp] theorem reset_code : State.reset.code = Vector.replicate 256 none := rfl
@[simp] theorem reset_wbuf : State.reset.wbuf = 0#8 := rfl
@[simp] theorem reset_wcnt : State.reset.wcnt = 0#3 := rfl
@[simp] theorem reset_rbuf : State.reset.rbuf = 0#8 := rfl
@[simp] theorem reset_rcnt : State.reset.rcnt = 0#4 := rfl
@[simp] theorem reset_dst : State.reset.dst = [] := rfl
@[simp] theorem reset_src : State.reset.src = [] := rfl
@[simp] theorem reset_slen : State.reset.slen = 0 := rfl
@[simp] theorem reset_port : State.reset.port = [] := rfl

end Sys2Proof.Laws
end

