-- ==== Sys2Proof/Laws/Memory.lean ====
section
/-! SUPPORT. The byte spaces: every operation keeps the canonical form, a read after a write, and the space that
holds exactly the addresses below a bound. -/

namespace Sys2Proof.Laws

open Sys2Proof.Machine

theorem reset_dst_wf : State.reset.dst.wf := List.Pairwise.nil

theorem reset_src_wf : State.reset.src.wf := List.Pairwise.nil

theorem write_mem {m : Memory} {a : Nat} {b : Byte} {c : Host.Cell} (h : c ∈ m.write a b) : c = (a, b) ∨ c ∈ m := by
  induction m with
  | nil => simpa [Memory.write] using h
  | cons d rest ih =>
    simp only [Memory.write] at h
    split at h
    · simpa using h
    · split at h
      · rcases List.mem_cons.1 h with h | h
        · exact .inl h
        · exact .inr (List.mem_cons_of_mem _ h)
      · rcases List.mem_cons.1 h with h | h
        · exact .inr (h ▸ List.mem_cons_self)
        · exact (ih h).imp_right (List.mem_cons_of_mem _)

theorem write_wf {m : Memory} (h : m.wf) (a : Nat) (b : Byte) : (m.write a b).wf := by
  induction m with
  | nil => simp [Memory.write, Memory.wf]
  | cons d rest ih =>
    obtain ⟨hd, hr⟩ := List.pairwise_cons.1 h
    simp only [Memory.write]
    split
    · rename_i hlt
      refine List.pairwise_cons.2 ⟨?_, h⟩
      intro c hc
      rcases List.mem_cons.1 hc with rfl | hc
      · exact hlt
      · exact Nat.lt_trans hlt (hd c hc)
    · split
      · rename_i heq
        exact List.pairwise_cons.2 ⟨fun c hc => heq ▸ hd c hc, hr⟩
      · rename_i hlt hne
        refine List.pairwise_cons.2 ⟨?_, ih hr⟩
        intro c hc
        rcases write_mem hc with rfl | hc
        · show d.1 < a
          omega
        · exact hd c hc

theorem read_write_same {m : Memory} (a : Nat) (b : Byte) : (m.write a b).read a = some b := by
  induction m with
  | nil => simp [Memory.write, Memory.read]
  | cons d rest ih =>
    simp only [Memory.write]
    split
    · simp [Memory.read]
    · split
      · simp [Memory.read]
      · rename_i h1 h2
        simp only [Memory.read, ih]
        rw [if_neg (fun h => h2 h.symm)]

theorem read_write_other {m : Memory} {a x : Nat} (b : Byte) (hx : x ≠ a) : (m.write a b).read x = m.read x := by
  induction m with
  | nil => simp [Memory.write, Memory.read, Ne.symm hx]
  | cons d rest ih =>
    simp only [Memory.write]
    split
    · simp [Memory.read, Ne.symm hx]
    · split
      · rename_i h1 h2
        simp [Memory.read, Ne.symm hx, ← h2]
      · simp [Memory.read, ih]

theorem ofBytesAt_fst (a : Nat) (bs : List Byte) : (Memory.ofBytesAt a bs).map Prod.fst = List.range' a bs.length := by
  induction bs generalizing a with
  | nil => rfl
  | cons b rest ih => simp [Memory.ofBytesAt, ih, List.range'_succ]

theorem ofBytesAt_bytes (a : Nat) (bs : List Byte) : (Memory.ofBytesAt a bs).bytes = bs := by
  induction bs generalizing a with
  | nil => rfl
  | cons b rest ih => simpa [Memory.ofBytesAt, Memory.bytes] using ih (a + 1)

theorem ofBytes_covers (bs : List Byte) : (Memory.ofBytesAt 0 bs).covers bs.length := by
  rw [Memory.covers, ofBytesAt_fst, List.range_eq_range']

theorem ofBytes_wf (bs : List Byte) : (Memory.ofBytesAt 0 bs).wf := by
  have h : ((Memory.ofBytesAt 0 bs).map Prod.fst).Pairwise (· < ·) := by
    rw [ofBytes_covers]; exact List.pairwise_lt_range
  exact List.pairwise_map.1 h

/-- A space that holds exactly the addresses below a bound is canonical. -/
theorem covers_wf {m : Memory} {n : Nat} (h : m.covers n) : m.wf := by
  have h' : (m.map Prod.fst).Pairwise (· < ·) := by rw [h]; exact List.pairwise_lt_range
  exact List.pairwise_map.1 h'

theorem covers_length {m : Memory} {n : Nat} (h : m.covers n) : m.length = n := by
  have := congrArg List.length h
  simpa using this

theorem covers_nil : Memory.covers [] 0 := rfl

theorem bytes_length (m : Memory) : m.bytes.length = m.length := by simp [Memory.bytes]

/-- Reading by address is indexing the bytes in order, from a space whose addresses start at `a`. -/
theorem read_range' {m : Memory} {a n : Nat} (h : m.map Prod.fst = List.range' a n) (x : Nat) :
    m.read (a + x) = m.bytes[x]? := by
  induction m generalizing a n x with
  | nil => simp [Memory.read, Memory.bytes]
  | cons c rest ih =>
    cases n with
    | zero => simp at h
    | succ n =>
      simp only [List.map_cons, List.range'_succ, List.cons.injEq] at h
      obtain ⟨hc, hr⟩ := h
      cases x with
      | zero => simp [Memory.read, Memory.bytes, hc]
      | succ x =>
        have := ih hr x
        simp only [Memory.read, hc]
        rw [if_neg (by omega)]
        rw [show a + (x + 1) = a + 1 + x by omega, this]
        simp [Memory.bytes]

theorem read_covers {m : Memory} {n : Nat} (h : m.covers n) (x : Nat) : m.read x = m.bytes[x]? := by
  have := read_range' (m := m) (a := 0) (n := n) (by rw [h, List.range_eq_range']) x
  simpa using this

theorem write_range' {m : Memory} {a n : Nat} (h : m.map Prod.fst = List.range' a n) (b : Byte) :
    m.write (a + n) b = m ++ [(a + n, b)] := by
  induction m generalizing a n with
  | nil => rfl
  | cons c rest ih =>
    cases n with
    | zero => simp at h
    | succ n =>
      simp only [List.map_cons, List.range'_succ, List.cons.injEq] at h
      obtain ⟨hc, hr⟩ := h
      have := ih hr
      simp only [Memory.write, hc]
      rw [if_neg (by omega), if_neg (by omega), show a + (n + 1) = a + 1 + n by omega, this]
      rfl

/-- A write at the end of a space that holds the addresses below `n` appends. -/
theorem write_covers {m : Memory} {n : Nat} (h : m.covers n) (b : Byte) : m.write n b = m ++ [(n, b)] := by
  have := write_range' (m := m) (a := 0) (n := n) (by rw [h, List.range_eq_range']) b
  simpa using this

theorem covers_write {m : Memory} {n : Nat} (h : m.covers n) (b : Byte) : (m.write n b).covers (n + 1) := by
  rw [write_covers h, Memory.covers, List.map_append, h, List.range_succ]
  rfl

theorem bytes_write {m : Memory} {n : Nat} (h : m.covers n) (b : Byte) : (m.write n b).bytes = m.bytes ++ [b] := by
  rw [write_covers h]; simp [Memory.bytes]

/-- `SinkPut` appends one byte to what the host reads (R53). -/
theorem sinkPut_output {s : State} (h : s.dst.covers s.dpos) (v : Byte) : (sinkPut v s).output = s.output ++ [v] :=
  bytes_write h v

theorem sinkPut_covers {s : State} (h : s.dst.covers s.dpos) (v : Byte) : (sinkPut v s).dst.covers (sinkPut v s).dpos :=
  covers_write h v

/-- Everything `SrcNext` can do when SRC holds SLEN bytes (R52). -/
theorem srcNext_cases {s : State} (h : s.src.covers s.slen) :
    (s.slen ≤ s.spos ∧ srcNext s = .err .eos s) ∨
    (∃ v, s.spos < s.slen ∧ s.src.bytes[s.spos]? = some v ∧ srcNext s = .ok v { s with spos := s.spos + 1 }) := by
  by_cases hle : s.slen ≤ s.spos
  · exact .inl ⟨hle, by simp [srcNext, hle]⟩
  · have hlt : s.spos < s.src.bytes.length := by rw [bytes_length, covers_length h]; omega
    refine .inr ⟨s.src.bytes[s.spos], by omega, List.getElem?_eq_getElem hlt, ?_⟩
    simp [srcNext, hle, read_covers h, List.getElem?_eq_getElem hlt]

end Sys2Proof.Laws
end

