-- ==== Sys2Proof/Laws/Decode.lean ====
section
/-! SUPPORT. The bit forms of a byte (R54, R104) and of a command word (R71): each form read back gives what was
written. -/

namespace Sys2Proof.Laws

open Sys2Proof.Machine

theorem opField_formatC (op arg : Byte) : opField (formatC op arg) = op := by
  apply BitVec.eq_of_getLsbD_eq
  intro i hi
  simp only [opField, formatC, BitVec.getLsbD_extractLsb', BitVec.getLsbD_append]
  simp [hi]

theorem argField_formatC (op arg : Byte) : argField (formatC op arg) = arg := by
  apply BitVec.eq_of_getLsbD_eq
  intro i hi
  simp only [argField, formatC, BitVec.getLsbD_extractLsb', BitVec.getLsbD_append]
  simp [hi]

theorem formatC_fields (w : Word) : formatC (opField w) (argField w) = w := by
  apply BitVec.eq_of_getLsbD_eq
  intro i hi
  simp only [opField, argField, formatC, BitVec.getLsbD_extractLsb', BitVec.getLsbD_append]
  by_cases h : i < 8
  · simp [h]
  · simp only [h, if_false, Nat.zero_add]
    rw [show 8 + (i - 8) = i by omega]
    simp [show i - 8 < 8 by omega]

/-- What an entry of the opcode map says of the encoder: the command's word has this opcode, and its operand (R72). -/
def FormSound (op : Byte) : Option Form → Prop
  | .none => True
  | some (.none i) => i.wellFormed = true ∧ encode i = formatC op 0#8
  | some (.bit f) => ∀ b, (f b).wellFormed = true ∧ encode (f b) = formatC op ((BitVec.ofBool b).setWidth 8)
  | some (.byte f) => ∀ v, (f v).wellFormed = true ∧ encode (f v) = formatC op v

theorem formSound_if {op c : Byte} {x y : Option Form} (h : FormSound c x) (k : FormSound op y) :
    FormSound op (if op = c then x else y) := by
  by_cases e : op = c
  · rw [if_pos e, e]; exact h
  · rw [if_neg e]; exact k

theorem form_sound (op : Byte) : FormSound op (form op) := by
  unfold form
  repeat refine formSound_if (by first | exact ⟨rfl, rfl⟩ | exact fun _ => ⟨rfl, rfl⟩) ?_
  trivial

/-- A byte whose bits 7:1 are 0 is its own bit 0. -/
theorem setWidth_bit (a : Byte) (h : a.extractLsb' 1 7 = 0#7) : (BitVec.ofBool (a.getLsbD 0)).setWidth 8 = a := by
  revert a
  decide +kernel

/-- A legal word is the word of the command it decodes to (R73). -/
theorem encode_of_decode {w : Word} {i : Instr} (h : decode w = .ok i) : i.wellFormed = true ∧ encode i = w := by
  have hs := form_sound (opField w)
  unfold decode at h
  cases hf : form (opField w) with
  | none => simp [hf] at h
  | some x =>
    rw [hf] at hs h
    have hw := formatC_fields w
    cases x with
    | none j =>
      simp only at h
      split at h
      · rename_i ha
        cases h
        exact ⟨hs.1, by rw [hs.2, ← ha, hw]⟩
      · cases h
    | bit f =>
      simp only at h
      split at h
      · rename_i ha
        cases h
        exact ⟨(hs _).1, by rw [(hs _).2, setWidth_bit _ ha, hw]⟩
      · cases h
    | byte f =>
      cases h
      exact ⟨(hs _).1, by rw [(hs _).2, hw]⟩

theorem byteBits_length (v : Byte) : (byteBits v).length = 8 := rfl

theorem byteBits_getElem (v : Byte) (i : Nat) (hi : i < 8) : (byteBits v)[i]? = some (v.getLsbD (7 - i)) := by
  have : i = 0 ∨ i = 1 ∨ i = 2 ∨ i = 3 ∨ i = 4 ∨ i = 5 ∨ i = 6 ∨ i = 7 := by omega
  rcases this with h | h | h | h | h | h | h | h <;> subst h <;> rfl

theorem shiftIn_zero (v : Byte) (b : Bool) : (shiftIn v b).getLsbD 0 = b := by
  have h := BitVec.getLsbD_append (x := v.extractLsb' 0 7) (y := BitVec.ofBool b) (i := 0)
  rw [if_pos (by omega), BitVec.getLsbD_ofBool] at h
  exact h.trans (by simp only [decide_true, Bool.true_and])

theorem shiftIn_succ (v : Byte) (b : Bool) (i : Nat) :
    (shiftIn v b).getLsbD (i + 1) = (decide (i < 7) && v.getLsbD i) := by
  have h := BitVec.getLsbD_append (x := v.extractLsb' 0 7) (y := BitVec.ofBool b) (i := i + 1)
  rw [if_neg (by omega), BitVec.getLsbD_extractLsb', Nat.add_sub_cancel, Nat.zero_add] at h
  exact h

/-- Eight bits shifted in, first bit first, are the byte's bits from 7 down to 0 (R104). -/
theorem byteBits_byteOfBits (b7 b6 b5 b4 b3 b2 b1 b0 : Bool) :
    byteBits (byteOfBits [b7, b6, b5, b4, b3, b2, b1, b0]) = [b7, b6, b5, b4, b3, b2, b1, b0] := by
  have h : ∀ v b i, i < 7 → (shiftIn v b).getLsbD (i + 1) = v.getLsbD i := fun v b i hi => by
    rw [shiftIn_succ, decide_eq_true hi, Bool.true_and]
  simp only [byteBits, byteOfBits, List.foldl_cons, List.foldl_nil, shiftIn_zero, h _ _ 0 (by omega),
    h _ _ 1 (by omega), h _ _ 2 (by omega), h _ _ 3 (by omega), h _ _ 4 (by omega), h _ _ 5 (by omega), h _ _ 6 (by omega)]

theorem byteBits_injective {v w : Byte} (h : byteBits v = byteBits w) : v = w := by
  apply BitVec.eq_of_getLsbD_eq
  intro i hi
  have := congrArg (fun l => l[7 - i]?) h
  simp only [byteBits_getElem v (7 - i) (by omega), byteBits_getElem w (7 - i) (by omega), Option.some.injEq] at this
  rwa [show 7 - (7 - i) = i by omega] at this

theorem byteOfBits_byteBits (v : Byte) : byteOfBits (byteBits v) = v := byteBits_injective (byteBits_byteOfBits ..)

theorem leafBits_length (v : Byte) : (leafBits v).length = 9 := rfl

/-- A leaf token read back (R78). -/
theorem decodeToken_leafBits (v : Byte) (rest : List Bool) :
    decodeToken (leafBits v ++ rest) = some (.leaf v, rest) := by
  have h : (byteBits v ++ rest).length = 8 + rest.length := by simp [byteBits_length]
  simp only [leafBits, List.cons_append, decodeToken, h]
  rw [if_neg (by omega)]
  rw [List.take_append_of_le_length (by simp [byteBits_length]), List.take_of_length_le (by simp [byteBits_length]),
    byteOfBits_byteBits, List.drop_left' (byteBits_length v)]

theorem decodeToken_internalBits (rest : List Bool) : decodeToken (internalBits ++ rest) = some (.internal, rest) := rfl

/-! ### Setting one bit (R100) -/

theorem one_shiftLeft_getLsbD (i j : Nat) (hj : j < 8) : (1#8 <<< i).getLsbD j = decide (j = i) := by
  simp only [BitVec.getLsbD_shiftLeft, BitVec.getLsbD_one]
  by_cases h : j = i
  · subst h; simp [hj]
  · simp [h, hj]; omega

theorem setBit_getLsbD (v : Byte) (i j : Nat) (b : Bool) (hj : j < 8) :
    (setBit v i b).getLsbD j = if j = i then b else v.getLsbD j := by
  cases b
  · simp only [setBit, Bool.false_eq_true, if_false, BitVec.getLsbD_and, BitVec.getLsbD_not, hj, decide_true,
      Bool.true_and, one_shiftLeft_getLsbD i j hj]
    by_cases h : j = i <;> simp [h]
  · simp only [setBit, if_true, BitVec.getLsbD_or, one_shiftLeft_getLsbD i j hj]
    by_cases h : j = i <;> simp [h]

theorem topBits_zero (v : Byte) : topBits v 0 = [] := rfl

theorem topBits_eight (v : Byte) : topBits v 8 = byteBits v := rfl

theorem topBits_length (v : Byte) (n : Nat) (h : n ≤ 8) : (topBits v n).length = n := by
  simp [topBits, byteBits_length, h]

theorem topBits_getElem (v : Byte) {n i : Nat} (hi : i < n) (hn : n ≤ 8) :
    (topBits v n)[i]? = some (v.getLsbD (7 - i)) := by
  rw [topBits, List.getElem?_take_of_lt hi, byteBits_getElem v i (by omega)]

/-- The bits held after one more bit is set into the buffer. -/
theorem topBits_setBit (v : Byte) (b : Bool) {c : Nat} (hc : c < 8) :
    topBits (setBit v (7 - c) b) (c + 1) = topBits v c ++ [b] := by
  apply List.ext_getElem?
  intro i
  by_cases hi : i < c
  · rw [topBits_getElem _ (by omega) (by omega), setBit_getLsbD _ _ _ _ (by omega), if_neg (by omega),
      List.getElem?_append_left (by rw [topBits_length _ _ (by omega)]; exact hi), topBits_getElem _ hi (by omega)]
  · by_cases h : i = c
    · subst h
      rw [topBits_getElem _ (by omega) (by omega), setBit_getLsbD _ _ _ _ (by omega), if_pos rfl,
        List.getElem?_append_right (by rw [topBits_length _ _ (by omega)]), topBits_length _ _ (by omega)]
      simp
    · rw [List.getElem?_eq_none (by rw [topBits_length _ _ (by omega)]; omega),
        List.getElem?_eq_none (by simp [topBits_length _ _ (show c ≤ 8 by omega)]; omega)]

theorem lowBits_zero (v : Byte) : lowBits v 0 = [] := rfl

theorem lowBits_eight (v : Byte) : lowBits v 8 = byteBits v := rfl

theorem lowBits_length (v : Byte) (n : Nat) (h : n ≤ 8) : (lowBits v n).length = n := by
  simp [lowBits, byteBits_length]; omega

/-- The bit the reader delivers next, and the bits it then has left (R103). -/
theorem lowBits_succ (v : Byte) {n : Nat} (h : n < 8) : lowBits v (n + 1) = v.getLsbD n :: lowBits v n := by
  have : n = 0 ∨ n = 1 ∨ n = 2 ∨ n = 3 ∨ n = 4 ∨ n = 5 ∨ n = 6 ∨ n = 7 := by omega
  rcases this with h | h | h | h | h | h | h | h <;> subst h <;> rfl

end Sys2Proof.Laws
end

