-- ==== Sys2Proof/Laws/BitStream.lean ====
section
/-! SUPPORT. What the bit writer and the bit reader do, in the terms of the bits written and the bits left
(R100 to R104): one lemma per operation says everything it can do. -/

namespace Sys2Proof.Laws

open Sys2Proof.Machine

/-! ### Sequencing -/

@[simp] theorem bind_ok {α β : Type} (a : α) (s : State) (f : α → State → Res β) : (Res.ok a s).bind f = f a s := rfl

@[simp] theorem bind_err {α β : Type} (e : ErrorKind) (s : State) (f : α → State → Res β) :
    (Res.err e s : Res α).bind f = .err e s := rfl

@[simp] theorem bind_stuck {α β : Type} (x : Fault) (f : α → State → Res β) :
    (Res.stuck x : Res α).bind f = .stuck x := rfl

/-- A sequence ends well only if both parts do. -/
theorem bind_eq_ok {α β : Type} {r : Res α} {f : α → State → Res β} {b : β} {t : State} (h : r.bind f = .ok b t) :
    ∃ a s, r = .ok a s ∧ f a s = .ok b t := by
  cases r with
  | ok a s => exact ⟨a, s, rfl, h⟩
  | err e s => simp at h
  | stuck x => simp at h

/-- A sequence raises in its first part or in its second. -/
theorem bind_eq_err {α β : Type} {r : Res α} {f : α → State → Res β} {e : ErrorKind} {t : State}
    (h : r.bind f = .err e t) : r = .err e t ∨ ∃ a s, r = .ok a s ∧ f a s = .err e t := by
  cases r with
  | ok a s => exact .inr ⟨a, s, rfl, h⟩
  | err e s => exact .inl (by simpa using h)
  | stuck x => simp at h

theorem bind_assoc {α β γ : Type} (r : Res α) (f : α → State → Res β) (g : β → State → Res γ) :
    (r.bind f).bind g = r.bind fun a s => (f a s).bind g := by
  cases r <;> rfl

/-! ### The writer -/

/-- The writer's own invariant: DST holds the addresses below DPOS, and the unwritten bits of WBUF are 0 (R29, R32). -/
structure WriterOk (s : State) : Prop where
  sink : s.dst.covers s.dpos
  pad : ∀ j, j + s.wcnt.toNat < 8 → s.wbuf.getLsbD j = false

/-- `t` is `s` but for what the writer and the sink hold. -/
def WriterOnly (s t : State) : Prop := t = { s with wbuf := t.wbuf, wcnt := t.wcnt, dst := t.dst, dpos := t.dpos }

theorem WriterOnly.refl (s : State) : WriterOnly s s := rfl

theorem WriterOnly.trans {s t u : State} (h1 : WriterOnly s t) (h2 : WriterOnly t u) : WriterOnly s u := by
  unfold WriterOnly at *
  rw [h2, h1]

theorem wcnt_succ {c : BitVec 3} (h : ¬c = 7#3) : (c + 1#3).toNat = c.toNat + 1 := by bv_omega

theorem wcnt_seven {c : BitVec 3} (h : c = 7#3) : c.toNat = 7 := by subst h; rfl

theorem sinkPut_only (v : Byte) (s : State) : WriterOnly s (sinkPut v s) := rfl

theorem writeBit_only (b : Bool) (s : State) : WriterOnly s (writeBit b s) := by
  unfold writeBit WriterOnly
  split <;> rfl

theorem writeBits_only (bs : List Bool) (s : State) : WriterOnly s (writeBits bs s) := by
  induction bs generalizing s with
  | nil => rfl
  | cons b rest ih => exact (writeBit_only b s).trans (ih _)

theorem writeByte_only (v : Byte) (s : State) : WriterOnly s (writeByte v s) := writeBits_only _ s

theorem flush_only (s : State) : WriterOnly s (flush s) := by
  unfold flush WriterOnly
  split <;> rfl

theorem writeBits_append (xs ys : List Bool) (s : State) : writeBits (xs ++ ys) s = writeBits ys (writeBits xs s) := by
  induction xs generalizing s with
  | nil => rfl
  | cons b rest ih => exact ih _

/-- Everything `WriteBit` does to the bit stream: one bit more, and the writer's invariant stays (R100). -/
theorem writeBit_spec {s : State} (h : WriterOk s) (b : Bool) :
    WriterOk (writeBit b s) ∧ (writeBit b s).bitsWritten = s.bitsWritten ++ [b] := by
  have hc : s.wcnt.toNat < 8 := s.wcnt.isLt
  have htop := topBits_setBit s.wbuf b hc
  by_cases h7 : s.wcnt = 7#3
  · have hs : writeBit b s =
        { sinkPut (setBit s.wbuf (7 - s.wcnt.toNat) b) s with wbuf := 0#8, wcnt := 0#3 } := by simp [writeBit, h7]
    have h7' := wcnt_seven h7
    refine ⟨⟨?_, ?_⟩, ?_⟩
    · rw [hs]; exact sinkPut_covers h.sink _
    · rw [hs]; intro j _; simp
    · have ho : (writeBit b s).output = s.output ++ [setBit s.wbuf (7 - s.wcnt.toNat) b] := by
        rw [hs]; exact sinkPut_output h.sink _
      rw [State.bitsWritten, ho, hs]
      rw [h7', show 7 + 1 = 8 from rfl, topBits_eight] at htop
      simp only [List.flatMap_append, List.flatMap_singleton, State.bitsWritten, List.append_assoc, h7', ← htop]
      simp [topBits_zero]
  · have hs : writeBit b s = { s with wbuf := setBit s.wbuf (7 - s.wcnt.toNat) b, wcnt := s.wcnt + 1#3 } := by
      simp [writeBit, h7]
    have hlt : s.wcnt.toNat < 7 := by
      rcases Nat.lt_or_ge s.wcnt.toNat 7 with hlt | hge
      · exact hlt
      · exact absurd (BitVec.eq_of_toNat_eq (by simp; omega)) h7
    refine ⟨⟨?_, ?_⟩, ?_⟩
    · rw [hs]; exact h.sink
    · rw [hs]
      intro j hj
      have hj' : j + (s.wcnt.toNat + 1) < 8 := by rwa [← wcnt_succ h7]
      show (setBit _ _ _).getLsbD j = false
      rw [setBit_getLsbD _ _ _ _ (by omega), if_neg (by omega)]
      exact h.pad j (by omega)
    · rw [hs]
      show s.output.flatMap byteBits ++ topBits _ (s.wcnt + 1#3).toNat = _
      rw [wcnt_succ h7, htop, State.bitsWritten, List.append_assoc]

theorem writeBits_spec {s : State} (h : WriterOk s) (bs : List Bool) :
    WriterOk (writeBits bs s) ∧ (writeBits bs s).bitsWritten = s.bitsWritten ++ bs := by
  induction bs generalizing s with
  | nil => simpa [writeBits] using h
  | cons b rest ih =>
    obtain ⟨h1, e1⟩ := writeBit_spec h b
    obtain ⟨h2, e2⟩ := ih h1
    exact ⟨h2, by rw [writeBits, e2, e1]; simp⟩

/-- Everything `Flush` does to the bit stream: the pending bits are padded with zeros to a whole byte (R102). -/
theorem flush_spec {s : State} (h : WriterOk s) :
    WriterOk (flush s) ∧ (flush s).wcnt = 0#3 ∧
      (flush s).output.flatMap byteBits = s.bitsWritten ++ List.replicate ((8 - s.wcnt.toNat) % 8) false := by
  by_cases h0 : s.wcnt = 0#3
  · have hs : flush s = s := by simp [flush, h0]
    rw [hs]
    exact ⟨h, h0, by simp [State.bitsWritten, h0, topBits_zero]⟩
  · have hs : flush s = { sinkPut s.wbuf s with wbuf := 0#8, wcnt := 0#3 } := by simp [flush, h0]
    have hc : s.wcnt.toNat < 8 := s.wcnt.isLt
    have hpos : 0 < s.wcnt.toNat := by
      rcases Nat.eq_zero_or_pos s.wcnt.toNat with h | h
      · exact absurd (BitVec.eq_of_toNat_eq (by simpa using h)) h0
      · exact h
    have ho : (flush s).output = s.output ++ [s.wbuf] := by rw [hs]; exact sinkPut_output h.sink _
    refine ⟨⟨?_, ?_⟩, ?_, ?_⟩
    · rw [hs]; exact sinkPut_covers h.sink _
    · rw [hs]; intro j _; simp
    · rw [hs]
    · rw [ho, List.flatMap_append, List.flatMap_singleton, State.bitsWritten, List.append_assoc]
      congr 1
      apply List.ext_getElem?
      intro i
      rw [Nat.mod_eq_of_lt (by omega)]
      by_cases hi : i < s.wcnt.toNat
      · rw [List.getElem?_append_left (by rw [topBits_length _ _ (by omega)]; exact hi),
          topBits_getElem _ hi (by omega), byteBits_getElem _ _ (by omega)]
      · rw [List.getElem?_append_right (by rw [topBits_length _ _ (by omega)]; omega), topBits_length _ _ (by omega)]
        by_cases h8 : i < 8
        · rw [byteBits_getElem _ _ h8, h.pad _ (by omega), List.getElem?_replicate, if_pos (by omega)]
        · rw [List.getElem?_eq_none (by rw [byteBits_length]; omega), List.getElem?_replicate, if_neg (by omega)]

/-! ### The reader -/

/-- The reader's own invariant: SRC holds the addresses below SLEN, and RCNT is at most 7 (R30, R31). -/
structure ReaderOk (s : State) : Prop where
  source : s.src.covers s.slen
  count : s.rcnt.toNat ≤ 7

/-- `t` is `s` but for what the reader holds and the source cursor. -/
def ReaderOnly (s t : State) : Prop := t = { s with rbuf := t.rbuf, rcnt := t.rcnt, spos := t.spos }

theorem ReaderOnly.refl (s : State) : ReaderOnly s s := rfl

theorem ReaderOnly.trans {s t u : State} (h1 : ReaderOnly s t) (h2 : ReaderOnly t u) : ReaderOnly s u := by
  unfold ReaderOnly at *
  rw [h2, h1]

theorem rcnt_pred {c : BitVec 4} (h : ¬c = 0#4) : (c - 1#4).toNat = c.toNat - 1 := by bv_omega

theorem rcnt_pos {c : BitVec 4} (h : ¬c = 0#4) : 0 < c.toNat := by
  rcases Nat.eq_zero_or_pos c.toNat with h' | h'
  · exact absurd (BitVec.eq_of_toNat_eq (by simpa using h')) h
  · exact h'

/-- Everything `ReadBit` can do: deliver the first of the bits left, or raise E_EOS with nothing changed when no bit
is left (R103). -/
theorem readBit_cases {s : State} (h : ReaderOk s) :
    (s.bitsLeft = [] ∧ s.rcnt = 0#4 ∧ s.slen ≤ s.spos ∧ readBit s = .err .eos s) ∨
    (∃ b t, readBit s = .ok b t ∧ s.bitsLeft = b :: t.bitsLeft ∧ ReaderOk t ∧ ReaderOnly s t) := by
  by_cases h0 : s.rcnt = 0#4
  · rcases srcNext_cases h.source with ⟨hle, he⟩ | ⟨v, hlt, hv, he⟩
    · refine .inl ⟨?_, h0, hle, ?_⟩
      · have : s.src.bytes.length ≤ s.spos := by rw [bytes_length, covers_length h.source]; exact hle
        simp [State.bitsLeft, h0, lowBits_zero, List.drop_eq_nil_of_le this]
      · simp [readBit, refill, h0, he]
    · refine .inr ⟨v.getLsbD 7, { s with spos := s.spos + 1, rbuf := v, rcnt := 7#4 }, ?_, ?_, ⟨h.source, ?_⟩, rfl⟩
      · simp only [readBit, refill, h0, if_true, he, bind_ok]
        rfl
      · have hd : s.src.bytes.drop s.spos = v :: s.src.bytes.drop (s.spos + 1) := by
          obtain ⟨hl, hg⟩ := List.getElem?_eq_some_iff.1 hv
          rw [List.drop_eq_getElem_cons hl, hg]
        simp only [State.bitsLeft, h0, hd]
        show [] ++ _ = v.getLsbD 7 :: (lowBits v 7 ++ _)
        rw [List.flatMap_cons, ← List.cons_append, ← lowBits_succ v (by omega)]
        rfl
      · show (7#4).toNat ≤ 7
        decide
  · have hp := rcnt_pos h0
    have hpred := rcnt_pred h0
    refine .inr ⟨s.rbuf.getLsbD (s.rcnt.toNat - 1), { s with rcnt := s.rcnt - 1#4 }, ?_, ?_, ⟨h.source, ?_⟩, rfl⟩
    · simp [readBit, refill, h0]
    · simp only [State.bitsLeft, hpred]
      have hl := lowBits_succ s.rbuf (n := s.rcnt.toNat - 1) (by have := h.count; omega)
      rw [Nat.sub_add_cancel hp] at hl
      rw [hl]
      rfl
    · show (s.rcnt - 1#4).toNat ≤ 7
      rw [hpred]
      have := h.count
      omega

theorem readBit_some {s : State} (h : ReaderOk s) {b : Bool} {rest : List Bool} (hb : s.bitsLeft = b :: rest) :
    ∃ t, readBit s = .ok b t ∧ t.bitsLeft = rest ∧ ReaderOk t ∧ ReaderOnly s t := by
  rcases readBit_cases h with ⟨hn, -⟩ | ⟨b', t, he, hl, hr, ho⟩
  · rw [hn] at hb; cases hb
  · rw [hb] at hl
    cases hl
    exact ⟨t, he, rfl, hr, ho⟩

theorem readBit_none {s : State} (h : ReaderOk s) (hb : s.bitsLeft = []) : readBit s = .err .eos s := by
  rcases readBit_cases h with ⟨-, -, -, he⟩ | ⟨b', t, he, hl, hr, ho⟩
  · exact he
  · rw [hb] at hl; cases hl

/-- Everything `repeat n times: v <- v[6:0] :: ReadBit()` can do (R104). -/
theorem readInto_cases {s : State} (h : ReaderOk s) (n : Nat) (v : Byte) :
    (∃ bs t, bs.length = n ∧ readInto n v s = .ok (bs.foldl shiftIn v) t ∧ s.bitsLeft = bs ++ t.bitsLeft ∧
      ReaderOk t ∧ ReaderOnly s t) ∨
    (∃ t, s.bitsLeft.length < n ∧ readInto n v s = .err .eos t ∧ t.bitsLeft = [] ∧ t.rcnt = 0#4 ∧ t.slen ≤ t.spos ∧
      ReaderOk t ∧ ReaderOnly s t) := by
  induction n generalizing s v with
  | zero => exact .inl ⟨[], s, rfl, rfl, rfl, h, rfl⟩
  | succ n ih =>
    rcases readBit_cases h with ⟨hn, hc, hle, he⟩ | ⟨b, t, he, hl, hr, ho⟩
    · exact .inr ⟨s, by simp [hn], by simp [readInto, he], hn, hc, hle, h, rfl⟩
    · rcases ih hr (shiftIn v b) with ⟨bs, u, hlen, hu, hbits, hru, hou⟩ | ⟨u, hlen, hu, hbits, hc, hle, hru, hou⟩
      · exact .inl ⟨b :: bs, u, by simp [hlen], by simp [readInto, he, hu], by simp [hl, hbits], hru, ho.trans hou⟩
      · exact .inr ⟨u, by simp [hl]; omega, by simp [readInto, he, hu], hbits, hc, hle, hru, ho.trans hou⟩

/-- Everything `ReadByte` can do: deliver the byte whose bits are the next eight, or raise E_EOS when fewer are left,
which are then consumed (R104). -/
theorem readByte_cases {s : State} (h : ReaderOk s) :
    (∃ v t, readByte s = .ok v t ∧ s.bitsLeft = byteBits v ++ t.bitsLeft ∧ ReaderOk t ∧ ReaderOnly s t) ∨
    (∃ t, s.bitsLeft.length < 8 ∧ readByte s = .err .eos t ∧ t.bitsLeft = [] ∧ t.rcnt = 0#4 ∧ t.slen ≤ t.spos ∧
      ReaderOk t ∧ ReaderOnly s t) := by
  rcases readInto_cases h 8 0#8 with ⟨bs, t, hlen, he, hl, hr, ho⟩ | hE
  · refine .inl ⟨byteOfBits bs, t, he, ?_, hr, ho⟩
    rw [hl]
    match bs, hlen with
    | [b7, b6, b5, b4, b3, b2, b1, b0], _ => rw [byteBits_byteOfBits]
  · exact .inr hE

theorem readByte_some {s : State} (h : ReaderOk s) {v : Byte} {rest : List Bool}
    (hb : s.bitsLeft = byteBits v ++ rest) :
    ∃ t, readByte s = .ok v t ∧ t.bitsLeft = rest ∧ ReaderOk t ∧ ReaderOnly s t := by
  rcases readByte_cases h with ⟨w, t, he, hl, hr, ho⟩ | ⟨t, hlen, -⟩
  · rw [hb] at hl
    obtain ⟨hvw, hrest⟩ := List.append_inj hl (by simp [byteBits_length])
    cases byteBits_injective hvw
    exact ⟨t, he, hrest.symm, hr, ho⟩
  · rw [hb] at hlen
    simp [byteBits_length] at hlen

end Sys2Proof.Laws
end

