-- ==== Sys2Proof/Laws/Frequency.lean ====
section
/-! SUPPORT. The frequency analyzer (R120 to R125): everything `Count` and the loop of `Analyze` can do. -/

namespace Sys2Proof.Laws

open Sys2Proof.Machine

/-! ### Reading the table -/

theorem freqAt_setFreq (s : State) (v w : Byte) (n : Count) :
    (s.setFreq v n).freqAt w = if w = v then n else s.freqAt w := by
  by_cases h : w = v
  · subst h
    simp [State.freqAt, State.setFreq]
  · have h' : v.toNat ≠ w.toNat := fun e => h (BitVec.eq_of_toNat_eq e.symm)
    simp [State.freqAt, State.setFreq, h, h']

theorem freqAt_of_freq {s t : State} (h : t.freq = s.freq) (v : Byte) : t.freqAt v = s.freqAt v := by
  simp [State.freqAt, h]

theorem freqAt_freqClear (s : State) (v : Byte) : (freqClear s).freqAt v = 0#32 := by
  simp [State.freqAt, freqClear]

/-! ### Counting -/

/-- `t` is `s` but for FREQ, LEN and the source cursor. -/
def CountOnly (s t : State) : Prop := t = { s with freq := t.freq, len := t.len, spos := t.spos }

theorem CountOnly.refl (s : State) : CountOnly s s := rfl

theorem CountOnly.trans {s t u : State} (h1 : CountOnly s t) (h2 : CountOnly t u) : CountOnly s u := by
  unfold CountOnly at *
  rw [h2, h1]

theorem count_succ {c : Count} (h : c ≠ Config.countMax) : (c + 1#32).toNat = c.toNat + 1 := by
  unfold Config.countMax at h
  bv_omega

theorem lt_countMax {c : Count} (h : c ≠ Config.countMax) : c.toNat + 1 < 2 ^ 32 := by
  unfold Config.countMax at h
  bv_omega

theorem countMax_toNat : Config.countMax.toNat = 2 ^ 32 - 1 := rfl

/-- `Count` when both counters have room (R121). -/
theorem count_ok {v : Byte} {s : State} (hl : s.len ≠ Config.countMax) (hf : s.freqAt v ≠ Config.countMax) :
    count v s = .ok () { s.setFreq v (s.freqAt v + 1#32) with len := s.len + 1#32 } := by
  simp [count, hl, hf]

/-- `Count` when a counter is full (R121): nothing is written. -/
theorem count_err {v : Byte} {s : State} (h : s.len = Config.countMax ∨ s.freqAt v = Config.countMax) :
    count v s = .err .countOverflow s := if_pos h

/-- No counter is ahead of LEN: what holds while only `Count` has written them (R121). -/
def Counted (s : State) : Prop := ∀ v, (s.freqAt v).toNat ≤ s.len.toNat

/-- Everything the loop of `Analyze` can do from a table no counter of which is ahead of LEN (R124): count every byte
left, or, when LEN would pass its greatest value, raise E_COUNT_OVERFLOW with the byte that did not fit fetched. -/
theorem countAll_spec {n : Nat} {s : State} (hs : s.src.covers s.slen) (hc : Counted s) (hn : s.slen - s.spos ≤ n)
    (hp : s.spos ≤ s.slen) :
    (s.len.toNat + (s.slen - s.spos) < 2 ^ 32 ∧ ∃ t, countAll n s = .ok () t ∧ CountOnly s t ∧ Counted t ∧
      t.len.toNat = s.len.toNat + (s.slen - s.spos) ∧ t.spos = s.slen ∧
      ∀ v, (t.freqAt v).toNat = (s.freqAt v).toNat + (s.src.bytes.drop s.spos).count v) ∨
    (2 ^ 32 ≤ s.len.toNat + (s.slen - s.spos) ∧ ∃ t, countAll n s = .err .countOverflow t ∧ CountOnly s t ∧
      t.len = Config.countMax ∧ t.spos = s.spos + (2 ^ 32 - 1 - s.len.toNat) + 1 ∧
      ∀ v, (t.freqAt v).toNat =
        (s.freqAt v).toNat + ((s.src.bytes.drop s.spos).take (2 ^ 32 - 1 - s.len.toNat)).count v) := by
  have hlen := s.len.isLt
  induction n generalizing s with
  | zero =>
    have hz : s.slen - s.spos = 0 := by omega
    have hd : s.src.bytes.drop s.spos = [] :=
      List.drop_eq_nil_of_le (by rw [bytes_length, covers_length hs]; omega)
    exact .inl ⟨by omega, s, rfl, rfl, hc, by omega, by omega, fun v => by simp [hd]⟩
  | succ n ih =>
    rcases srcNext_cases hs with ⟨hle, -⟩ | ⟨v, hlt, hv, he⟩
    · have hd : s.src.bytes.drop s.spos = [] :=
        List.drop_eq_nil_of_le (by rw [bytes_length, covers_length hs]; omega)
      refine .inl ⟨by omega, s, ?_, rfl, hc, by omega, by omega, fun v => by simp [hd]⟩
      simp [countAll, Nat.not_lt.2 hle]
    · have hd : s.src.bytes.drop s.spos = v :: s.src.bytes.drop (s.spos + 1) := by
        obtain ⟨hl, hg⟩ := List.getElem?_eq_some_iff.1 hv
        rw [List.drop_eq_getElem_cons hl, hg]
      let a : State := { s with spos := s.spos + 1 }
      by_cases hm : s.len = Config.countMax
      · have hl : s.len.toNat = 2 ^ 32 - 1 := by rw [hm]; rfl
        refine .inr ⟨by omega, a, ?_, rfl, hm, by rw [hl]; rfl, fun v => ?_⟩
        · simp only [countAll, if_pos hlt, he, bind_ok]
          rw [count_err (s := a) (.inl hm)]
          rfl
        · rw [hl]
          rfl
      · have hroom := lt_countMax hm
        have hf : a.freqAt v ≠ Config.countMax := by
          intro h
          have h1 := hc v
          have h2 : (s.freqAt v).toNat = 2 ^ 32 - 1 := by
            have : s.freqAt v = Config.countMax := h
            rw [this]; rfl
          omega
        let b : State := { a.setFreq v (a.freqAt v + 1#32) with len := a.len + 1#32 }
        have hb : count v a = .ok () b := count_ok hm hf
        have hob : CountOnly s b := rfl
        have hbl : b.len.toNat = s.len.toNat + 1 := count_succ hm
        have hbf : ∀ w, (b.freqAt w).toNat = (s.freqAt w).toNat + if w = v then 1 else 0 := by
          intro w
          have : b.freqAt w = if w = v then a.freqAt v + 1#32 else a.freqAt w := freqAt_setFreq a v w _
          rw [this]
          split
          · rename_i hw
            subst hw
            exact count_succ hf
          · rfl
        have hcb : Counted b := by
          intro w
          rw [hbf, hbl]
          have := hc w
          split <;> omega
        have hstep : countAll (n + 1) s = countAll n b := by
          simp only [countAll, if_pos hlt, he, bind_ok]
          rw [hb]
          rfl
        have hcount : ∀ w, (s.freqAt w).toNat + (s.src.bytes.drop s.spos).count w =
            (b.freqAt w).toNat + (b.src.bytes.drop b.spos).count w := by
          intro w
          rw [hbf, hd, List.count_cons]
          show _ = _ + (s.src.bytes.drop (s.spos + 1)).count w
          by_cases hw : w = v
          · subst hw; simp; omega
          · simp [hw, Ne.symm hw]
        rw [hstep]
        have hbs : b.slen - b.spos + 1 = s.slen - s.spos := by show s.slen - (s.spos + 1) + 1 = _; omega
        rcases ih (s := b) hs hcb (by omega) hlt b.len.isLt with ⟨hfit, t, et, o, ct, lt, pt, ft⟩ | ⟨hno, t, et, o, lt, pt, ft⟩
        · refine .inl ⟨by omega, t, et, hob.trans o, ct, by omega, pt, fun w => ?_⟩
          rw [ft, hcount]
        · refine .inr ⟨by omega, t, et, hob.trans o, lt, ?_, fun w => ?_⟩
          · rw [pt, hbl]
            show s.spos + 1 + _ + 1 = _
            omega
          · rw [ft, hbf, hd, hbl]
            obtain ⟨m, hm'⟩ : ∃ m, 2 ^ 32 - 1 - s.len.toNat = m + 1 := ⟨2 ^ 32 - 1 - s.len.toNat - 1, by omega⟩
            rw [hm', show 2 ^ 32 - 1 - (s.len.toNat + 1) = m by omega, List.take_succ_cons, List.count_cons]
            show _ + ((s.src.bytes.drop (s.spos + 1)).take m).count w = _
            by_cases hw : w = v
            · subst hw; simp; omega
            · simp [hw, Ne.symm hw]

/-- Everything `Analyze` can do when SRC holds SLEN bytes (R124, R206). -/
theorem analyze_spec {s : State} (hs : s.src.covers s.slen) :
    (s.slen < 2 ^ 32 ∧ ∃ t, analyze s = .ok () t ∧ CountOnly s t ∧ Counted t ∧ t.len.toNat = s.slen ∧ t.spos = 0 ∧
      ∀ v, (t.freqAt v).toNat = s.src.bytes.count v) ∨
    (2 ^ 32 ≤ s.slen ∧ ∃ t, analyze s = .err .countOverflow t ∧ CountOnly s t ∧ t.len = Config.countMax ∧
      t.spos = 2 ^ 32 ∧ ∀ v, (t.freqAt v).toNat = (s.src.bytes.take (2 ^ 32 - 1)).count v) := by
  let a : State := { freqClear s with spos := 0 }
  have hf : ∀ v, a.freqAt v = 0#32 := fun v => freqAt_freqClear s v
  have hc : Counted a := fun v => by rw [hf]; exact Nat.zero_le _
  have hl : a.len.toNat = 0 := rfl
  have hoa : CountOnly s a := rfl
  have hsz : a.slen - a.spos = s.slen := rfl
  rcases countAll_spec (n := a.slen) (s := a) hs hc (Nat.sub_le _ _) (Nat.zero_le _) with
    ⟨hfit, t, et, o, ct, lt, -, ft⟩ | ⟨hno, t, et, o, lt, pt, ft⟩
  · refine .inl ⟨?_, { t with spos := 0 }, ?_, ?_, ct, ?_, rfl, fun v => ?_⟩
    · rw [hl, hsz] at hfit
      omega
    · show (countAll a.slen a).bind _ = _
      rw [et]
      rfl
    · have : CountOnly s t := hoa.trans o
      unfold CountOnly at *
      rw [this]
    · show t.len.toNat = _
      rw [lt, hl, hsz]
      exact Nat.zero_add _
    · have := ft v
      rw [hf] at this
      show (t.freqAt v).toNat = _
      rw [this]
      exact Nat.zero_add _
  · refine .inr ⟨?_, t, ?_, hoa.trans o, lt, ?_, fun v => ?_⟩
    · rw [hl, hsz] at hno
      omega
    · show (countAll a.slen a).bind _ = _
      rw [et]
      rfl
    · rw [pt, hl]
      show 0 + _ + 1 = _
      omega
    · rw [ft, hf, hl]
      exact Nat.zero_add _

/-- Counting every symbol of a list without repeats that holds all of `xs` counts each element once. -/
theorem sum_count {L : List Byte} (hn : L.Nodup) (xs : List Byte) (h : ∀ x ∈ xs, x ∈ L) :
    (L.map fun v => xs.count v).sum = xs.length := by
  induction xs with
  | nil => simp
  | cons x xs ih =>
    have ih := ih fun y hy => h y (.tail _ hy)
    have hx := h x (.head _)
    have : ∀ L : List Byte, L.Nodup → x ∈ L →
        (L.map fun v => (x :: xs).count v).sum = (L.map fun v => xs.count v).sum + 1 := by
      intro L hL hxL
      induction L with
      | nil => cases hxL
      | cons y ys ihL =>
        rw [List.nodup_cons] at hL
        by_cases hxy : x = y
        · subst hxy
          have : ys.map (fun v => (x :: xs).count v) = ys.map fun v => xs.count v :=
            List.map_congr_left fun v hv => List.count_cons_of_ne (by rintro rfl; exact hL.1 hv)
          simp only [List.map_cons, List.sum_cons, this, List.count_cons_self]; omega
        · have := ihL hL.2 (by simpa [hxy] using hxL)
          simp only [List.map_cons, List.sum_cons, this, List.count_cons_of_ne hxy]; omega
    rw [this L hn hx, ih, List.length_cons]

end Sys2Proof.Laws
end

