-- ==== Sys2Proof/Laws/Tree.lean ====
section
/-! SUPPORT. Trees in the arena (R22, R34, R141), and what the walks of CODEGEN, SERIALIZE and DECSYM do on one
(R151, R160, R176). -/

namespace Sys2Proof.Laws

open Sys2Proof.Machine

/-! ### Shapes -/

theorem symbols_pos (t : CodeTree) : 0 < t.symbols.length := by
  induction t with
  | leaf v => simp [CodeTree.symbols]
  | fork l r ihl ihr => simp [CodeTree.symbols]; omega

/-- k leaves, k - 1 internal nodes (R141). -/
theorem size_eq (t : CodeTree) : t.size + 1 = 2 * t.symbols.length := by
  induction t with
  | leaf v => rfl
  | fork l r ihl ihr => simp [CodeTree.size, CodeTree.symbols]; omega

theorem size_pos (t : CodeTree) : 0 < t.size := by have := size_eq t; have := symbols_pos t; omega

/-- 10k - 1 bits for k leaves (R78). -/
theorem bits_length (t : CodeTree) : t.bits.length + 1 = 10 * t.symbols.length := by
  induction t with
  | leaf v => rfl
  | fork l r ihl ihr => simp [CodeTree.bits, CodeTree.symbols, internalBits]; omega

theorem paths_symbols (t : CodeTree) : t.paths.map Prod.fst = t.symbols := by
  induction t with
  | leaf v => rfl
  | fork l r ihl ihr =>
    simp only [CodeTree.paths, CodeTree.symbols, List.map_append, List.map_map]
    rw [← ihl, ← ihr]
    rfl

/-- A path has fewer edges than the tree has leaves (R141). -/
theorem path_length {t : CodeTree} {c : Byte × List Bool} (h : c ∈ t.paths) : c.2.length < t.symbols.length := by
  induction t generalizing c with
  | leaf v =>
    simp only [CodeTree.paths, List.mem_singleton] at h
    subst h
    simp [CodeTree.symbols]
  | fork l r ihl ihr =>
    simp only [CodeTree.paths, List.mem_append, List.mem_map] at h
    have := symbols_pos l
    have := symbols_pos r
    rcases h with ⟨d, hd, rfl⟩ | ⟨d, hd, rfl⟩
    · have := ihl hd
      simp [CodeTree.symbols]; omega
    · have := ihr hd
      simp [CodeTree.symbols]; omega

/-- No leaf's path is a prefix of another leaf's path: equal prefixes are the same leaf (R80, R152). -/
theorem paths_prefix_free {t : CodeTree} {c d : Byte × List Bool} (hc : c ∈ t.paths) (hd : d ∈ t.paths)
    (h : c.2 <+: d.2) : c = d := by
  induction t generalizing c d with
  | leaf v =>
    simp only [CodeTree.paths, List.mem_singleton] at hc hd
    rw [hc, hd]
  | fork l r ihl ihr =>
    simp only [CodeTree.paths, List.mem_append, List.mem_map] at hc hd
    rcases hc with ⟨c', hc', rfl⟩ | ⟨c', hc', rfl⟩ <;> rcases hd with ⟨d', hd', rfl⟩ | ⟨d', hd', rfl⟩
    · have := ihl hc' hd' (List.cons_prefix_cons.1 h).2
      rw [this]
    · exact absurd (List.cons_prefix_cons.1 h).1 (by simp)
    · exact absurd (List.cons_prefix_cons.1 h).1 (by simp)
    · have := ihr hc' hd' (List.cons_prefix_cons.1 h).2
      rw [this]

theorem layout_length (t : CodeTree) (i : Nat) : (t.layout i).length = t.size := by
  induction t generalizing i with
  | leaf v => rfl
  | fork l r ihl ihr => simp [CodeTree.layout, CodeTree.size, ihl, ihr]; omega

/-! ### The arena -/

theorem nodeAt_append {ns : List (Option Node)} {i : Nat} {n : Node} (h : nodeAt ns i = some n)
    (xs : List (Option Node)) : nodeAt (ns ++ xs) i = some n := by
  simp only [nodeAt, Option.join_eq_some_iff] at h ⊢
  rw [List.getElem?_append_left (List.getElem?_eq_some_iff.1 h).1]
  exact h

theorem nodeAt_lt {ns : List (Option Node)} {i : Nat} {n : Node} (h : nodeAt ns i = some n) : i < ns.length := by
  simp only [nodeAt, Option.join_eq_some_iff] at h
  exact (List.getElem?_eq_some_iff.1 h).1

theorem nodeAt_length (ns : List (Option Node)) (n : Node) (xs : List (Option Node)) :
    nodeAt (ns ++ some n :: xs) ns.length = some n := by
  simp [nodeAt]

/-- A tree stays where it is when the arena grows and the bound is raised. -/
theorem treeOf_mono {ns : List (Option Node)} {n m i : Nat} {t : CodeTree} (h : treeOf ns n i = some t) (hm : n ≤ m)
    (xs : List (Option Node)) : treeOf (ns ++ xs) m i = some t := by
  induction n generalizing m i t with
  | zero => simp [treeOf] at h
  | succ n ih =>
    obtain ⟨m, rfl⟩ : ∃ k, m = k + 1 := ⟨m - 1, by omega⟩
    simp only [treeOf] at h ⊢
    split at h
    · cases h
    · rename_i hn; rw [nodeAt_append hn]; exact h
    · rename_i l r w ms hn
      rw [nodeAt_append hn]
      split at h
      · rename_i a b ha hb
        have hm' : n ≤ m := by omega
        simp only [ih ha hm', ih hb hm']
        exact h
      · cases h

theorem reach_mono {ns : List (Option Node)} {n m i : Nat} {is : List Nat} (h : reach ns n i = some is) (hm : n ≤ m)
    (xs : List (Option Node)) : reach (ns ++ xs) m i = some is := by
  induction n generalizing m i is with
  | zero => simp [reach] at h
  | succ n ih =>
    obtain ⟨m, rfl⟩ : ∃ k, m = k + 1 := ⟨m - 1, by omega⟩
    simp only [reach] at h ⊢
    split at h
    · cases h
    · rename_i hn; rw [nodeAt_append hn]; exact h
    · rename_i l r w ms hn
      rw [nodeAt_append hn]
      split at h
      · rename_i a b ha hb
        have hm' : n ≤ m := by omega
        simp only [ih ha hm', ih hb hm']
        exact h
      · cases h

/-- Where the indices are finite the shape exists, with as many nodes. -/
theorem treeOf_of_reach {ns : List (Option Node)} {n i : Nat} {is : List Nat} (h : reach ns n i = some is) :
    ∃ t, treeOf ns n i = some t ∧ t.size = is.length := by
  induction n generalizing i is with
  | zero => simp [reach] at h
  | succ n ih =>
    simp only [reach] at h
    simp only [treeOf]
    split at h
    · cases h
    · rename_i v w ms hn
      cases h
      exact ⟨.leaf v, rfl, rfl⟩
    · rename_i l r w ms hn
      split at h
      · rename_i a b ha hb
        cases h
        obtain ⟨tl, hl, el⟩ := ih ha
        obtain ⟨tr, hr, er⟩ := ih hb
        refine ⟨.fork tl tr, by simp only [hl, hr], ?_⟩
        simp [CodeTree.size, el, er]; omega
      · cases h

theorem reach_of_treeOf {ns : List (Option Node)} {n i : Nat} {t : CodeTree} (h : treeOf ns n i = some t) :
    ∃ is, reach ns n i = some is ∧ is.length = t.size := by
  induction n generalizing i t with
  | zero => simp [treeOf] at h
  | succ n ih =>
    simp only [treeOf] at h
    simp only [reach]
    split at h
    · cases h
    · rename_i v w ms hn
      cases h
      exact ⟨[i], rfl, rfl⟩
    · rename_i l r w ms hn
      split at h
      · rename_i a b ha hb
        cases h
        obtain ⟨tl, hl, el⟩ := ih ha
        obtain ⟨tr, hr, er⟩ := ih hb
        refine ⟨i :: (tl ++ tr), by simp only [hl, hr], ?_⟩
        simp [CodeTree.size, el, er]; omega
      · cases h

theorem reach_lt {ns : List (Option Node)} {n i : Nat} {is : List Nat} (h : reach ns n i = some is) :
    ∀ x ∈ is, x < ns.length := by
  induction n generalizing i is with
  | zero => simp [reach] at h
  | succ n ih =>
    simp only [reach] at h
    split at h
    · cases h
    · rename_i hn
      cases h
      simpa using nodeAt_lt hn
    · rename_i l r w ms hn
      split at h
      · rename_i a b ha hb
        cases h
        intro x hx
        rcases List.mem_cons.1 hx with rfl | hx
        · exact nodeAt_lt hn
        · rcases List.mem_append.1 hx with hx | hx
          · exact ih ha x hx
          · exact ih hb x hx
      · cases h

theorem reach_self {ns : List (Option Node)} {n i : Nat} {is : List Nat} (h : reach ns n i = some is) :
    i ∈ is ∧ ∃ nd, nodeAt ns i = some nd := by
  cases n with
  | zero => simp [reach] at h
  | succ n =>
    simp only [reach] at h
    split at h
    · cases h
    · rename_i hn; cases h; exact ⟨List.mem_cons_self, _, hn⟩
    · rename_i hn
      split at h
      · cases h; exact ⟨List.mem_cons_self, _, hn⟩
      · cases h

/-- Different indices below a bound are at most that many. -/
theorem nodup_length_le {is : List Nat} {n : Nat} (hd : is.Nodup) (hlt : ∀ x ∈ is, x < n) : is.length ≤ n := by
  have hsub : is ⊆ List.range n := fun x hx => List.mem_range.2 (hlt x hx)
  simpa using (hd.subperm hsub).length_le

/-- A tree whose indices are all different fits the arena: its codes have fewer bits than half the entries (R141). -/
theorem path_length_le {ns : List (Option Node)} {n i : Nat} {is : List Nat} {t : CodeTree} {c : Byte × List Bool}
    (hr : reach ns n i = some is) (hd : is.Nodup) (ht : treeOf ns n i = some t) (hc : c ∈ t.paths) :
    2 * c.2.length < ns.length := by
  obtain ⟨t', ht', hs⟩ := treeOf_of_reach hr
  rw [ht] at ht'
  cases ht'
  have := nodup_length_le hd (reach_lt hr)
  have := size_eq t
  have := path_length hc
  omega

/-! ### The walks -/

theorem writerOnly_node {s t : State} (h : WriterOnly s t) : t.node = s.node := by rw [h]

theorem readerOnly_node {s t : State} (h : ReaderOnly s t) : t.node = s.node := by rw [h]

/-- `SerNode` writes the tree's tokens and nothing else (R160). -/
theorem serNode_spec {n i : Nat} {s : State} {t : CodeTree} (h : treeOf s.node n i = some t) :
    serNode n i s = .ok () (writeBits t.bits s) := by
  induction n generalizing i s t with
  | zero => simp [treeOf] at h
  | succ n ih =>
    simp only [treeOf] at h
    simp only [serNode]
    split at h
    · cases h
    · rename_i v w ms hn
      cases h
      try rw [hn]
      rfl
    · rename_i l r w ms hn
      split at h
      · rename_i a b ha hb
        cases h
        try rw [hn]
        have h1 : (putInternal s).node = s.node := writerOnly_node (writeBit_only _ _)
        have h2 : (writeBits a.bits (putInternal s)).node = s.node := (writerOnly_node (writeBits_only _ _)).trans h1
        simp only [ih (s := putInternal s) (by rw [h1]; exact ha), bind_ok,
          ih (s := writeBits a.bits (putInternal s)) (by rw [h2]; exact hb)]
        rw [CodeTree.bits, writeBits_append, writeBits_append]
        rfl
      · cases h

/-- Record codes one after the other. -/
def setCodes (cs : List (Byte × List Bool)) (s : State) : State := cs.foldl (fun s c => s.setCode c.1 c.2) s

theorem setCodes_append (xs ys : List (Byte × List Bool)) (s : State) :
    setCodes (xs ++ ys) s = setCodes ys (setCodes xs s) := List.foldl_append

theorem setCodes_only (cs : List (Byte × List Bool)) (s : State) :
    setCodes cs s = { s with code := (setCodes cs s).code } := by
  induction cs generalizing s with
  | nil => rfl
  | cons c rest ih =>
    show setCodes rest (s.setCode c.1 c.2) = _
    rw [ih]
    rfl

theorem setCodes_node (cs : List (Byte × List Bool)) (s : State) : (setCodes cs s).node = s.node := by
  rw [setCodes_only]

theorem codeAt_setCode (s : State) (v w : Byte) (p : List Bool) :
    (s.setCode v p).codeAt w = if v = w then some p else s.codeAt w := by
  by_cases h : v = w
  · subst h
    simp [State.codeAt, State.setCode]
  · have h' : v.toNat ≠ w.toNat := fun e => h (BitVec.eq_of_toNat_eq e)
    rw [if_neg h]
    simp [State.codeAt, State.setCode, h']

/-- A code found after recording is one of those recorded, or was there before. -/
theorem codeAt_setCodes {cs : List (Byte × List Bool)} {s : State} {v : Byte} {p : List Bool}
    (h : (setCodes cs s).codeAt v = some p) : (v, p) ∈ cs ∨ s.codeAt v = some p := by
  induction cs generalizing s with
  | nil => exact .inr h
  | cons c rest ih =>
    rcases ih (s := s.setCode c.1 c.2) h with h | h
    · exact .inl (List.mem_cons_of_mem _ h)
    · rw [codeAt_setCode] at h
      split at h
      · rename_i hv
        cases h
        exact .inl (by rw [← hv]; exact List.mem_cons_self)
      · exact .inr h

/-- Every symbol recorded has a code afterwards. -/
theorem codeAt_setCodes_isSome {cs : List (Byte × List Bool)} {s : State} {v : Byte}
    (h : v ∈ cs.map Prod.fst ∨ ∃ p, s.codeAt v = some p) : ∃ p, (setCodes cs s).codeAt v = some p := by
  induction cs generalizing s with
  | nil =>
    rcases h with h | h
    · simp at h
    · exact h
  | cons c rest ih =>
    apply ih (s := s.setCode c.1 c.2)
    rw [codeAt_setCode]
    by_cases hv : c.1 = v
    · exact .inr ⟨c.2, if_pos hv⟩
    · rw [if_neg hv]
      rcases h with h | h
      · rcases List.mem_cons.1 h with h | h
        · exact absurd h.symm hv
        · exact .inl h
      · exact .inr h

/-- `Walk` records each leaf's path, left to right, and nothing else (R151). -/
theorem walk_spec {n i : Nat} {p : List Bool} {s : State} {t : CodeTree} (h : treeOf s.node n i = some t) :
    walk n i p s = .ok () (setCodes (t.paths.map fun c => (c.1, p ++ c.2)) s) := by
  induction n generalizing i p s t with
  | zero => simp [treeOf] at h
  | succ n ih =>
    simp only [treeOf] at h
    simp only [walk]
    split at h
    · cases h
    · rename_i v w ms hn
      cases h
      try rw [hn]
      simp [CodeTree.paths, setCodes]
    · rename_i l r w ms hn
      split at h
      · rename_i a b ha hb
        cases h
        try rw [hn]
        simp only [ih ha, bind_ok]
        rw [ih (t := b) (by rw [setCodes_node]; exact hb)]
        simp only [CodeTree.paths, List.map_append, List.map_map, setCodes_append]
        congr 2
        · congr 1
          funext c
          simp
        · congr 1
          congr 1
          funext c
          simp
      · cases h

/-- The walk of `DecSym` along a leaf's path consumes that path and emits the leaf's symbol (R80, R176). -/
theorem decWalk_path {n i : Nat} {s : State} {t : CodeTree} (h : treeOf s.node n i = some t) (hr : ReaderOk s)
    {v : Byte} {p rest : List Bool} (hp : (v, p) ∈ t.paths) (hb : s.bitsLeft = p ++ rest) :
    ∃ u, decWalk n i s = .ok () (sinkPut v u) ∧ u.bitsLeft = rest ∧ ReaderOk u ∧ ReaderOnly s u := by
  induction n generalizing i s t p with
  | zero => simp [treeOf] at h
  | succ n ih =>
    simp only [treeOf] at h
    simp only [decWalk]
    split at h
    · cases h
    · rename_i hn
      cases h
      simp only [CodeTree.paths, List.mem_singleton, Prod.mk.injEq] at hp
      obtain ⟨rfl, rfl⟩ := hp
      try rw [hn]
      exact ⟨s, rfl, hb, hr, rfl⟩
    · rename_i l r w ms hn
      split at h
      · rename_i a b ha hb'
        cases h
        try rw [hn]
        simp only [CodeTree.paths, List.mem_append, List.mem_map, Prod.mk.injEq] at hp
        rcases hp with ⟨c, hc, rfl, rfl⟩ | ⟨c, hc, rfl, rfl⟩
        · obtain ⟨u, hu, hl, hru, hou⟩ := readBit_some hr hb
          obtain ⟨x, hx, hxl, hxr, hxo⟩ := ih (t := a) (s := u) (i := l) (by rw [readerOnly_node hou]; exact ha) hru hc hl
          exact ⟨x, by simpa [hu] using hx, hxl, hxr, hou.trans hxo⟩
        · obtain ⟨u, hu, hl, hru, hou⟩ := readBit_some hr hb
          obtain ⟨x, hx, hxl, hxr, hxo⟩ := ih (t := b) (s := u) (i := r) (by rw [readerOnly_node hou]; exact hb') hru hc hl
          exact ⟨x, by simpa [hu] using hx, hxl, hxr, hou.trans hxo⟩
      · cases h

/-- Everything the walk of `DecSym` can do on a tree: emit a leaf after its path, or raise E_EOS with all bits
consumed and nothing emitted (R176, R206). -/
theorem decWalk_cases {n i : Nat} {s : State} {t : CodeTree} (h : treeOf s.node n i = some t) (hr : ReaderOk s) :
    (∃ c ∈ t.paths, ∃ u, decWalk n i s = .ok () (sinkPut c.1 u) ∧ s.bitsLeft = c.2 ++ u.bitsLeft ∧ ReaderOk u ∧
      ReaderOnly s u) ∨
    (∃ u, decWalk n i s = .err .eos u ∧ u.bitsLeft = [] ∧ u.rcnt = 0#4 ∧ u.slen ≤ u.spos ∧ ReaderOk u ∧
      ReaderOnly s u) := by
  induction n generalizing i s t with
  | zero => simp [treeOf] at h
  | succ n ih =>
    simp only [treeOf] at h
    simp only [decWalk]
    split at h
    · cases h
    · rename_i hn
      cases h
      try rw [hn]
      exact .inl ⟨_, List.mem_singleton.2 rfl, s, rfl, rfl, hr, rfl⟩
    · rename_i l r w ms hn
      split at h
      · rename_i a b ha hb
        cases h
        try rw [hn]
        rcases readBit_cases hr with ⟨hl, hc, hle, he⟩ | ⟨d, u, he, hl, hru, hou⟩
        · exact .inr ⟨s, by simp [he], hl, hc, hle, hr, rfl⟩
        · have hnode := readerOnly_node hou
          cases d with
          | false =>
            rcases ih (s := u) (i := l) (t := a) (by rw [hnode]; exact ha) hru with
              ⟨c, hc, x, hx, hxl, hxr, hxo⟩ | ⟨x, hx, hxl, hxc, hxle, hxr, hxo⟩
            · refine .inl ⟨(c.1, false :: c.2), ?_, x, by simpa [he] using hx, by simp [hl, hxl], hxr, hou.trans hxo⟩
              exact List.mem_append_left _ (List.mem_map_of_mem (f := fun c => (c.1, false :: c.2)) hc)
            · exact .inr ⟨x, by simpa [he] using hx, hxl, hxc, hxle, hxr, hou.trans hxo⟩
          | true =>
            rcases ih (s := u) (i := r) (t := b) (by rw [hnode]; exact hb) hru with
              ⟨c, hc, x, hx, hxl, hxr, hxo⟩ | ⟨x, hx, hxl, hxc, hxle, hxr, hxo⟩
            · refine .inl ⟨(c.1, true :: c.2), ?_, x, by simpa [he] using hx, by simp [hl, hxl], hxr, hou.trans hxo⟩
              exact List.mem_append_right _ (List.mem_map_of_mem (f := fun c => (c.1, true :: c.2)) hc)
            · exact .inr ⟨x, by simpa [he] using hx, hxl, hxc, hxle, hxr, hou.trans hxo⟩
      · cases h

end Sys2Proof.Laws
end

