-- ==== Sys2Proof/Laws/TreeSerdes.lean ====
section
/-! SUPPORT. What the deserializer does (R162, R163): the arena it lays out for a tree in the stream, and everything
`DesNode` can do on any stream. -/

namespace Sys2Proof.Laws

open Sys2Proof.Machine

/-- `t` is `s` but for the arena, the reader and the source cursor. -/
def DesOnly (s t : State) : Prop := t = { s with node := t.node, rbuf := t.rbuf, rcnt := t.rcnt, spos := t.spos }

theorem DesOnly.refl (s : State) : DesOnly s s := rfl

theorem DesOnly.trans {s t u : State} (h1 : DesOnly s t) (h2 : DesOnly t u) : DesOnly s u := by
  unfold DesOnly at *
  rw [h2, h1]

theorem ReaderOnly.desOnly {s t : State} (h : ReaderOnly s t) : DesOnly s t := by
  unfold ReaderOnly at h
  unfold DesOnly
  rw [h]

theorem allocNode_desOnly (n : Option Node) (s : State) : DesOnly s (allocNode n s) := rfl

theorem writeNode_desOnly (i : Nat) (n : Node) (s : State) : DesOnly s (writeNode i n s) := rfl

theorem allocNode_bitsLeft (n : Option Node) (s : State) : (allocNode n s).bitsLeft = s.bitsLeft := rfl

theorem writeNode_bitsLeft (i : Nat) (n : Node) (s : State) : (writeNode i n s).bitsLeft = s.bitsLeft := rfl

theorem allocNode_readerOk {n : Option Node} {s : State} (h : ReaderOk s) : ReaderOk (allocNode n s) := ⟨h.source, h.count⟩

theorem writeNode_readerOk {i : Nat} {n : Node} {s : State} (h : ReaderOk s) : ReaderOk (writeNode i n s) :=
  ⟨h.source, h.count⟩

/-! ### The arena laid out -/

theorem treeOf_layout (t : CodeTree) (ns xs : List (Option Node)) {n : Nat} (hn : t.size ≤ n) :
    treeOf (ns ++ ((t.layout ns.length).map some ++ xs)) n ns.length = some t := by
  induction t generalizing ns xs n with
  | leaf v =>
    obtain ⟨n, rfl⟩ : ∃ k, n = k + 1 := ⟨n - 1, by have := size_pos (.leaf v); omega⟩
    simp [treeOf, CodeTree.layout, nodeAt_length]
  | fork l r ihl ihr =>
    obtain ⟨n, rfl⟩ : ∃ k, n = k + 1 := ⟨n - 1, by have := size_pos (.fork l r); omega⟩
    have hs : 1 + l.size + r.size ≤ n + 1 := hn
    let x := some (Node.internal (ns.length + 1) (ns.length + 1 + l.size) 0#32 0#8)
    have hroot : nodeAt (ns ++ ((CodeTree.layout ns.length (.fork l r)).map some ++ xs)) ns.length =
        some (.internal (ns.length + 1) (ns.length + 1 + l.size) 0#32 0#8) := by
      simp [CodeTree.layout, nodeAt_length]
    have el := ihl (ns ++ [x]) ((r.layout (ns.length + 1 + l.size)).map some ++ xs) (n := n) (by omega)
    have er := ihr (ns ++ x :: (l.layout (ns.length + 1)).map some) xs (n := n) (by omega)
    have len1 : (ns ++ [x]).length = ns.length + 1 := by simp
    have len2 : (ns ++ x :: (l.layout (ns.length + 1)).map some).length = ns.length + 1 + l.size := by
      simp [layout_length]; omega
    have arena1 : ns ++ [x] ++ ((l.layout (ns.length + 1)).map some ++ ((r.layout (ns.length + 1 + l.size)).map some ++ xs))
        = ns ++ ((CodeTree.layout ns.length (.fork l r)).map some ++ xs) := by
      simp [CodeTree.layout, x]
    have arena2 : ns ++ x :: (l.layout (ns.length + 1)).map some ++ ((r.layout (ns.length + 1 + l.size)).map some ++ xs)
        = ns ++ ((CodeTree.layout ns.length (.fork l r)).map some ++ xs) := by
      simp [CodeTree.layout, x]
    rw [len1, arena1] at el
    rw [len2, arena2] at er
    simp only [treeOf, hroot, el, er]

theorem reach_layout (t : CodeTree) (ns xs : List (Option Node)) {n : Nat} (hn : t.size ≤ n) :
    reach (ns ++ ((t.layout ns.length).map some ++ xs)) n ns.length = some (List.range' ns.length t.size) := by
  induction t generalizing ns xs n with
  | leaf v =>
    obtain ⟨n, rfl⟩ : ∃ k, n = k + 1 := ⟨n - 1, by have := size_pos (.leaf v); omega⟩
    simp [reach, CodeTree.layout, nodeAt_length, CodeTree.size]
  | fork l r ihl ihr =>
    obtain ⟨n, rfl⟩ : ∃ k, n = k + 1 := ⟨n - 1, by have := size_pos (.fork l r); omega⟩
    have hs : 1 + l.size + r.size ≤ n + 1 := hn
    let x := some (Node.internal (ns.length + 1) (ns.length + 1 + l.size) 0#32 0#8)
    have hroot : nodeAt (ns ++ ((CodeTree.layout ns.length (.fork l r)).map some ++ xs)) ns.length =
        some (.internal (ns.length + 1) (ns.length + 1 + l.size) 0#32 0#8) := by
      simp [CodeTree.layout, nodeAt_length]
    have el := ihl (ns ++ [x]) ((r.layout (ns.length + 1 + l.size)).map some ++ xs) (n := n) (by omega)
    have er := ihr (ns ++ x :: (l.layout (ns.length + 1)).map some) xs (n := n) (by omega)
    have len1 : (ns ++ [x]).length = ns.length + 1 := by simp
    have len2 : (ns ++ x :: (l.layout (ns.length + 1)).map some).length = ns.length + 1 + l.size := by
      simp [layout_length]; omega
    have arena1 : ns ++ [x] ++ ((l.layout (ns.length + 1)).map some ++ ((r.layout (ns.length + 1 + l.size)).map some ++ xs))
        = ns ++ ((CodeTree.layout ns.length (.fork l r)).map some ++ xs) := by
      simp [CodeTree.layout, x]
    have arena2 : ns ++ x :: (l.layout (ns.length + 1)).map some ++ ((r.layout (ns.length + 1 + l.size)).map some ++ xs)
        = ns ++ ((CodeTree.layout ns.length (.fork l r)).map some ++ xs) := by
      simp [CodeTree.layout, x]
    rw [len1, arena1] at el
    rw [len2, arena2] at er
    simp only [reach, hroot, el, er, CodeTree.size]
    rw [List.range'_append_1, show 1 + l.size + r.size = l.size + r.size + 1 by omega, List.range'_succ]

/-! ### `DesNode` -/

theorem set_reserved (ns : List (Option Node)) (x : Node) (ys : List (Option Node)) :
    (ns ++ none :: ys).set ns.length (some x) = ns ++ some x :: ys := by
  rw [List.set_append_right (h := Nat.le_refl _)]
  simp

/-- The state after a tree has been read: its layout is appended to the arena (R162). -/
def laidOut (s : State) (t : CodeTree) (u : State) : Prop :=
  u = { s with node := s.node ++ (t.layout s.node.length).map some, rbuf := u.rbuf, rcnt := u.rcnt, spos := u.spos }

theorem laidOut_node {s u : State} {t : CodeTree} (h : laidOut s t u) :
    u.node = s.node ++ (t.layout s.node.length).map some := by rw [h]

theorem laidOut_desOnly {s u : State} {t : CodeTree} (h : laidOut s t u) : DesOnly s u := by
  unfold laidOut at h
  unfold DesOnly
  rw [h]

theorem laidOut_leaf {s s1 s2 : State} {v : Byte} (h1 : ReaderOnly s s1) (h2 : ReaderOnly (allocNode none s1) s2) :
    laidOut s (.leaf v) (writeNode s1.node.length (.leaf v 0#32 0#8) s2) := by
  have hn : s2.node = s1.node ++ [none] := by rw [h2]; rfl
  have hs := set_reserved s1.node (.leaf v 0#32 0#8) []
  have e1 := h1
  unfold ReaderOnly at h1 h2
  unfold laidOut writeNode
  rw [hn, hs, readerOnly_node e1, h2, h1]
  rfl

theorem laidOut_fork {s s1 s2 s3 : State} {l r : CodeTree} (h1 : ReaderOnly s s1)
    (h2 : laidOut (allocNode none s1) l s2) (h3 : laidOut s2 r s3) :
    laidOut s (.fork l r) (writeNode s1.node.length (.internal (s1.node.length + 1) s2.node.length 0#32 0#8) s3) := by
  have hn1 := readerOnly_node h1
  have hn2 : s2.node = s1.node ++ none :: (l.layout (s1.node.length + 1)).map some := by
    rw [laidOut_node h2]; simp
  have hlen2 : s2.node.length = s1.node.length + 1 + l.size := by rw [hn2]; simp [layout_length]; omega
  have hn3 : s3.node = s1.node ++ none :: ((l.layout (s1.node.length + 1)).map some ++
      (r.layout (s1.node.length + 1 + l.size)).map some) := by
    rw [laidOut_node h3, hlen2, hn2]; simp
  have hset : s3.node.set s1.node.length (some (.internal (s1.node.length + 1) s2.node.length 0#32 0#8)) =
      s.node ++ ((CodeTree.fork l r).layout s.node.length).map some := by
    rw [hn3, set_reserved, hlen2, hn1]
    simp [CodeTree.layout]
  have d : DesOnly s s3 := h1.desOnly.trans ((allocNode_desOnly none s1).trans ((laidOut_desOnly h2).trans (laidOut_desOnly h3)))
  unfold laidOut writeNode
  rw [hset]
  unfold DesOnly at d
  rw [d]

/-- A tree in the stream that fits the arena is read whole and nothing after it (R162, R165). -/
theorem desNode_tree {n : Nat} {s : State} (t : CodeTree) (hr : ReaderOk s) {rest : List Bool}
    (hb : s.bitsLeft = t.bits ++ rest) (hroom : s.node.length + t.size ≤ Config.nodeCap) (hn : t.size ≤ n) :
    ∃ u, desNode n s = .ok s.node.length u ∧ u.bitsLeft = rest ∧ ReaderOk u ∧ laidOut s t u := by
  induction t generalizing n s rest with
  | leaf v =>
    obtain ⟨n, rfl⟩ : ∃ k, n = k + 1 := ⟨n - 1, by have := size_pos (.leaf v); omega⟩
    have hs : s.node.length + 1 ≤ Config.nodeCap := hroom
    obtain ⟨s1, e1, l1, r1, o1⟩ := readBit_some hr hb
    have hn1 := readerOnly_node o1
    obtain ⟨s2, e2, l2, r2, o2⟩ := readByte_some (s := allocNode none s1) (allocNode_readerOk r1) l1
    refine ⟨writeNode s1.node.length (.leaf v 0#32 0#8) s2, ?_, l2, writeNode_readerOk r2, laidOut_leaf o1 o2⟩
    have hcap : ¬s.node.length = Config.nodeCap := by omega
    simp only [desNode, e1, bind_ok, hn1, if_neg hcap, if_true, e2]
  | fork l r ihl ihr =>
    obtain ⟨n, rfl⟩ : ∃ k, n = k + 1 := ⟨n - 1, by have := size_pos (.fork l r); omega⟩
    have hs : s.node.length + (1 + l.size + r.size) ≤ Config.nodeCap := hroom
    have hsz : 1 + l.size + r.size ≤ n + 1 := hn
    have hb' : s.bitsLeft = false :: (l.bits ++ (r.bits ++ rest)) := by
      rw [hb]; simp [CodeTree.bits, internalBits]
    obtain ⟨s1, e1, l1, r1, o1⟩ := readBit_some hr hb'
    have hn1 := readerOnly_node o1
    obtain ⟨s2, e2, l2, r2, o2⟩ := ihl (n := n) (s := allocNode none s1) (allocNode_readerOk r1) l1
      (by simp [hn1]; omega) (by omega)
    have hn2 : s2.node.length = s.node.length + 1 + l.size := by
      rw [laidOut_node o2]; simp [layout_length, hn1]; omega
    obtain ⟨s3, e3, l3, r3, o3⟩ := ihr (n := n) (s := s2) r2 l2 (by omega) (by omega)
    refine ⟨_, ?_, ?_, ?_, laidOut_fork o1 o2 o3⟩
    rotate_left
    · exact l3
    · exact writeNode_readerOk r3
    have hcap : ¬s.node.length = Config.nodeCap := by omega
    simp only [desNode, e1, bind_ok, hn1, if_neg hcap, Bool.false_eq_true, if_false, e2, e3]
    simp [hn1]

/-- A failure in the left subtree is one of the whole. -/
theorem desFailure_inLeft {ns ns' : List (Option Node)} {bits left : List Bool} {e : Byte}
    (h : DesFailure (ns ++ [none]) bits e ns' left) : DesFailure ns (false :: bits) e ns' left := by
  obtain ⟨c, h⟩ := h
  simp only [List.length_append, List.length_singleton, List.append_assoc, List.singleton_append] at h
  refine ⟨.inLeft c, ?_⟩
  simp only [CutTree.bits, CutTree.size, CutTree.layout, internalBits, List.nil_append, List.cons_append,
    List.append_assoc]
  rcases h with ⟨he, hb, hs, hn, hl⟩ | ⟨he, ⟨x, hb, hx⟩, hs, hn, hl⟩ | ⟨he, ⟨m, hb⟩, hs, hn⟩
  · exact .inl ⟨he, by rw [hb], by omega, hn, hl⟩
  · exact .inr (.inl ⟨he, ⟨x, by rw [hb], hx⟩, by omega, hn, hl⟩)
  · exact .inr (.inr ⟨he, ⟨m, by rw [hb]⟩, by omega, hn⟩)

/-- A failure in the right subtree, the left one being whole, is one of the whole. -/
theorem desFailure_inRight {ns ns' : List (Option Node)} {bits left : List Bool} {e : Byte} (l : CodeTree)
    (h : DesFailure (ns ++ none :: (l.layout (ns.length + 1)).map some) bits e ns' left) :
    DesFailure ns (false :: (l.bits ++ bits)) e ns' left := by
  obtain ⟨c, h⟩ := h
  have hlen : (ns ++ none :: (l.layout (ns.length + 1)).map some).length = ns.length + 1 + l.size := by
    simp [layout_length]; omega
  rw [hlen] at h
  simp only [List.append_assoc, List.cons_append] at h
  refine ⟨.inRight l c, ?_⟩
  simp only [CutTree.bits, CutTree.size, CutTree.layout, internalBits, List.nil_append, List.cons_append,
    List.append_assoc]
  rcases h with ⟨he, hb, hs, hn, hl⟩ | ⟨he, ⟨x, hb, hx⟩, hs, hn, hl⟩ | ⟨he, ⟨m, hb⟩, hs, hn⟩
  · exact .inl ⟨he, by rw [hb], by omega, hn, hl⟩
  · exact .inr (.inl ⟨he, ⟨x, by rw [hb], hx⟩, by omega, hn, hl⟩)
  · exact .inr (.inr ⟨he, ⟨m, by rw [hb]⟩, by omega, hn⟩)

/-- Everything `DesNode` can do on any stream, given bound enough: read one tree that fits, or raise E_EOS with all bits
consumed, or raise E_TREE_OVERFLOW with the arena full (R162, R206). -/
theorem desNode_cases {n : Nat} {s : State} (hr : ReaderOk s) (hcap : s.node.length ≤ Config.nodeCap)
    (hn : Config.desFuel ≤ n + s.node.length) :
    (∃ t u, desNode n s = .ok s.node.length u ∧ s.bitsLeft = t.bits ++ u.bitsLeft ∧ ReaderOk u ∧ laidOut s t u ∧
      u.node.length ≤ Config.nodeCap) ∨
    (∃ e u, desNode n s = .err e u ∧ ReaderOk u ∧ DesOnly s u ∧ u.node.length ≤ Config.nodeCap ∧
      s.node.length ≤ u.node.length ∧ DesFailure s.node s.bitsLeft e.code u.node u.bitsLeft ∧
      ((e = .eos ∧ u.bitsLeft = [] ∧ u.rcnt = 0#4 ∧ u.slen ≤ u.spos) ∨
        (e = .treeOverflow ∧ u.node.length = Config.nodeCap))) := by
  induction n generalizing s with
  | zero =>
    simp only [Config.desFuel] at hn
    omega
  | succ n ih =>
    rcases readBit_cases hr with ⟨hl, hc, hle, he⟩ | ⟨b, s1, e1, l1, r1, o1⟩
    · exact .inr ⟨.eos, s, by simp [desNode, he], hr, rfl, hcap, Nat.le_refl _,
        ⟨.here, .inl ⟨rfl, hl, hcap, by simp [CutTree.layout], hl⟩⟩, .inl ⟨rfl, hl, hc, hle⟩⟩
    · have hn1 := readerOnly_node o1
      by_cases hfull : s1.node.length = Config.nodeCap
      · exact .inr ⟨.treeOverflow, s1, by simp [desNode, e1, hfull], r1, o1.desOnly, by omega, by rw [hn1],
          ⟨.here, .inr (.inr ⟨rfl, ⟨b, l1⟩, by rw [← hn1]; exact hfull, by rw [hn1]; simp [CutTree.layout]⟩)⟩,
          .inr ⟨rfl, hfull⟩⟩
      · have hlen1 : s1.node.length = s.node.length := by rw [hn1]
        have hfull' : ¬s.node.length = Config.nodeCap := by rwa [← hlen1]
        have dr := o1.desOnly.trans (allocNode_desOnly none s1)
        cases b with
        | true =>
          rcases readByte_cases (s := allocNode none s1) (allocNode_readerOk r1) with
            ⟨v, s2, e2, l2, r2, o2⟩ | ⟨s2, b2, e2, l2, c2, p2, r2, o2⟩
          · have hl2 := laidOut_leaf (v := v) o1 o2
            refine .inl ⟨.leaf v, writeNode s1.node.length (.leaf v 0#32 0#8) s2, ?_, ?_, writeNode_readerOk r2, hl2, ?_⟩
            · simp only [desNode, e1, bind_ok, hn1, if_neg hfull', if_true, e2]
            · rw [l1]
              have : s1.bitsLeft = byteBits v ++ s2.bitsLeft := l2
              rw [this]
              rfl
            · rw [laidOut_node hl2]
              simp [CodeTree.layout]
              omega
          · have hn2 : s2.node.length = s.node.length + 1 := by rw [readerOnly_node o2]; simp [hn1]
            refine .inr ⟨.eos, s2, ?_, r2, dr.trans o2.desOnly, by omega, by omega,
              ⟨.here, .inr (.inl ⟨rfl, ⟨_, l1, b2⟩, by simp only [CutTree.size]; simp only [Config.nodeCap] at *; omega, ?_, l2⟩)⟩,
              .inl ⟨rfl, l2, c2, p2⟩⟩
            rotate_left
            · rw [readerOnly_node o2]; simp [hn1, CutTree.layout]
            simp only [desNode, e1, bind_ok, if_neg hfull, if_true, e2, bind_err]
        | false =>
          have hlen : (allocNode none s1).node.length = s.node.length + 1 := by simp [hn1]
          rcases ih (s := allocNode none s1) (allocNode_readerOk r1) (by omega) (by omega) with
            ⟨l, s2, e2, l2, r2, o2, k2⟩ | ⟨e, s2, e2, r2, d2, k2, g2, f2, h2⟩
          · have hn2 : s2.node.length = s.node.length + 1 + l.size := by
              rw [laidOut_node o2]; simp [layout_length, hn1]; omega
            rcases ih (s := s2) r2 k2 (by omega) with ⟨r, s3, e3, l3, r3, o3, k3⟩ | ⟨e, s3, e3, r3, d3, k3, g3, f3, h3⟩
            · refine .inl ⟨.fork l r, _, ?_, ?_, writeNode_readerOk r3, laidOut_fork o1 o2 o3, ?_⟩
              · simp only [desNode, e1, bind_ok, hn1, if_neg hfull', Bool.false_eq_true, if_false, e2, e3]
                simp [hn1]
              · rw [l1]
                have : s1.bitsLeft = l.bits ++ s2.bitsLeft := l2
                rw [this, l3]
                show _ = internalBits ++ l.bits ++ r.bits ++ s3.bitsLeft
                simp [internalBits]
              · simpa using k3
            · refine .inr ⟨e, s3, ?_, r3, dr.trans ((laidOut_desOnly o2).trans d3), k3, by omega, ?_, h3⟩
              rotate_left
              · have hb : s1.bitsLeft = l.bits ++ s2.bitsLeft := l2
                have hn : s2.node = s.node ++ none :: (l.layout (s.node.length + 1)).map some := by
                  rw [laidOut_node o2]; simp [hn1]
                rw [hn] at f3
                rw [l1, hb]
                exact desFailure_inRight l f3
              simp only [desNode, e1, bind_ok, if_neg hfull, Bool.false_eq_true, if_false, e2, e3, bind_err]
          · refine .inr ⟨e, s2, ?_, r2, dr.trans d2, k2, by omega, ?_, h2⟩
            rotate_left
            · rw [l1]
              have hn : (allocNode none s1).node = s.node ++ [none] := by simp [hn1]
              rw [hn] at f2
              exact desFailure_inLeft f2
            simp only [desNode, e1, bind_ok, if_neg hfull, Bool.false_eq_true, if_false, e2, bind_err]

/-- A tree in the stream that does not fit the arena is stopped by the capacity test, not by the end of the stream
(R162). -/
theorem desNode_overflow {n : Nat} {s : State} (t : CodeTree) (hr : ReaderOk s) {rest : List Bool}
    (hb : s.bitsLeft = t.bits ++ rest) (hcap : s.node.length ≤ Config.nodeCap)
    (hbig : Config.nodeCap < s.node.length + t.size) (hn : Config.nodeCap < s.node.length + n) :
    ∃ u, desNode n s = .err .treeOverflow u ∧ u.node.length = Config.nodeCap := by
  induction t generalizing n s rest with
  | leaf v =>
    have hfull : s.node.length = Config.nodeCap := by
      have : (CodeTree.leaf v).size = 1 := rfl
      omega
    obtain ⟨n, rfl⟩ : ∃ k, n = k + 1 := ⟨n - 1, by omega⟩
    obtain ⟨s1, e1, -, -, o1⟩ := readBit_some hr (b := true) (rest := byteBits v ++ rest) hb
    have hn1 : s1.node.length = Config.nodeCap := by rw [readerOnly_node o1]; exact hfull
    exact ⟨s1, by simp only [desNode, e1, bind_ok, if_pos hn1], hn1⟩
  | fork l r ihl ihr =>
    obtain ⟨n, rfl⟩ : ∃ k, n = k + 1 := ⟨n - 1, by have := hcap; omega⟩
    have hb' : s.bitsLeft = false :: (l.bits ++ (r.bits ++ rest)) := by
      rw [hb]; simp [CodeTree.bits, internalBits]
    obtain ⟨s1, e1, l1, r1, o1⟩ := readBit_some hr hb'
    have hn1 : s1.node = s.node := readerOnly_node o1
    by_cases hfull : s.node.length = Config.nodeCap
    · have hf : s1.node.length = Config.nodeCap := by rw [hn1]; exact hfull
      exact ⟨s1, by simp only [desNode, e1, bind_ok, if_pos hf], hf⟩
    · have hf : ¬s1.node.length = Config.nodeCap := by rw [hn1]; exact hfull
      have ha : (allocNode none s1).node.length = s.node.length + 1 := by simp [hn1]
      have hsize : (CodeTree.fork l r).size = 1 + l.size + r.size := rfl
      by_cases hl : Config.nodeCap < s.node.length + 1 + l.size
      · obtain ⟨u, eu, hu⟩ := ihl (s := allocNode none s1) (n := n) (allocNode_readerOk r1) (rest := r.bits ++ rest) l1
          (by omega) (by omega) (by omega)
        exact ⟨u, by simp only [desNode, e1, bind_ok, if_neg hf, Bool.false_eq_true, if_false, eu, bind_err], hu⟩
      · obtain ⟨s2, e2, l2, r2, o2⟩ := desNode_tree l (n := n) (s := allocNode none s1) (allocNode_readerOk r1)
          (rest := r.bits ++ rest) l1 (by omega) (by have := size_pos r; omega)
        have hn2 : s2.node.length = s.node.length + 1 + l.size := by
          rw [laidOut_node o2]; simp [layout_length, hn1]; omega
        obtain ⟨u, eu, hu⟩ := ihr (s := s2) (n := n) r2 l2 (by omega) (by omega) (by have := size_pos l; omega)
        exact ⟨u, by simp only [desNode, e1, bind_ok, if_neg hf, Bool.false_eq_true, if_false, e2, eu, bind_err], hu⟩

end Sys2Proof.Laws
end

