-- ==== Sys2Proof/Laws/Heap.lean ====
section
/-! SUPPORT. The min-heap (R130 to R132): the key as one number, both sift loops permute the heap, keep or restore its
order, and so the entry extracted is one of least key (R140). -/

namespace Sys2Proof.Laws

open Sys2Proof.Machine

/-! ### Keys -/

/-- The pair (weight, minsym) as one number, ordered as R130 orders pairs. -/
def keyNat (n : Node) : Nat := n.weight.toNat * 256 + n.minsym.toNat

theorem keyLt_iff (a b : Node) : a.keyLt b = true ↔ keyNat a < keyNat b := by
  have ha : a.minsym.toNat < 256 := a.minsym.isLt
  have hb : b.minsym.toNat < 256 := b.minsym.isLt
  simp only [Node.keyLt, Bool.or_eq_true, Bool.and_eq_true, decide_eq_true_eq, BitVec.lt_def, ← BitVec.toNat_inj, keyNat]
  omega

/-- Every heap entry has a record. -/
def Written (ns : List (Option Node)) (h : List Nat) : Prop := ∀ i ∈ h, ∃ nd, nodeAt ns i = some nd

theorem Written.perm {ns : List (Option Node)} {h h' : List Nat} (w : Written ns h) (p : h'.Perm h) : Written ns h' :=
  fun i hi => w i (p.mem_iff.1 hi)

/-- The key of arena entry `i`, 0 where there is no record. -/
def keyOf (ns : List (Option Node)) (i : Nat) : Nat := (nodeAt ns i).elim 0 keyNat

/-- The key of the heap entry at position `k`. -/
def keyAt (ns : List (Option Node)) (h : List Nat) (k : Nat) : Nat := keyOf ns (h.getD k 0)

theorem less_eq {ns : List (Option Node)} {i j : Nat} {a b : Node} (hi : nodeAt ns i = some a) (hj : nodeAt ns j = some b) :
    less ns i j = some (decide (keyOf ns i < keyOf ns j)) := by
  have : a.keyLt b = decide (keyNat a < keyNat b) := by
    rw [Bool.eq_iff_iff, keyLt_iff, decide_eq_true_eq]
  simp [less, keyOf, hi, hj, this]

theorem lessAt_eq {ns : List (Option Node)} {h : List Nat} (w : Written ns h) {k p : Nat} (hk : k < h.length)
    (hp : p < h.length) : lessAt ns h k p = some (decide (keyAt ns h k < keyAt ns h p)) := by
  obtain ⟨a, ha⟩ := w _ (List.getElem_mem hk)
  obtain ⟨b, hb⟩ := w _ (List.getElem_mem hp)
  simp only [lessAt, List.getElem?_eq_getElem hk, List.getElem?_eq_getElem hp, less_eq ha hb, keyAt,
    List.getD_eq_getElem _ _ hk, List.getD_eq_getElem _ _ hp]

/-! ### Swapping -/

theorem swapAt_perm (h : List Nat) (k p : Nat) : (swapAt h k p).Perm h := by
  unfold swapAt
  split
  · rename_i x y hx hy
    obtain ⟨hk, rfl⟩ := List.getElem?_eq_some_iff.1 hx
    obtain ⟨hp, rfl⟩ := List.getElem?_eq_some_iff.1 hy
    exact List.set_set_perm hk hp
  · exact List.Perm.refl _

theorem swapAt_length (h : List Nat) (k p : Nat) : (swapAt h k p).length = h.length := (swapAt_perm h k p).length_eq

theorem swapAt_getD {h : List Nat} {k p : Nat} (hk : k < h.length) (hp : p < h.length) (j : Nat) :
    (swapAt h k p).getD j 0 = if j = p then h.getD k 0 else if j = k then h.getD p 0 else h.getD j 0 := by
  simp only [swapAt, List.getElem?_eq_getElem hk, List.getElem?_eq_getElem hp, List.getD_eq_getElem?_getD,
    List.getElem?_set, List.length_set]
  by_cases h1 : j = p
  · subst h1; simp [hp]
  · by_cases h2 : j = k
    · subst h2; simp [Ne.symm h1, h1, hk]
    · simp [h1, h2, Ne.symm h1, Ne.symm h2]

theorem keyAt_swapAt {ns : List (Option Node)} {h : List Nat} {k p : Nat} (hk : k < h.length) (hp : p < h.length) (j : Nat) :
    keyAt ns (swapAt h k p) j = if j = p then keyAt ns h k else if j = k then keyAt ns h p else keyAt ns h j := by
  simp only [keyAt, swapAt_getD hk hp]
  split
  · rfl
  · split <;> rfl

/-! ### Order -/

/-- The heap order of R25 in terms of keys. -/
def Ordered (ns : List (Option Node)) (h : List Nat) : Prop :=
  ∀ k, 0 < k → k < h.length → keyAt ns h ((k - 1) / 2) ≤ keyAt ns h k

theorem ordered_iff {ns : List (Option Node)} {h : List Nat} (w : Written ns h) :
    Ordered ns h ↔ ∀ k, 0 < k → k < h.length → lessAt ns h k ((k - 1) / 2) = some false := by
  constructor
  · intro o k hk hl
    rw [lessAt_eq w hl (by omega), decide_eq_false (by have := o k hk hl; omega)]
  · intro o k hk hl
    have := o k hk hl
    rw [lessAt_eq w hl (by omega)] at this
    simpa using this

/-- The top of an ordered heap has the least key. -/
theorem Ordered.top {ns : List (Option Node)} {h : List Nat} (o : Ordered ns h) (k : Nat) (hk : k < h.length) :
    keyAt ns h 0 ≤ keyAt ns h k := by
  induction k using Nat.strong_induction_on with
  | _ k ih =>
    rcases Nat.eq_zero_or_pos k with rfl | hp
    · exact Nat.le_refl _
    · exact Nat.le_trans (ih ((k - 1) / 2) (by omega) (by omega)) (o k hp hk)

theorem Ordered.top_le {ns : List (Option Node)} {m : Nat} {rest : List Nat} (o : Ordered ns (m :: rest)) :
    ∀ i ∈ m :: rest, keyOf ns m ≤ keyOf ns i := by
  intro i hi
  obtain ⟨k, hk, rfl⟩ := List.getElem_of_mem hi
  have := o.top k hk
  rwa [keyAt, keyAt, List.getD_eq_getElem _ _ hk] at this

/-- Sift-up permutes the heap, and where only position `k` may be out of order it restores the order (R131). -/
theorem siftUp_spec {ns : List (Option Node)} {n : Nat} {h : List Nat} {k : Nat} (w : Written ns h) (hk : k < h.length) :
    ∃ h', siftUp ns n h k = some h' ∧ h'.Perm h ∧
      (k ≤ n → (∀ j, 0 < j → j < h.length → j ≠ k → keyAt ns h ((j - 1) / 2) ≤ keyAt ns h j) →
        (∀ j, 0 < k → 0 < j → j < h.length → (j - 1) / 2 = k → keyAt ns h ((k - 1) / 2) ≤ keyAt ns h j) → Ordered ns h') := by
  induction n generalizing h k with
  | zero =>
    refine ⟨h, rfl, List.Perm.refl _, fun hn o _ j hj hl => o j hj hl (by omega)⟩
  | succ n ih =>
    by_cases h0 : k = 0
    · exact ⟨h, by simp [siftUp, h0], List.Perm.refl _, fun _ o _ j hj hl => o j hj hl (by omega)⟩
    · have hp : (k - 1) / 2 < h.length := by omega
      simp only [siftUp, if_neg h0, lessAt_eq w hk hp]
      by_cases hlt : keyAt ns h k < keyAt ns h ((k - 1) / 2)
      · rw [decide_eq_true hlt]
        obtain ⟨h', e, p, o⟩ := ih (h := swapAt h k ((k - 1) / 2)) (k := (k - 1) / 2) (w.perm (swapAt_perm ..))
          (by rw [swapAt_length]; exact hp)
        refine ⟨h', e, p.trans (swapAt_perm ..), fun hn o1 o2 => o (by omega) ?_ ?_⟩
        · intro j hj hl hne
          rw [swapAt_length] at hl
          simp only [keyAt_swapAt hk hp]
          by_cases hjk : j = k
          · subst hjk
            rw [if_pos rfl, if_neg (by omega), if_pos rfl]
            omega
          · rw [if_neg hne, if_neg hjk]
            have hj1 := o1 j hj hl hjk
            by_cases hpj : (j - 1) / 2 = (k - 1) / 2
            · rw [if_pos hpj]
              rw [hpj] at hj1
              omega
            · rw [if_neg hpj]
              by_cases hpk : (j - 1) / 2 = k
              · rw [if_pos hpk]
                exact o2 j (by omega) hj hl hpk
              · rw [if_neg hpk]
                exact hj1
        · intro j hk0 hj hl hjp
          rw [swapAt_length] at hl
          simp only [keyAt_swapAt hk hp]
          have hpp : keyAt ns h (((k - 1) / 2 - 1) / 2) ≤ keyAt ns h ((k - 1) / 2) := o1 _ hk0 (by omega) (by omega)
          rw [if_neg (by omega), if_neg (by omega), if_neg (by omega)]
          by_cases hjk : j = k
          · rw [if_pos hjk]
            exact hpp
          · rw [if_neg hjk]
            have := o1 j hj hl hjk
            rw [hjp] at this
            omega
      · rw [decide_eq_false hlt]
        refine ⟨h, rfl, List.Perm.refl _, fun _ o1 _ j hj hl => ?_⟩
        by_cases hjk : j = k
        · subst hjk; omega
        · exact o1 j hj hl hjk

/-- One test of R132 picks whichever of the two positions has the lesser key. -/
theorem lesserOf_spec {ns : List (Option Node)} {h : List Nat} (w : Written ns h) {c t : Nat} (ht : t < h.length) :
    ∃ u, lesserOf ns h c t = some u ∧ u < h.length ∧ (u = t ∨ u = c) ∧ keyAt ns h u ≤ keyAt ns h t ∧
      (c < h.length → keyAt ns h u ≤ keyAt ns h c) ∧ (u ≠ t → keyAt ns h u < keyAt ns h t) := by
  by_cases hc : c < h.length
  · simp only [lesserOf, if_pos hc, lessAt_eq w hc ht]
    by_cases hlt : keyAt ns h c < keyAt ns h t
    · rw [decide_eq_true hlt]
      exact ⟨c, rfl, hc, .inr rfl, by omega, fun _ => by omega, fun _ => hlt⟩
    · rw [decide_eq_false hlt]
      exact ⟨t, rfl, ht, .inl rfl, by omega, fun _ => by omega, fun h => absurd rfl h⟩
  · exact ⟨t, by simp [lesserOf, hc], ht, .inl rfl, by omega, fun h => absurd h hc, fun h => absurd rfl h⟩

/-- Sift-down permutes the heap, and where only position `k` may be above lesser children it restores the order
(R132). -/
theorem siftDown_spec {ns : List (Option Node)} {n : Nat} {h : List Nat} {k : Nat} (w : Written ns h) (hk : k < h.length) :
    ∃ h', siftDown ns n h k = some h' ∧ h'.Perm h ∧
      (h.length ≤ n + k → (∀ j, 0 < j → j < h.length → (j - 1) / 2 ≠ k → keyAt ns h ((j - 1) / 2) ≤ keyAt ns h j) →
        (∀ j, 0 < k → 0 < j → j < h.length → (j - 1) / 2 = k → keyAt ns h ((k - 1) / 2) ≤ keyAt ns h j) → Ordered ns h') := by
  induction n generalizing h k with
  | zero => exact ⟨h, rfl, List.Perm.refl _, fun hn => by omega⟩
  | succ n ih =>
    obtain ⟨a, ea, la, ca, ka, kal, kan⟩ := lesserOf_spec w (c := 2 * k + 1) hk
    obtain ⟨t, et, lt, ct, kt, ktr, ktn⟩ := lesserOf_spec w (c := 2 * k + 2) la
    simp only [siftDown, ea, Option.bind_some, et]
    by_cases htk : t = k
    · subst htk
      rw [if_pos rfl]
      refine ⟨h, rfl, List.Perm.refl _, fun _ o1 _ j hj hl => ?_⟩
      by_cases hjt : (j - 1) / 2 = t
      · rw [hjt]
        have hj2 : j = 2 * t + 1 ∨ j = 2 * t + 2 := by omega
        have hat : a = t := by
          rcases ct with h | h
          · exact h.symm
          · omega
        subst hat
        rcases hj2 with rfl | rfl
        · exact kal hl
        · exact ktr hl
      · exact o1 j hj hl hjt
    · rw [if_neg htk]
      have hchild : (t - 1) / 2 = k ∧ 0 < t := by
        rcases ct with h | h
        · rcases ca with h' | h' <;> omega
        · omega
      have hlt : keyAt ns h t < keyAt ns h k := by
        by_cases hta : t = a
        · rw [hta]; exact kan (by omega)
        · exact Nat.lt_of_lt_of_le (ktn hta) ka
      have hleast : ∀ j, 0 < j → j < h.length → (j - 1) / 2 = k → keyAt ns h t ≤ keyAt ns h j := by
        intro j hj hl hjk
        have hj2 : j = 2 * k + 1 ∨ j = 2 * k + 2 := by omega
        rcases hj2 with rfl | rfl
        · exact Nat.le_trans kt (kal hl)
        · exact ktr hl
      obtain ⟨h', e, p, o⟩ := ih (h := swapAt h k t) (k := t) (w.perm (swapAt_perm ..)) (by rw [swapAt_length]; exact lt)
      refine ⟨h', e, p.trans (swapAt_perm ..), fun hn o1 o2 => o (by rw [swapAt_length]; omega) ?_ ?_⟩
      · intro j hj hl hne
        rw [swapAt_length] at hl
        simp only [keyAt_swapAt hk lt]
        rw [if_neg hne]
        by_cases hjt : j = t
        · subst hjt
          rw [if_pos rfl, if_pos hchild.1]
          omega
        · rw [if_neg hjt]
          by_cases hjk : j = k
          · subst hjk
            rw [if_pos rfl, if_neg (by omega)]
            exact o2 t hj hchild.2 lt hchild.1
          · rw [if_neg hjk]
            by_cases hpk : (j - 1) / 2 = k
            · rw [if_pos hpk]
              exact hleast j hj hl hpk
            · rw [if_neg hpk]
              exact o1 j hj hl hpk
      · intro j ht0 hj hl hjt
        rw [swapAt_length] at hl
        simp only [keyAt_swapAt hk lt]
        rw [if_neg (by omega), if_pos hchild.1, if_neg (by omega), if_neg (by omega)]
        have := o1 j hj hl (by omega)
        rw [hjt] at this
        exact this

/-! ### Insert and extract -/

/-- `t` is `s` but for the heap. -/
def HeapOnly (s t : State) : Prop := t = { s with heap := t.heap }

theorem HeapOnly.node {s t : State} (h : HeapOnly s t) : t.node = s.node := by rw [h]

theorem HeapOnly.trans {s t u : State} (h1 : HeapOnly s t) (h2 : HeapOnly t u) : HeapOnly s u := by
  unfold HeapOnly at *
  rw [h2, h1]

theorem ordered_append {ns : List (Option Node)} {h : List Nat} {i : Nat} (o : Ordered ns h) (j : Nat) (hj : 0 < j)
    (hl : j < (h ++ [i]).length) (hne : j ≠ h.length) : keyAt ns (h ++ [i]) ((j - 1) / 2) ≤ keyAt ns (h ++ [i]) j := by
  have hl' : j < h.length := by simp at hl; omega
  have := o j hj hl'
  have h1 : (h ++ [i]).getD j 0 = h.getD j 0 := by simp [List.getElem?_append_left hl']
  have h2 : (h ++ [i]).getD ((j - 1) / 2) 0 = h.getD ((j - 1) / 2) 0 := by
    simp [List.getElem?_append_left (show (j - 1) / 2 < h.length by omega)]
  simpa only [keyAt, h1, h2] using this

/-- Everything `HeapInsert` does on written entries: the entry joins the heap, and the order stays (R131). -/
theorem heapInsert_spec {s : State} {i : Nat} (w : Written s.node (i :: s.heap)) :
    ∃ t, heapInsert i s = .ok () t ∧ HeapOnly s t ∧ t.heap.Perm (i :: s.heap) ∧
      (Ordered s.node s.heap → Ordered t.node t.heap) := by
  have wp : Written s.node (s.heap ++ [i]) := w.perm (List.perm_append_singleton i s.heap)
  obtain ⟨h', e, p, o⟩ := siftUp_spec (n := s.heap.length + 1) (k := s.heap.length) wp (by simp)
  refine ⟨{ s with heap := h' }, by simp [heapInsert, e], rfl, p.trans (List.perm_append_singleton i s.heap), ?_⟩
  intro oh
  refine o (by omega) (ordered_append oh) ?_
  intro j _ _ hl hjp
  simp at hl
  omega

/-- Everything `HeapExtractMin` does on a heap of written entries that is not empty: one entry leaves, one of least key
where the heap is ordered, and the order stays (R132). -/
theorem heapExtractMin_spec {s : State} (w : Written s.node s.heap) (hne : s.heap ≠ []) :
    ∃ m t, heapExtractMin s = .ok m t ∧ HeapOnly s t ∧ (m :: t.heap).Perm s.heap ∧
      (Ordered s.node s.heap → Ordered t.node t.heap ∧ ∀ i ∈ s.heap, keyOf s.node m ≤ keyOf s.node i) := by
  match hh : s.heap with
  | [] => exact absurd hh hne
  | m :: rest =>
    rw [hh] at w
    match hl : rest.getLast? with
    | none =>
      have : rest = [] := List.getLast?_eq_none_iff.1 hl
      subst this
      refine ⟨m, { s with heap := [] }, by simp [heapExtractMin, hh], rfl, List.Perm.refl _, ?_⟩
      intro o
      exact ⟨fun k _ hk => by simp at hk, o.top_le⟩
    | some last =>
      have hrest : rest.dropLast ++ [last] = rest := List.dropLast_append_getLast? last hl
      have hperm : (last :: rest.dropLast).Perm rest := by
        have := (List.perm_append_singleton last rest.dropLast).symm
        rwa [hrest] at this
      have w' : Written s.node (last :: rest.dropLast) :=
        fun i hi => w i (List.mem_cons_of_mem _ (hperm.mem_iff.1 hi))
      obtain ⟨h', e, p, o⟩ := siftDown_spec (n := rest.length) (k := 0) w' (by simp)
      refine ⟨m, { s with heap := h' }, by simp [heapExtractMin, hh, hl, e], rfl, (p.trans hperm).cons m, ?_⟩
      intro ord
      refine ⟨o ?_ ?_ ?_, ord.top_le⟩
      · have := hperm.length_eq
        omega
      · intro j hj hlen hjp
        have hlen' : j < rest.length := by rw [← hperm.length_eq]; exact hlen
        have hlen1 : rest.dropLast.length + 1 = rest.length := hperm.length_eq
        have key : ∀ x, 0 < x → x < rest.length → (last :: rest.dropLast).getD x 0 = (m :: rest).getD x 0 := by
          intro x hx hxl
          obtain ⟨y, rfl⟩ : ∃ y, x = y + 1 := ⟨x - 1, by omega⟩
          have hy : y < rest.dropLast.length := by omega
          simp only [List.getD_cons_succ]
          conv_rhs => rw [← hrest]
          simp [List.getElem?_append_left hy]
        have hord := ord j hj (by simp; omega)
        simp only [keyAt] at hord ⊢
        rw [key j hj hlen', key _ (by omega) (by omega)]
        exact hord
      · intro j hk0 _ _ _
        omega

end Sys2Proof.Laws
end

