-- ==== Sys2Proof/Laws/TreeBuilder.lean ====
section
/-! SUPPORT. The tree builder (R133 to R136): everything `Seed`, `Merge` and `Build` can do to the arena and the heap, and
what they keep: the trees below the heap, their leaves, their total weight. -/

namespace Sys2Proof.Laws

open Sys2Proof.Machine

/-! ### The trees below the heap -/

/-- The heap's entries root disjoint trees of written entries (R34 item 6). -/
def ForestOk (ns : List (Option Node)) (h : List Nat) : Prop := ∃ is, forest ns h = some is ∧ is.Nodup

theorem forest_cons {ns : List (Option Node)} {i : Nat} {h is : List Nat} (e : forest ns (i :: h) = some is) :
    ∃ a b, reach ns ns.length i = some a ∧ forest ns h = some b ∧ is = a ++ b := by
  simp only [forest] at e
  split at e
  · rename_i a b ha hb
    cases e
    exact ⟨a, b, ha, hb, rfl⟩
  · cases e

theorem forest_cons_eq {ns : List (Option Node)} {i : Nat} {h a b : List Nat} (ha : reach ns ns.length i = some a)
    (hb : forest ns h = some b) : forest ns (i :: h) = some (a ++ b) := by
  simp only [forest, ha, hb]

theorem forest_perm {ns : List (Option Node)} {h h' is : List Nat} (p : h'.Perm h) (e : forest ns h = some is) :
    ∃ is', forest ns h' = some is' ∧ is'.Perm is := by
  induction p generalizing is with
  | nil => exact ⟨is, e, List.Perm.refl _⟩
  | cons x _ ih =>
    obtain ⟨a, b, ha, hb, rfl⟩ := forest_cons e
    obtain ⟨b', hb', pb⟩ := ih hb
    exact ⟨a ++ b', forest_cons_eq ha hb', pb.append_left a⟩
  | swap x y l =>
    obtain ⟨a, b, ha, hb, rfl⟩ := forest_cons e
    obtain ⟨c, d, hc, hd, rfl⟩ := forest_cons hb
    refine ⟨c ++ (a ++ d), forest_cons_eq hc (forest_cons_eq ha hd), ?_⟩
    rw [← List.append_assoc, ← List.append_assoc]
    exact List.perm_append_comm.append_right d
  | trans _ _ ih1 ih2 =>
    obtain ⟨b, hb, pb⟩ := ih2 e
    obtain ⟨c, hc, pc⟩ := ih1 hb
    exact ⟨c, hc, pc.trans pb⟩

theorem ForestOk.perm {ns : List (Option Node)} {h h' : List Nat} (f : ForestOk ns h) (p : h'.Perm h) : ForestOk ns h' := by
  obtain ⟨is, e, d⟩ := f
  obtain ⟨is', e', p'⟩ := forest_perm p e
  exact ⟨is', e', p'.nodup_iff.2 d⟩

theorem forest_append {ns : List (Option Node)} {h is : List Nat} (e : forest ns h = some is) (xs : List (Option Node)) :
    forest (ns ++ xs) h = some is := by
  induction h generalizing is with
  | nil => exact e
  | cons i h ih =>
    obtain ⟨a, b, ha, hb, rfl⟩ := forest_cons e
    exact forest_cons_eq (reach_mono ha (by simp) xs) (ih hb)

theorem forest_lt {ns : List (Option Node)} {h is : List Nat} (e : forest ns h = some is) : ∀ x ∈ is, x < ns.length := by
  induction h generalizing is with
  | nil => cases e; simp
  | cons i h ih =>
    obtain ⟨a, b, ha, hb, rfl⟩ := forest_cons e
    intro x hx
    rcases List.mem_append.1 hx with hx | hx
    · exact reach_lt ha x hx
    · exact ih hb x hx

theorem forest_written {ns : List (Option Node)} {h is : List Nat} (e : forest ns h = some is) : Written ns h := by
  induction h generalizing is with
  | nil => intro i hi; cases hi
  | cons i h ih =>
    obtain ⟨a, b, ha, hb, rfl⟩ := forest_cons e
    intro j hj
    rcases List.mem_cons.1 hj with rfl | hj
    · exact (reach_self ha).2
    · exact ih hb j hj

theorem ForestOk.written {ns : List (Option Node)} {h : List Nat} (f : ForestOk ns h) : Written ns h := by
  obtain ⟨is, e, -⟩ := f
  exact forest_written e

theorem forest_nil (ns : List (Option Node)) : ForestOk ns [] := ⟨[], rfl, List.nodup_nil⟩

theorem ForestOk.tail {ns : List (Option Node)} {i : Nat} {h : List Nat} (f : ForestOk ns (i :: h)) : ForestOk ns h := by
  obtain ⟨is, e, d⟩ := f
  obtain ⟨a, b, ha, hb, rfl⟩ := forest_cons e
  exact ⟨b, hb, (List.nodup_append.1 d).2.1⟩

theorem ForestOk.head {ns : List (Option Node)} {i : Nat} {h : List Nat} (f : ForestOk ns (i :: h)) :
    ∃ is, reach ns ns.length i = some is ∧ is.Nodup := by
  obtain ⟨is, e, d⟩ := f
  obtain ⟨a, b, ha, hb, rfl⟩ := forest_cons e
  exact ⟨a, ha, (List.nodup_append.1 d).1⟩

theorem ForestOk.append {ns : List (Option Node)} {h : List Nat} (f : ForestOk ns h) (xs : List (Option Node)) :
    ForestOk (ns ++ xs) h := by
  obtain ⟨is, e, d⟩ := f
  exact ⟨is, forest_append e xs, d⟩

/-- Roots of disjoint trees are different, so there are at most as many as arena entries. -/
theorem forest_length {ns : List (Option Node)} {h is : List Nat} (e : forest ns h = some is) : h.length ≤ is.length := by
  induction h generalizing is with
  | nil => cases e; simp
  | cons i h ih =>
    obtain ⟨a, b, ha, hb, rfl⟩ := forest_cons e
    have := List.length_pos_of_mem (reach_self ha).1
    have := ih hb
    simp; omega

/-- A new leaf joins the heap (R134). -/
theorem ForestOk.newLeaf {ns : List (Option Node)} {h : List Nat} (f : ForestOk ns h) (v : Byte) (w : Count) (m : Byte) :
    ForestOk (ns ++ [some (.leaf v w m)]) (ns.length :: h) := by
  obtain ⟨is, e, d⟩ := f
  have hr : reach (ns ++ [some (Node.leaf v w m)]) (ns ++ [some (Node.leaf v w m)]).length ns.length = some [ns.length] := by
    simp [reach, nodeAt_length]
  refine ⟨[ns.length] ++ is, forest_cons_eq hr (forest_append e _), ?_⟩
  exact List.nodup_cons.2 ⟨fun hm => absurd (forest_lt e _ hm) (Nat.lt_irrefl _), d⟩

/-- Two heap entries become the children of a new node that takes their place (R135). -/
theorem ForestOk.newInternal {ns : List (Option Node)} {a b : Nat} {rest : List Nat} (f : ForestOk ns (a :: b :: rest))
    (w : Count) (m : Byte) : ForestOk (ns ++ [some (.internal a b w m)]) (ns.length :: rest) := by
  obtain ⟨is, e, d⟩ := f
  obtain ⟨ia, x, ha, hx, rfl⟩ := forest_cons e
  obtain ⟨ib, ir, hb, hr, rfl⟩ := forest_cons hx
  have hroot : reach (ns ++ [some (Node.internal a b w m)]) (ns ++ [some (Node.internal a b w m)]).length ns.length =
      some (ns.length :: (ia ++ ib)) := by
    rw [List.length_append, List.length_singleton]
    simp only [reach, nodeAt_length, reach_mono ha (Nat.le_refl _), reach_mono hb (Nat.le_refl _)]
  refine ⟨ns.length :: (ia ++ ib) ++ ir, forest_cons_eq hroot (forest_append hr _), ?_⟩
  rw [List.cons_append, List.append_assoc]
  exact List.nodup_cons.2 ⟨fun hm => absurd (forest_lt e _ hm) (Nat.lt_irrefl _), d⟩

/-! ### Leaves and weights -/

/-- The weight of arena entry `i`. -/
def weightOf (ns : List (Option Node)) (i : Nat) : Nat := (nodeAt ns i).elim 0 fun n => n.weight.toNat

/-- The leaf symbols below the heap. -/
def heapSymbols (ns : List (Option Node)) (h : List Nat) : List Byte := h.flatMap (leavesBelow ns)

/-- The total weight of the heap. -/
def heapWeight (ns : List (Option Node)) (h : List Nat) : Nat := (h.map (weightOf ns)).sum

theorem heapSymbols_perm {ns : List (Option Node)} {h h' : List Nat} (p : h'.Perm h) :
    (heapSymbols ns h').Perm (heapSymbols ns h) := p.flatMap_right _

theorem heapWeight_perm {ns : List (Option Node)} {h h' : List Nat} (p : h'.Perm h) : heapWeight ns h' = heapWeight ns h :=
  (p.map _).sum_eq

theorem weightOf_append {ns : List (Option Node)} {i : Nat} {n : Node} (h : nodeAt ns i = some n) (xs : List (Option Node)) :
    weightOf (ns ++ xs) i = weightOf ns i := by
  simp [weightOf, h, nodeAt_append h]

theorem heapWeight_append {ns : List (Option Node)} {h : List Nat} (w : Written ns h) (xs : List (Option Node)) :
    heapWeight (ns ++ xs) h = heapWeight ns h := by
  unfold heapWeight
  congr 1
  apply List.map_congr_left
  intro i hi
  obtain ⟨n, hn⟩ := w i hi
  exact weightOf_append hn xs

theorem leavesBelow_append {ns : List (Option Node)} {i : Nat} {is : List Nat} (h : reach ns ns.length i = some is)
    (xs : List (Option Node)) : leavesBelow (ns ++ xs) i = leavesBelow ns i := by
  obtain ⟨t, ht, -⟩ := treeOf_of_reach h
  rw [leavesBelow, leavesBelow, ht, treeOf_mono ht (show ns.length ≤ (ns ++ xs).length by simp) xs]

theorem heapSymbols_append {ns : List (Option Node)} {h is : List Nat} (e : forest ns h = some is) (xs : List (Option Node)) :
    heapSymbols (ns ++ xs) h = heapSymbols ns h := by
  induction h generalizing is with
  | nil => rfl
  | cons i h ih =>
    obtain ⟨a, b, ha, hb, rfl⟩ := forest_cons e
    have := ih hb
    simp only [heapSymbols, List.flatMap_cons, leavesBelow_append ha] at this ⊢
    rw [this]

theorem weightOf_new (ns : List (Option Node)) (n : Node) : weightOf (ns ++ [some n]) ns.length = n.weight.toNat := by
  simp [weightOf, nodeAt_length]

theorem leavesBelow_newLeaf (ns : List (Option Node)) (v : Byte) (w : Count) (m : Byte) :
    leavesBelow (ns ++ [some (.leaf v w m)]) ns.length = [v] := by
  simp [leavesBelow, treeOf, nodeAt_length, CodeTree.symbols]

theorem leavesBelow_newInternal {ns : List (Option Node)} {a b : Nat} {ia ib : List Nat}
    (ha : reach ns ns.length a = some ia) (hb : reach ns ns.length b = some ib) (w : Count) (m : Byte) :
    leavesBelow (ns ++ [some (.internal a b w m)]) ns.length = leavesBelow ns a ++ leavesBelow ns b := by
  obtain ⟨ta, ea, -⟩ := treeOf_of_reach ha
  obtain ⟨tb, eb, -⟩ := treeOf_of_reach hb
  have h1 := treeOf_mono ea (Nat.le_refl _) [some (.internal a b w m)]
  have h2 := treeOf_mono eb (Nat.le_refl _) [some (.internal a b w m)]
  have : treeOf (ns ++ [some (.internal a b w m)]) (ns.length + 1) ns.length = some (.fork ta tb) := by
    simp only [treeOf, nodeAt_length, h1, h2]
  simp [leavesBelow, this, ea, eb, CodeTree.symbols]

/-! ### `SetRoot` -/

/-- `t` is `s` but for the tree and the heap. -/
def TreeOnly (s t : State) : Prop := t = { s with node := t.node, root := t.root, rootv := t.rootv, heap := t.heap }

theorem TreeOnly.refl (s : State) : TreeOnly s s := rfl

theorem TreeOnly.trans {s t u : State} (h1 : TreeOnly s t) (h2 : TreeOnly t u) : TreeOnly s u := by
  unfold TreeOnly at *
  rw [h2, h1]

theorem HeapOnly.treeOnly {s t : State} (h : HeapOnly s t) : TreeOnly s t := by
  unfold HeapOnly at h
  unfold TreeOnly
  rw [h]

theorem allocNode_treeOnly (n : Option Node) (s : State) : TreeOnly s (allocNode n s) := rfl

theorem discardTree_treeOnly (s : State) : TreeOnly s (discardTree s) := rfl

theorem setRoot_treeOnly (s : State) : TreeOnly s (setRoot s) := by
  unfold setRoot TreeOnly
  split <;> rfl

@[simp] theorem setRoot_node (s : State) : (setRoot s).node = s.node := by unfold setRoot; split <;> rfl

@[simp] theorem setRoot_heap (s : State) : (setRoot s).heap = s.heap := by unfold setRoot; split <;> rfl

theorem setRoot_setRoot (s : State) : setRoot (setRoot s) = setRoot s := by
  match h : s.heap with
  | [] => simp [setRoot, h]
  | [r] => simp [setRoot, h]
  | a :: b :: rest => simp [setRoot, h]

/-- ROOT and ROOTV after `SetRoot` (R133). -/
theorem setRoot_cases (s : State) :
    (∃ r, s.heap = [r] ∧ (setRoot s).root = r ∧ (setRoot s).rootv = true) ∨
    (s.heap.length ≠ 1 ∧ (setRoot s).root = 0 ∧ (setRoot s).rootv = false) := by
  unfold setRoot
  split
  · rename_i r h
    exact .inl ⟨r, h, rfl, rfl⟩
  · rename_i h
    refine .inr ⟨?_, rfl, rfl⟩
    intro hl
    obtain ⟨r, hr⟩ := List.length_eq_one_iff.1 hl
    exact h r hr

/-! ### `Seed` -/

/-- The entries of a table that are keys: those with a count (R21, R125). -/
def keysOf (table : List (Byte × Count)) : List (Byte × Count) := table.filter fun c => decide (c.2 ≠ 0#32)

/-- The leaf a key makes (R134). -/
def seedLeaf (c : Byte × Count) : Option Node := some (.leaf c.1 c.2 c.1)

theorem ordered_append_node {ns : List (Option Node)} {h : List Nat} (w : Written ns h) (o : Ordered ns h)
    (xs : List (Option Node)) : Ordered (ns ++ xs) h := by
  have key : ∀ j, j < h.length → keyAt (ns ++ xs) h j = keyAt ns h j := by
    intro j hj
    obtain ⟨nd, hnd⟩ := w _ (List.getElem_mem hj)
    rw [keyAt, keyAt, List.getD_eq_getElem _ _ hj, keyOf, keyOf, hnd, nodeAt_append hnd]
  intro k hk hl
  rw [key k hl, key _ (by omega)]
  exact o k hk hl

/-- Everything the loop of `Seed` does: a leaf for each key in table order, each index joining the heap (R134). -/
theorem seedAll_spec {table : List (Byte × Count)} {s : State} (f : ForestOk s.node s.heap) :
    ∃ t, seedAll table s = .ok () t ∧ TreeOnly s t ∧ t.root = s.root ∧ t.rootv = s.rootv ∧
      t.node = s.node ++ (keysOf table).map seedLeaf ∧
      t.heap.Perm (List.range' s.node.length (keysOf table).length ++ s.heap) ∧ ForestOk t.node t.heap ∧
      (heapSymbols t.node t.heap).Perm ((keysOf table).map Prod.fst ++ heapSymbols s.node s.heap) ∧
      heapWeight t.node t.heap = ((keysOf table).map fun c => c.2.toNat).sum + heapWeight s.node s.heap ∧
      (Ordered s.node s.heap → Ordered t.node t.heap) := by
  induction table generalizing s with
  | nil =>
    exact ⟨s, rfl, rfl, rfl, rfl, by simp [keysOf], by simp [keysOf], f, by simp [keysOf], by simp [keysOf], id⟩
  | cons c rest ih =>
    obtain ⟨v, n⟩ := c
    by_cases h0 : n = 0#32
    · have hk : keysOf ((v, n) :: rest) = keysOf rest := by simp [keysOf, h0]
      obtain ⟨t, e, h⟩ := ih f
      exact ⟨t, by simp [seedAll, h0, e], by rw [hk]; exact h⟩
    · have hk : keysOf ((v, n) :: rest) = (v, n) :: keysOf rest := by simp [keysOf, h0]
      have fl := f.newLeaf v n v
      let a := allocNode (some (.leaf v n v)) s
      have wa : Written a.node (s.node.length :: a.heap) := fl.written
      obtain ⟨b, eb, ob, pb, ordb⟩ := heapInsert_spec (s := a) (i := s.node.length) wa
      have hnb : b.node = s.node ++ [some (.leaf v n v)] := ob.node
      have fb : ForestOk b.node b.heap := by rw [hnb]; exact fl.perm pb
      obtain ⟨is, hf, -⟩ := f
      obtain ⟨t, e, d, hroot, hrootv, hn, hp, hfo, hs, hw, hord⟩ := ih fb
      have tb : TreeOnly s b := (allocNode_treeOnly _ s).trans ob.treeOnly
      refine ⟨t, ?_, tb.trans d, ?_, ?_, ?_, ?_, hfo, ?_, ?_, ?_⟩
      · simp only [seedAll, if_neg h0]
        rw [show heapInsert s.node.length a = .ok () b from eb]
        exact e
      · rw [hroot, ob]; rfl
      · rw [hrootv, ob]; rfl
      · rw [hn, hnb, hk]; simp [seedLeaf]
      · rw [hk]
        refine hp.trans ?_
        rw [hnb]
        simp only [List.length_append, List.length_cons, List.range'_succ, List.cons_append]
        exact (pb.append_left _).trans List.perm_middle
      · rw [hk, List.map_cons, List.cons_append]
        refine hs.trans ?_
        have h1 : (heapSymbols b.node b.heap).Perm (v :: heapSymbols s.node s.heap) := by
          refine (heapSymbols_perm pb).trans ?_
          rw [hnb]
          show (leavesBelow _ _ ++ heapSymbols _ _).Perm _
          rw [leavesBelow_newLeaf, show a.heap = s.heap from rfl, heapSymbols_append hf]
          exact List.Perm.refl _
        exact (h1.append_left _).trans List.perm_middle
      · rw [hk, hw]
        have h1 : heapWeight b.node b.heap = n.toNat + heapWeight s.node s.heap := by
          rw [heapWeight_perm pb, hnb]
          show ([weightOf _ _] ++ _).sum = _
          rw [weightOf_new, List.sum_append, show a.heap = s.heap from rfl]
          have := heapWeight_append (forest_written hf) [some (.leaf v n v)]
          unfold heapWeight at this ⊢
          rw [this]
          simp [Node.weight]
        rw [h1]
        simp
        omega
      · intro o
        apply hord
        apply ordb
        exact ordered_append_node (forest_written hf) o _

theorem ordered_nil (ns : List (Option Node)) : Ordered ns [] := fun k _ hk => by simp at hk

/-- Everything `Seed` does, in every state (R134). -/
theorem seed_spec (s : State) :
    ∃ t, seed s = .ok () t ∧ TreeOnly s t ∧ t.node = (keysOf s.freqTable).map seedLeaf ∧
      t.heap.Perm (List.range (keysOf s.freqTable).length) ∧ setRoot t = t ∧ ForestOk t.node t.heap ∧
      (heapSymbols t.node t.heap).Perm ((keysOf s.freqTable).map Prod.fst) ∧
      heapWeight t.node t.heap = ((keysOf s.freqTable).map fun c => c.2.toNat).sum ∧ Ordered t.node t.heap := by
  obtain ⟨t, e, d, hroot, hrootv, hn, hp, hf, hs, hw, ho⟩ :=
    seedAll_spec (table := s.freqTable) (s := discardTree s) (forest_nil [])
  refine ⟨setRoot t, by simp [seed, e], (discardTree_treeOnly s).trans (d.trans (setRoot_treeOnly t)), ?_, ?_, ?_, ?_, ?_, ?_, ?_⟩
  · simpa using hn
  · rw [setRoot_heap, List.range_eq_range']; simpa using hp
  · exact setRoot_setRoot t
  · simpa using hf
  · simpa [heapSymbols] using hs
  · simpa [heapWeight] using hw
  · simpa using ho (ordered_nil _)

/-! ### `Merge` -/

/-- The node `Merge` makes of the entries `a` and `b` (R135). -/
def mergedNode (a b : Nat) (x y : Node) : Node :=
  .internal a b (x.weight + y.weight) (if x.minsym ≤ y.minsym then x.minsym else y.minsym)

/-- The pair `Merge` takes: `a` then `b`, `rest` what stays; where the heap is ordered, of least and second least key. -/
structure MergePair (s : State) (a b : Nat) (rest : List Nat) (x y : Node) : Prop where
  perm : (a :: b :: rest).Perm s.heap
  nodeA : nodeAt s.node a = some x
  nodeB : nodeAt s.node b = some y
  least : s.HeapOrdered → ∀ i ∈ s.heap, keyOf s.node a ≤ keyOf s.node i
  second : s.HeapOrdered → ∀ i ∈ b :: rest, keyOf s.node b ≤ keyOf s.node i

/-- Everything `Merge` can do with at least two entries in a sound heap: take a pair, and either raise
E_WEIGHT_OVERFLOW with the pair out of the heap, or put the merged node in its place and set the root (R135). -/
theorem merge_cases {s : State} (f : ForestOk s.node s.heap) (h2 : 2 ≤ s.heap.length) :
    ∃ a b rest x y, MergePair s a b rest x y ∧
      ((2 ^ 32 ≤ x.weight.toNat + y.weight.toNat ∧
          ∃ u, merge s = .err .weightOverflow u ∧ HeapOnly s u ∧ u.heap.Perm rest ∧
            (Ordered s.node s.heap → Ordered u.node u.heap)) ∨
        (x.weight.toNat + y.weight.toNat < 2 ^ 32 ∧
          ∃ u, merge s = .ok () u ∧ TreeOnly s u ∧ u.node = s.node ++ [some (mergedNode a b x y)] ∧
            u.heap.Perm (s.node.length :: rest) ∧ setRoot u = u ∧ ForestOk u.node u.heap ∧
            (Ordered s.node s.heap → Ordered u.node u.heap))) := by
  have w := f.written
  obtain ⟨a, s1, e1, o1, p1, ord1⟩ := heapExtractMin_spec w (by intro h; simp [h] at h2)
  have hn1 := o1.node
  have w1 : Written s1.node s1.heap := by
    rw [hn1]
    exact fun i hi => w i (p1.mem_iff.1 (List.mem_cons_of_mem _ hi))
  have l1 : s1.heap.length + 1 = s.heap.length := by simpa using p1.length_eq
  obtain ⟨b, s2, e2, o2, p2, ord2⟩ := heapExtractMin_spec w1 (by intro h; simp [h] at l1; omega)
  have hn2 : s2.node = s.node := o2.node.trans hn1
  have pall : (a :: b :: s2.heap).Perm s.heap := (p2.cons a).trans p1
  obtain ⟨x, hx⟩ := w a (pall.mem_iff.1 List.mem_cons_self)
  obtain ⟨y, hy⟩ := w b (pall.mem_iff.1 (List.mem_cons_of_mem _ List.mem_cons_self))
  have hlt : ¬s.heap.length < 2 := by omega
  have ordS : s.HeapOrdered → Ordered s.node s.heap := fun h => (ordered_iff w).2 h
  refine ⟨a, b, s2.heap, x, y, ⟨pall, hx, hy, fun h => (ord1 (ordS h)).2, fun h i hi => ?_⟩, ?_⟩
  · have := (ord2 (ord1 (ordS h)).1).2 i (p2.mem_iff.1 hi)
    rwa [hn1] at this
  · have hmerge : merge s = mergePair a b s2 := by simp [merge, hlt, e1, e2]
    by_cases hw : 2 ^ 32 ≤ x.weight.toNat + y.weight.toNat
    · refine .inl ⟨hw, s2, ?_, o1.trans o2, List.Perm.refl _, fun o => (ord2 (ord1 o).1).1⟩
      rw [hmerge]
      simp only [mergePair, hn2, hx, hy, if_pos hw]
    · refine .inr ⟨by omega, ?_⟩
      have fi := (f.perm pall).newInternal (x.weight + y.weight) (if x.minsym ≤ y.minsym then x.minsym else y.minsym)
      let c := allocNode (some (mergedNode a b x y)) s2
      have hnc : c.node = s.node ++ [some (mergedNode a b x y)] := by show s2.node ++ _ = _; rw [hn2]
      have wc : Written c.node (s.node.length :: c.heap) := by rw [hnc]; exact fi.written
      obtain ⟨d, e3, o3, p3, ord3⟩ := heapInsert_spec (s := c) (i := s.node.length) wc
      have hnd : d.node = s.node ++ [some (mergedNode a b x y)] := o3.node.trans hnc
      refine ⟨setRoot d, ?_, ?_, ?_, ?_, ?_, ?_, ?_⟩
      · rw [hmerge]
        simp only [mergePair, hn2, hx, hy, if_neg hw]
        change (heapInsert s.node.length c).bind _ = _
        rw [e3]
        rfl
      · exact (o1.treeOnly.trans o2.treeOnly).trans ((allocNode_treeOnly _ s2).trans (o3.treeOnly.trans (setRoot_treeOnly d)))
      · rw [setRoot_node, hnd]
      · rw [setRoot_heap]; exact p3
      · exact setRoot_setRoot d
      · rw [setRoot_node, setRoot_heap, hnd]; exact fi.perm p3
      · intro o
        rw [setRoot_node, setRoot_heap]
        apply ord3
        rw [hnc]
        have o2' := (ord2 (ord1 o).1).1
        rw [hn2] at o2'
        refine ordered_append_node ?_ o2' _
        exact fun i hi => w i (pall.mem_iff.1 (List.mem_cons_of_mem _ (List.mem_cons_of_mem _ hi)))

theorem merge_underflow {s : State} (h : s.heap.length < 2) : merge s = .err .heapUnderflow s := by simp [merge, h]

/-! ### What building keeps -/

/-- The part of R34 about the arena, the root and the heap. -/
structure BuildOk (s : State) : Prop where
  nullRoot : s.rootv = false → s.root = 0
  arenaCap : s.node.length ≤ Config.nodeCap
  heapCap : s.heap.length ≤ Config.heapCap
  arenaRoom : s.heap ≠ [] → s.node.length + s.heap.length ≤ 2 * Config.heapCap
  rootTree : s.rootv = true → ∃ is, reach s.node s.node.length s.root = some is ∧ is.Nodup
  heapForest : ForestOk s.node s.heap

theorem buildOk_of_setRoot {s : State} (hr : setRoot s = s) (hc : s.node.length ≤ Config.nodeCap)
    (hh : s.heap.length ≤ Config.heapCap) (ha : s.heap ≠ [] → s.node.length + s.heap.length ≤ 2 * Config.heapCap)
    (f : ForestOk s.node s.heap) : BuildOk s := by
  refine ⟨?_, hc, hh, ha, ?_, f⟩
  · intro hv
    rcases setRoot_cases s with ⟨r, -, -, h⟩ | ⟨-, h, -⟩
    · rw [hr, hv] at h; cases h
    · rwa [hr] at h
  · intro hv
    rcases setRoot_cases s with ⟨r, hheap, hroot, -⟩ | ⟨-, -, h⟩
    · rw [hr] at hroot
      rw [hheap] at f
      rw [hroot]
      exact f.head
    · rw [hr, hv] at h; cases h

theorem allSymbols_length : allSymbols.length = 256 := by simp [allSymbols, Config.nsym]

theorem keysOf_length (s : State) : (keysOf s.freqTable).length ≤ 256 := by
  refine (List.length_filter_le _ _).trans ?_
  simp [State.freqTable, allSymbols_length]

theorem seed_buildOk {s t : State} (h : seed s = .ok () t) : BuildOk t := by
  obtain ⟨t', e, -, hn, hp, hr, hf, -⟩ := seed_spec s
  rw [e] at h
  cases h
  have hk := keysOf_length s
  have hl : t.heap.length = (keysOf s.freqTable).length := by simpa using hp.length_eq
  have hnl : t.node.length = (keysOf s.freqTable).length := by simp [hn]
  exact buildOk_of_setRoot hr (by simp [Config.nodeCap]; omega) (by simp [Config.heapCap]; omega)
    (fun _ => by simp [Config.heapCap]; omega) hf

/-- `Merge` keeps it, whether it ends well or raises; it never gets stuck. -/
theorem merge_buildOk {s : State} (b : BuildOk s) :
    (∃ t, merge s = .ok () t ∧ TreeOnly s t ∧ BuildOk t ∧ t.heap.length + 1 = s.heap.length ∧
      (Ordered s.node s.heap → Ordered t.node t.heap)) ∨
    (∃ e t, merge s = .err e t ∧ TreeOnly s t ∧ BuildOk t ∧ (e = .heapUnderflow ∧ t = s ∨ e = .weightOverflow) ∧
      (Ordered s.node s.heap → Ordered t.node t.heap)) := by
  by_cases h2 : 2 ≤ s.heap.length
  · obtain ⟨a, c, rest, x, y, mp, h | h⟩ := merge_cases b.heapForest h2
    · obtain ⟨-, u, e, o, p, ord⟩ := h
      have hl : rest.length + 2 = s.heap.length := by simpa using mp.perm.length_eq
      have hul := p.length_eq
      have hne : s.heap ≠ [] := by intro h; simp [h] at h2
      have hroom := b.arenaRoom hne
      have hnode := o.node
      refine .inr ⟨_, u, e, o.treeOnly, ⟨?_, ?_, ?_, ?_, ?_, ?_⟩, .inr rfl, ord⟩
      · rw [o]; exact b.nullRoot
      · rw [hnode]; exact b.arenaCap
      · have := b.heapCap; omega
      · intro _; rw [hnode]; omega
      · rw [o]; exact b.rootTree
      · rw [hnode]; exact ((b.heapForest.perm mp.perm).tail.tail).perm p
    · obtain ⟨-, u, e, o, hn, p, hr, hf, ord⟩ := h
      have hl : rest.length + 2 = s.heap.length := by simpa using mp.perm.length_eq
      have hul : u.heap.length = rest.length + 1 := by simpa using p.length_eq
      have hne : s.heap ≠ [] := by intro h; simp [h] at h2
      have hroom := b.arenaRoom hne
      have hcap := b.heapCap
      have hnl : u.node.length = s.node.length + 1 := by rw [hn]; simp
      simp only [Config.heapCap] at hroom hcap
      refine .inl ⟨u, e, o, buildOk_of_setRoot hr ?_ ?_ ?_ hf, by omega, ord⟩
      · simp only [Config.nodeCap]; omega
      · simp only [Config.heapCap]; omega
      · intro _; simp only [Config.heapCap]; omega
  · exact .inr ⟨_, s, merge_underflow (by omega), rfl, b, .inl ⟨rfl, rfl⟩, id⟩

theorem mergeAll_buildOk {n : Nat} {s : State} (b : BuildOk s) :
    (∃ t, mergeAll n s = .ok () t ∧ TreeOnly s t ∧ BuildOk t ∧ (Ordered s.node s.heap → Ordered t.node t.heap)) ∨
    (∃ t, mergeAll n s = .err .weightOverflow t ∧ TreeOnly s t ∧ BuildOk t ∧
      (Ordered s.node s.heap → Ordered t.node t.heap)) := by
  induction n generalizing s with
  | zero => exact .inl ⟨s, rfl, rfl, b, id⟩
  | succ n ih =>
    by_cases h1 : 1 < s.heap.length
    · simp only [mergeAll, if_pos h1]
      rcases merge_buildOk b with ⟨t, e, o, bt, -, ot⟩ | ⟨x, t, e, o, bt, hx, ot⟩
      · rcases ih bt with ⟨u, eu, ou, bu, oo⟩ | ⟨u, eu, ou, bu, oo⟩
        · exact .inl ⟨u, by simp [e, eu], o.trans ou, bu, fun h => oo (ot h)⟩
        · exact .inr ⟨u, by simp [e, eu], o.trans ou, bu, fun h => oo (ot h)⟩
      · have : x = .weightOverflow := by
          rcases hx with ⟨rfl, rfl⟩ | rfl
          · obtain ⟨_, _, _, _, _, _, ⟨_, _, h, _⟩ | ⟨_, _, h, _⟩⟩ := merge_cases b.heapForest h1 <;>
              rw [h] at e <;> cases e
          · rfl
        subst this
        exact .inr ⟨t, by simp [e], o, bt, ot⟩
    · exact .inl ⟨s, by simp [mergeAll, h1], rfl, b, id⟩

/-- Everything `Build` can do, in every state: end well or raise E_WEIGHT_OVERFLOW (R136, R205). -/
theorem build_cases (s : State) :
    (∃ t, build s = .ok () t ∧ TreeOnly s t ∧ BuildOk t ∧ Ordered t.node t.heap) ∨
    (∃ t, build s = .err .weightOverflow t ∧ TreeOnly s t ∧ BuildOk t ∧ Ordered t.node t.heap) := by
  obtain ⟨t, e, o, -, -, -, -, -, -, ord⟩ := seed_spec s
  have b := seed_buildOk e
  rcases mergeAll_buildOk (n := t.heap.length) b with ⟨u, eu, ou, bu, oo⟩ | ⟨u, eu, ou, bu, oo⟩
  · exact .inl ⟨u, by simp [build, e, eu], o.trans ou, bu, oo ord⟩
  · exact .inr ⟨u, by simp [build, e, eu], o.trans ou, bu, oo ord⟩

theorem weight_le_heap {ns : List (Option Node)} {h : List Nat} {a b : Nat} {rest : List Nat} (p : (a :: b :: rest).Perm h) :
    weightOf ns a + weightOf ns b ≤ heapWeight ns h := by
  rw [← heapWeight_perm p]
  simp only [heapWeight, List.map_cons, List.sum_cons]
  omega

/-- The merges of `Build` (R136, R141): either they end well with at most one node left, the same leaves below it, the same
total weight and one more arena entry for each merge; or two weights do not fit 32 bits, and then neither does the total.
Arena entries written before stay. -/
theorem mergeAll_spec {n : Nat} {s : State} (f : ForestOk s.node s.heap) (hr : setRoot s = s) (hn : s.heap.length ≤ n) :
    (∃ t, mergeAll n s = .ok () t ∧ TreeOnly s t ∧ ForestOk t.node t.heap ∧ setRoot t = t ∧ t.heap.length ≤ 1 ∧
      t.node.length + t.heap.length = s.node.length + s.heap.length ∧ (t.heap = [] ↔ s.heap = []) ∧
      (heapSymbols t.node t.heap).Perm (heapSymbols s.node s.heap) ∧
      heapWeight t.node t.heap = heapWeight s.node s.heap ∧
      (2 ≤ s.heap.length → t.heap = [t.node.length - 1]) ∧ ∃ xs, t.node = s.node ++ xs) ∨
    (2 ^ 32 ≤ heapWeight s.node s.heap ∧ ∃ t, mergeAll n s = .err .weightOverflow t ∧ TreeOnly s t ∧ t.root = 0 ∧
      t.rootv = false ∧ (Ordered s.node s.heap → Ordered t.node t.heap) ∧ ForestOk t.node t.heap ∧
      ∃ xs, t.node = s.node ++ xs) := by
  induction n generalizing s with
  | zero => exact .inl ⟨s, rfl, rfl, f, hr, by omega, rfl, Iff.rfl, List.Perm.refl _, rfl, fun h => by omega, [], by simp⟩
  | succ n ih =>
    by_cases h1 : 1 < s.heap.length
    · obtain ⟨a, b, rest, x, y, mp, h | h⟩ := merge_cases f h1
      · have hle := weight_le_heap (ns := s.node) mp.perm
        have ha : weightOf s.node a = x.weight.toNat := by simp [weightOf, mp.nodeA]
        have hb : weightOf s.node b = y.weight.toNat := by simp [weightOf, mp.nodeB]
        obtain ⟨hsum, u, e, o, p, ord⟩ := h
        have hroot : s.root = 0 ∧ s.rootv = false := by
          rcases setRoot_cases s with ⟨r, hh, -⟩ | ⟨-, h2, h3⟩
          · rw [hh] at h1; simp at h1
          · rw [hr] at h2 h3; exact ⟨h2, h3⟩
        refine .inr ⟨by omega, u, by simp [mergeAll, h1, e], o.treeOnly, ?_, ?_, ord, ?_, [], by simp [o.node]⟩
        · rw [o]; exact hroot.1
        · rw [o]; exact hroot.2
        · rw [o.node]; exact ((f.perm mp.perm).tail.tail).perm p
      · obtain ⟨hsum, u, e, o, hnode, p, hru, fu, ordu⟩ := h
        have hl : rest.length + 2 = s.heap.length := by simpa using mp.perm.length_eq
        have hul : u.heap.length = rest.length + 1 := by simpa using p.length_eq
        have fp := f.perm mp.perm
        obtain ⟨is, efp, -⟩ := fp
        obtain ⟨ia, z, ra, hz, -⟩ := forest_cons efp
        obtain ⟨ib, ir, rb, hrest, -⟩ := forest_cons hz
        have hsyms : (heapSymbols u.node u.heap).Perm (heapSymbols s.node s.heap) := by
          refine (heapSymbols_perm p).trans (List.Perm.trans ?_ (heapSymbols_perm mp.perm))
          rw [hnode]
          show (leavesBelow _ _ ++ heapSymbols _ rest).Perm (leavesBelow _ a ++ (leavesBelow _ b ++ heapSymbols _ rest))
          rw [mergedNode, leavesBelow_newInternal ra rb, heapSymbols_append hrest, List.append_assoc]
        have hwt : heapWeight u.node u.heap = heapWeight s.node s.heap := by
          rw [heapWeight_perm p, ← heapWeight_perm mp.perm, hnode]
          have hr' := heapWeight_append (forest_written hrest) [some (mergedNode a b x y)]
          have hsum' : (x.weight + y.weight).toNat = x.weight.toNat + y.weight.toNat := by
            rw [BitVec.toNat_add, Nat.mod_eq_of_lt hsum]
          simp only [heapWeight, List.map_cons, List.sum_cons] at hr' ⊢
          rw [hr', weightOf_new]
          have hm : (mergedNode a b x y).weight = x.weight + y.weight := rfl
          have ha : weightOf s.node a = x.weight.toNat := by simp [weightOf, mp.nodeA]
          have hb : weightOf s.node b = y.weight.toNat := by simp [weightOf, mp.nodeB]
          rw [hm, hsum', ha, hb]
          omega
        rcases ih fu hru (by omega) with
          ⟨t, et, ot, ft, hrt, hlt, hcount, hnil, hst, hwtt, hlast, xs, hxs⟩ |
          ⟨hov, t, et, ot, r0, rv0, ordt, ft, xs, hxs⟩
        · refine .inl ⟨t, by simp [mergeAll, h1, e, et], o.trans ot, ft, hrt, hlt, ?_, ?_, hst.trans hsyms, hwtt.trans hwt,
            ?_, _ :: xs, by rw [hxs, hnode, List.append_assoc]; rfl⟩
          · rw [hcount, hnode]; simp; omega
          · constructor
            · intro h
              have := hnil.1 h
              simp [this] at hul
            · intro h
              simp [h] at h1
          · intro _
            by_cases h2 : 2 ≤ u.heap.length
            · exact hlast h2
            · have hone : u.heap.length = 1 := by omega
              have hrest0 : rest = [] := by
                have : rest.length = 0 := by omega
                exact List.length_eq_zero_iff.1 this
              rw [hrest0] at p
              have hu : u.heap = [s.node.length] := List.perm_singleton.1 p
              have htu : t = u := by
                have : mergeAll n u = .ok () u := by
                  cases n with
                  | zero => rfl
                  | succ n => simp [mergeAll, hone]
                rw [this] at et
                cases et
                rfl
              rw [htu, hu, hnode]
              simp
        · refine .inr ⟨by omega, t, by simp [mergeAll, h1, e, et], o.trans ot, r0, rv0, fun h => ordt (ordu h), ft,
            _ :: xs, by rw [hxs, hnode, List.append_assoc]; rfl⟩
    · exact .inl ⟨s, by simp [mergeAll, h1], rfl, f, hr, by omega, rfl, Iff.rfl, List.Perm.refl _, rfl, fun h => by omega, [],
        by simp⟩

theorem weightOf_lt (ns : List (Option Node)) (i : Nat) : weightOf ns i < 2 ^ 32 := by
  unfold weightOf
  cases nodeAt ns i with
  | none => exact Nat.two_pow_pos 32
  | some n => exact n.weight.isLt

/-- Everything `Build` does (R136, R139): with k keys, the tree of 2k - 1 nodes when the counts sum to less than 2^32, and
E_WEIGHT_OVERFLOW when they do not. The seeds are the first arena entries. -/
theorem build_spec (s : State) :
    (((keysOf s.freqTable).map fun c => c.2.toNat).sum < 2 ^ 32 ∧
      ∃ t, build s = .ok () t ∧ TreeOnly s t ∧ ForestOk t.node t.heap ∧ setRoot t = t ∧
      (keysOf s.freqTable = [] → t.node = [] ∧ t.heap = []) ∧
      (keysOf s.freqTable ≠ [] → t.node.length + 1 = 2 * (keysOf s.freqTable).length ∧ t.heap = [t.node.length - 1]) ∧
      (heapSymbols t.node t.heap).Perm ((keysOf s.freqTable).map Prod.fst) ∧
      heapWeight t.node t.heap = ((keysOf s.freqTable).map fun c => c.2.toNat).sum ∧
      ∃ xs, t.node = (keysOf s.freqTable).map seedLeaf ++ xs) ∨
    (2 ^ 32 ≤ ((keysOf s.freqTable).map fun c => c.2.toNat).sum ∧
      ∃ t, build s = .err .weightOverflow t ∧ TreeOnly s t ∧ t.root = 0 ∧ t.rootv = false ∧ Ordered t.node t.heap ∧
      ForestOk t.node t.heap ∧ ∃ xs, t.node = (keysOf s.freqTable).map seedLeaf ++ xs) := by
  obtain ⟨a, e, o, hn, hp, hr, hf, hs, hwt, hord⟩ := seed_spec s
  have hal : a.heap.length = (keysOf s.freqTable).length := by simpa using hp.length_eq
  have hanl : a.node.length = (keysOf s.freqTable).length := by simp [hn]
  rcases mergeAll_spec (n := a.heap.length) hf hr (Nat.le_refl _) with
    ⟨t, et, ot, ft, hrt, hlt, hcount, hnil, hst, hwtt, hlast, xs, hxs⟩ | ⟨hov, t, et, ot, r0, rv0, ordt, ft, xs, hxs⟩
  · refine .inl ⟨?_, t, by simp [build, e, et], o.trans ot, ft, hrt, ?_, ?_, hst.trans hs, hwtt.trans hwt, xs, by rw [hxs, hn]⟩
    · rw [← hwt, ← hwtt]
      match hh : t.heap with
      | [] => exact Nat.two_pow_pos 32
      | [r] =>
        have := weightOf_lt t.node r
        simpa [heapWeight] using this
      | _ :: _ :: _ => simp [hh] at hlt
    · intro h0
      have hk : (keysOf s.freqTable).length = 0 := by simp [h0]
      have ha : a.heap = [] := List.length_eq_zero_iff.1 (by omega)
      have ht := hnil.2 ha
      refine ⟨List.length_eq_zero_iff.1 ?_, ht⟩
      simp only [ht, List.length_nil] at hcount
      omega
    · intro hk
      have hpos : 0 < (keysOf s.freqTable).length := List.length_pos_iff.2 hk
      have ht : t.heap ≠ [] := by
        intro h
        have := hnil.1 h
        simp [this] at hal
        omega
      have htl : 0 < t.heap.length := List.length_pos_iff.2 ht
      refine ⟨by omega, ?_⟩
      by_cases h2 : 2 ≤ a.heap.length
      · exact hlast h2
      · have hone : a.heap.length = 1 := by omega
        have hta : t = a := by
          have : mergeAll a.heap.length a = .ok () a := by simp [hone, mergeAll]
          rw [this] at et
          cases et
          rfl
        have hk1 : (keysOf s.freqTable).length = 1 := by omega
        rw [hk1] at hp
        have : a.heap = [0] := List.perm_singleton.1 hp
        rw [hta, this, hanl, hk1]
  · exact .inr ⟨by omega, t, by simp [build, e, et], o.trans ot, r0, rv0, ordt hord, ft, xs, by rw [hxs, hn]⟩

/-- Where the merges of `Build` raise: `m` of them have ended well, as MERGE commands, each with one more arena entry and one
less in the heap; the next takes a pair whose weights do not fit 32 bits, and leaves it out of the heap (R135, R136, R206). -/
theorem mergeAll_overflow {n : Nat} {s t : State} {x : ErrorKind} (f : ForestOk s.node s.heap) (hr : setRoot s = s)
    (h : mergeAll n s = .err x t) :
    ∃ m u a b rest p q, execAll (List.replicate m .merge) s = .next u ∧ TreeOnly s u ∧ u.root = 0 ∧ u.rootv = false ∧
      u.node.length = s.node.length + m ∧ u.heap.length + m = s.heap.length ∧ (∃ xs, u.node = s.node ++ xs) ∧
      ForestOk u.node u.heap ∧ (Ordered s.node s.heap → Ordered u.node u.heap ∧ Ordered t.node t.heap) ∧
      MergePair u a b rest p q ∧ 2 ^ 32 ≤ p.weight.toNat + q.weight.toNat ∧ merge u = .err .weightOverflow t ∧
      x = .weightOverflow ∧ HeapOnly u t ∧ t.heap.Perm rest := by
  induction n generalizing s with
  | zero => cases h
  | succ n ih =>
    by_cases h1 : 1 < s.heap.length
    · simp only [mergeAll, if_pos h1] at h
      obtain ⟨a, b, rest, p, q, mp, ⟨hw, v, e, o, hp, ord⟩ | ⟨-, v, e, o, hn, hp, hv, fv, ord⟩⟩ := merge_cases f h1
      · rw [e] at h
        cases h
        have hroot : s.root = 0 ∧ s.rootv = false := by
          rcases setRoot_cases s with ⟨r, hh, -⟩ | ⟨-, h2, h3⟩
          · rw [hh] at h1; simp at h1
          · rw [hr] at h2 h3; exact ⟨h2, h3⟩
        exact ⟨0, s, a, b, rest, p, q, rfl, rfl, hroot.1, hroot.2, rfl, rfl, ⟨[], by simp⟩, f, fun h => ⟨h, ord h⟩, mp, hw, e,
          rfl, o, hp⟩
      · rw [e, bind_ok] at h
        obtain ⟨m, u, a', b', rest', p', q', eu, ou, h0, hv0, hnl, hhl, ⟨xs, hxs⟩, fu, ordu, k⟩ := ih fv hv h
        have hl : rest.length + 2 = s.heap.length := by simpa using mp.perm.length_eq
        have hvl : v.heap.length = rest.length + 1 := by simpa using hp.length_eq
        have hvn : v.node.length = s.node.length + 1 := by rw [hn]; simp
        refine ⟨m + 1, u, a', b', rest', p', q', ?_, o.trans ou, h0, hv0, by omega, by omega,
          ⟨_ :: xs, by rw [hxs, hn, List.append_assoc]; rfl⟩, fu, fun h => ordu (ord h), k⟩
        have hx : exec .merge s = .next v := by
          show finish _ (merge s) = _
          rw [e]
          rfl
        simp only [List.replicate_succ, execAll, hx, eu]
    · simp only [mergeAll, if_neg h1] at h
      cases h

/-- Where `Build` raises, as `mergeAll_overflow` says of its merges after `Seed` (R136, R206). -/
theorem build_overflow {s : State} (h : 2 ^ 32 ≤ ((keysOf s.freqTable).map fun c => c.2.toNat).sum) :
    ∃ t m u a b rest p q, build s = .err .weightOverflow t ∧ execAll (.seed :: List.replicate m .merge) s = .next u ∧
      TreeOnly s u ∧ u.root = 0 ∧ u.rootv = false ∧ u.node.length = (keysOf s.freqTable).length + m ∧
      u.heap.length + m = (keysOf s.freqTable).length ∧ (∃ xs, u.node = (keysOf s.freqTable).map seedLeaf ++ xs) ∧
      ForestOk u.node u.heap ∧ Ordered u.node u.heap ∧ Ordered t.node t.heap ∧ MergePair u a b rest p q ∧
      2 ^ 32 ≤ p.weight.toNat + q.weight.toNat ∧ merge u = .err .weightOverflow t ∧ HeapOnly u t ∧ t.heap.Perm rest := by
  obtain ⟨v, e, o, hn, hp, hr, hf, -, -, ord⟩ := seed_spec s
  rcases build_spec s with ⟨hw, -⟩ | ⟨-, t, eb, -⟩
  · omega
  · have hm : mergeAll v.heap.length v = .err .weightOverflow t := by rw [build, e, bind_ok] at eb; exact eb
    obtain ⟨m, u, a, b, rest, p, q, eu, ou, h0, hv0, hnl, hhl, ⟨xs, hxs⟩, fu, ordu, mp, hw, em, -, ho, ht⟩ :=
      mergeAll_overflow hf hr hm
    have hvl : v.heap.length = (keysOf s.freqTable).length := by simpa using hp.length_eq
    have hvn : v.node.length = (keysOf s.freqTable).length := by simp [hn]
    refine ⟨t, m, u, a, b, rest, p, q, eb, ?_, o.trans ou, h0, hv0, by omega, by omega, ⟨xs, by rw [hxs, hn]⟩, fu, (ordu ord).1,
      (ordu ord).2, mp, hw, em, ho, ht⟩
    have hx : exec .seed s = .next v := by
      show finish _ (seed s) = _
      rw [e]
      rfl
    simp only [execAll, hx, eu]

/-! ### The keys of the frequency table -/

theorem freqTable_eq (s : State) : s.freqTable = allSymbols.map fun v => (v, s.freqAt v) := by
  apply List.ext_getElem
  · simp [State.freqTable, allSymbols_length]
  · intro i h1 h2
    have hi : i < 256 := by simpa [allSymbols_length] using h2
    simp [State.freqTable, allSymbols, State.freqAt, Nat.mod_eq_of_lt hi]

theorem keysOf_freqTable (s : State) : keysOf s.freqTable = s.keys.map fun v => (v, s.freqAt v) := by
  rw [freqTable_eq, keysOf, State.keys, List.filter_map]
  rfl

theorem keysOf_fst (s : State) : (keysOf s.freqTable).map Prod.fst = s.keys := by
  rw [keysOf_freqTable, List.map_map]
  exact List.map_id' _

theorem allSymbols_nodup : allSymbols.Nodup := by
  unfold allSymbols
  refine List.Nodup.map_on ?_ List.nodup_range
  intro x hx y hy h
  have hx' := List.mem_range.1 hx
  have hy' := List.mem_range.1 hy
  have := congrArg BitVec.toNat h
  simp only [BitVec.toNat_ofNat, Config.nsym] at this hx' hy'
  omega

theorem mem_allSymbols (v : Byte) : v ∈ allSymbols := by
  refine List.mem_map.2 ⟨v.toNat, List.mem_range.2 v.isLt, ?_⟩
  simp

theorem keys_nodup (s : State) : s.keys.Nodup := allSymbols_nodup.filter _

theorem mem_keys {s : State} {v : Byte} : v ∈ s.keys ↔ s.freqAt v ≠ 0#32 := by
  simp [State.keys, mem_allSymbols]

theorem keysOf_sum (s : State) : ((keysOf s.freqTable).map fun c => c.2.toNat).sum = s.totalCount := by
  rw [keysOf_freqTable, List.map_map, State.totalCount, State.keys]
  induction allSymbols with
  | nil => rfl
  | cons v rest ih =>
    by_cases h : s.freqAt v = 0#32
    · simpa [h] using ih
    · simpa [h] using ih

end Sys2Proof.Laws
end

