-- ==== Sys2Proof/Laws/Frame.lean ====
section
/-! SUPPORT. What each micro-operation leaves alone, in every state and on every exit, a raise included: the fields it
does not name, the bytes of the sink below DPOS, the bits the reader has not consumed. -/

namespace Sys2Proof.Laws

open Sys2Proof.Machine

/-- Where the micro-operation ends, by a result or by a raise, `R` holds between the state it began in and the last. -/
structure Steps {α : Type} (R : State → State → Prop) (s : State) (r : Res α) : Prop where
  ok : ∀ {a t}, r = .ok a t → R s t
  err : ∀ {x t}, r = .err x t → R s t

/-- Where the end of the micro-operation is in sight, what has to hold of it. -/
theorem Steps.of {α : Type} {R : State → State → Prop} {s : State} {r : Res α}
    (h : match r with
      | .ok _ t => R s t
      | .err _ t => R s t
      | .stuck _ => True) : Steps R s r := by
  cases r with
  | ok a t => exact ⟨(fun e => by cases e; exact h), (fun e => by cases e)⟩
  | err x t => exact ⟨(fun e => by cases e), (fun e => by cases e; exact h)⟩
  | stuck x => exact ⟨(fun e => by cases e), (fun e => by cases e)⟩

theorem Steps.bind {α β : Type} {R : State → State → Prop} (tr : ∀ {a b c}, R a b → R b c → R a c) {s : State} {r : Res α}
    {f : α → State → Res β} (h : Steps R s r) (k : ∀ a t, r = .ok a t → Steps R t (f a t)) : Steps R s (r.bind f) := by
  cases r with
  | ok a t => exact ⟨fun e => tr (h.ok rfl) ((k a t rfl).ok e), fun e => tr (h.ok rfl) ((k a t rfl).err e)⟩
  | err x t => exact .of (h.err rfl)
  | stuck x => exact .of trivial

/-- A micro-operation that begins where another state change ended. -/
theorem Steps.after {α : Type} {R : State → State → Prop} (tr : ∀ {a b c}, R a b → R b c → R a c) {s u : State} {r : Res α}
    (h0 : R s u) (h : Steps R u r) : Steps R s r :=
  ⟨fun e => tr h0 (h.ok e), fun e => tr h0 (h.err e)⟩

theorem Steps.mono {α : Type} {R Q : State → State → Prop} {s : State} {r : Res α} (h : Steps R s r)
    (hq : ∀ t, R s t → Q s t) : Steps Q s r :=
  ⟨fun e => hq _ (h.ok e), fun e => hq _ (h.err e)⟩

/-- Go through an outcome: the last state is the one the micro-operation left, with the error recorded if it raised. -/
theorem Steps.finish {α : Type} {R : State → State → Prop} {s t : State} {r : Res α} {w : Word} (h : Steps R s r)
    (e : finish w r = .next t) : R s t ∨ ∃ x u, r = .err x u ∧ R s u ∧ t = raise w x u := by
  cases r with
  | ok a u => cases e; exact .inl (h.ok rfl)
  | err x u => cases e; exact .inr ⟨x, u, rfl, h.err rfl, rfl⟩
  | stuck x => cases e

/-! ### The sink -/

/-- Bytes of the sink are only added, at the addresses from DPOS on (R32). -/
def SinkGrows (s t : State) : Prop :=
  s.dpos ≤ t.dpos ∧ ∀ a, a < s.dpos ∨ t.dpos ≤ a → t.dst.read a = s.dst.read a

theorem SinkGrows.refl (s : State) : SinkGrows s s := ⟨Nat.le_refl _, fun _ _ => rfl⟩

theorem SinkGrows.trans {s t u : State} (h1 : SinkGrows s t) (h2 : SinkGrows t u) : SinkGrows s u := by
  refine ⟨Nat.le_trans h1.1 h2.1, fun a ha => ?_⟩
  have := h1.1
  have := h2.1
  rw [h2.2 a (by omega), h1.2 a (by omega)]

theorem sinkGrows_of_eq {s t : State} (h1 : t.dst = s.dst) (h2 : t.dpos = s.dpos) : SinkGrows s t := by
  refine ⟨by omega, fun a _ => by rw [h1]⟩

theorem sinkPut_grows (v : Byte) (s : State) : SinkGrows s (sinkPut v s) := by
  refine ⟨Nat.le_succ _, fun a ha => ?_⟩
  exact read_write_other v (by simp at ha; omega)

theorem writeBit_grows (b : Bool) (s : State) : SinkGrows s (writeBit b s) := by
  unfold writeBit
  split
  · exact (sinkPut_grows (setBit s.wbuf (7 - s.wcnt.toNat) b) s).trans (sinkGrows_of_eq rfl rfl)
  · exact sinkGrows_of_eq rfl rfl

theorem writeBits_grows (bs : List Bool) (s : State) : SinkGrows s (writeBits bs s) := by
  induction bs generalizing s with
  | nil => exact .refl s
  | cons b rest ih => exact (writeBit_grows b s).trans (ih _)

theorem flush_grows (s : State) : SinkGrows s (flush s) := by
  unfold flush
  split
  · exact .refl s
  · exact (sinkPut_grows s.wbuf s).trans (sinkGrows_of_eq rfl rfl)

/-! ### The bit counts -/

theorem writeBit_counts (b : Bool) (s : State) :
    (writeBit b s).dpos * 8 + (writeBit b s).wcnt.toNat = s.dpos * 8 + s.wcnt.toNat + 1 := by
  unfold writeBit
  split
  · rename_i h
    have := wcnt_seven h
    show (s.dpos + 1) * 8 + 0 = _
    omega
  · rename_i h
    have := wcnt_succ h
    show s.dpos * 8 + (s.wcnt + 1#3).toNat = _
    omega

theorem writeBits_counts (bs : List Bool) (s : State) :
    (writeBits bs s).dpos * 8 + (writeBits bs s).wcnt.toNat = s.dpos * 8 + s.wcnt.toNat + bs.length := by
  induction bs generalizing s with
  | nil => rfl
  | cons b rest ih =>
    have h1 := ih (writeBit b s)
    have h2 := writeBit_counts b s
    rw [writeBits, List.length_cons]
    omega

/-- Everything the bit writer does with a sequence of bits, as `State.wrote` says it. -/
theorem writeBits_wrote {s : State} (h : WriterOk s) (bs : List Bool) : s.wrote (writeBits bs s) bs := by
  have hc := writeBits_counts bs s
  have h1 : (writeBits bs s).wcnt.toNat < 8 := (writeBits bs s).wcnt.isLt
  exact ⟨writeBits_only bs s, by omega, by omega, (writeBits_spec h bs).1.pad, (writeBits_spec h bs).2,
    (writeBits_grows bs s).2⟩

/-! ### The reader -/

/-- RBUF holds the last byte fetched, and what it held where none was (R30, R103). -/
def Fetched (s t : State) : Prop :=
  t.src = s.src ∧ ((t.spos = s.spos ∧ t.rbuf = s.rbuf) ∨ (s.spos < t.spos ∧ t.src.read (t.spos - 1) = some t.rbuf))

theorem Fetched.trans {s t u : State} (h1 : Fetched s t) (h2 : Fetched t u) : Fetched s u := by
  obtain ⟨e1, c1⟩ := h1
  obtain ⟨e2, c2⟩ := h2
  refine ⟨e2.trans e1, ?_⟩
  rcases c2 with ⟨p2, b2⟩ | ⟨l2, r2⟩
  · rw [p2, b2, e2]; exact c1
  · refine .inr ⟨?_, r2⟩
    rcases c1 with ⟨p1, -⟩ | ⟨l1, -⟩ <;> omega

/-- What every reading micro-operation keeps: the reader stays usable, the bits left are a suffix of those before, the
cursor does not pass the end of the source (R18, R52), and RBUF holds the last byte fetched. -/
structure Reads (s t : State) : Prop where
  ok : ReaderOk s → ReaderOk t
  suffix : ReaderOk s → t.bitsLeft <:+ s.bitsLeft
  cursor : s.spos ≤ s.slen → t.spos ≤ t.slen
  buffer : Fetched s t

theorem Reads.refl (s : State) : Reads s s := ⟨id, fun _ => List.suffix_refl _, id, rfl, .inl ⟨rfl, rfl⟩⟩

theorem Reads.trans {s t u : State} (h1 : Reads s t) (h2 : Reads t u) : Reads s u :=
  ⟨fun h => h2.ok (h1.ok h), fun h => (h2.suffix (h1.ok h)).trans (h1.suffix h), fun h => h2.cursor (h1.cursor h),
    h1.buffer.trans h2.buffer⟩

theorem reads_of_eq {s t : State} (hs : t.src = s.src) (hl : t.slen = s.slen) (hp : t.spos = s.spos)
    (hb : t.rbuf = s.rbuf) (hc : t.rcnt = s.rcnt) : Reads s t := by
  refine ⟨fun h => ⟨?_, ?_⟩, fun _ => ?_, fun h => ?_, hs, .inl ⟨hp, hb⟩⟩
  · rw [hs, hl]; exact h.source
  · rw [hc]; exact h.count
  · have : t.bitsLeft = s.bitsLeft := by simp [State.bitsLeft, hs, hp, hb, hc]
    rw [this]
  · rw [hp, hl]; exact h

theorem srcNext_frame (s : State) : Steps (fun s t => t = { s with spos := t.spos } ∧ (s.spos ≤ s.slen → t.spos ≤ t.slen)) s
    (srcNext s) := by
  unfold srcNext
  split
  · exact .of ⟨rfl, id⟩
  · split
    · refine .of ⟨rfl, fun _ => ?_⟩
      show s.spos + 1 ≤ s.slen
      omega
    · exact .of trivial

theorem readBit_only (s : State) : Steps ReaderOnly s (readBit s) := by
  unfold readBit refill
  refine Steps.bind (R := ReaderOnly) ReaderOnly.trans ?_ fun _ _ _ => .of rfl
  split
  · refine Steps.bind (R := ReaderOnly) ReaderOnly.trans ((srcNext_frame s).mono fun t h => ?_) fun _ _ _ => .of rfl
    unfold ReaderOnly
    rw [h.1]
  · exact .of (ReaderOnly.refl s)

theorem readBit_fetched (s : State) : Steps Fetched s (readBit s) := by
  unfold readBit refill
  refine Steps.bind (R := Fetched) Fetched.trans ?_ fun _ t _ => .of ⟨rfl, .inl ⟨rfl, rfl⟩⟩
  split
  · unfold srcNext
    split
    · exact .of ⟨rfl, .inl ⟨rfl, rfl⟩⟩
    · split
      · rename_i v hv
        exact .of ⟨rfl, .inr ⟨Nat.lt_succ_self _, hv⟩⟩
      · exact .of trivial
  · exact .of ⟨rfl, .inl ⟨rfl, rfl⟩⟩

theorem readBit_reads (s : State) : Steps Reads s (readBit s) := by
  have hf := readBit_fetched s
  have hcur : Steps (fun s t => s.spos ≤ s.slen → t.spos ≤ t.slen) s (readBit s) := by
    unfold readBit refill
    refine Steps.bind (R := fun s t => s.spos ≤ s.slen → t.spos ≤ t.slen) (fun h1 h2 h => h2 (h1 h)) ?_ fun _ _ _ => .of id
    split
    · exact Steps.bind (R := fun s t => s.spos ≤ s.slen → t.spos ≤ t.slen) (fun h1 h2 h => h2 (h1 h))
        ((srcNext_frame s).mono fun t h => h.2) fun _ _ _ => .of id
    · exact .of id
  cases hr : readBit s with
  | stuck x => exact .of trivial
  | ok b t =>
    refine .of ⟨fun h => ?_, fun h => ?_, hcur.ok hr, hf.ok hr⟩
    · rcases readBit_cases h with ⟨-, -, -, e⟩ | ⟨b', t', e, hl, hok, -⟩
      · rw [e] at hr; cases hr
      · rw [e] at hr; cases hr; exact hok
    · rcases readBit_cases h with ⟨-, -, -, e⟩ | ⟨b', t', e, hl, hok, -⟩
      · rw [e] at hr; cases hr
      · rw [e] at hr; cases hr; rw [hl]; exact List.suffix_cons _ _
  | err x t =>
    refine .of ⟨fun h => ?_, fun h => ?_, hcur.err hr, hf.err hr⟩
    · rcases readBit_cases h with ⟨-, -, -, e⟩ | ⟨b', t', e, -⟩
      · rw [e] at hr; cases hr; exact h
      · rw [e] at hr; cases hr
    · rcases readBit_cases h with ⟨-, -, -, e⟩ | ⟨b', t', e, -⟩
      · rw [e] at hr; cases hr; exact List.suffix_refl _
      · rw [e] at hr; cases hr

/-- What holds of `ReadBit` and goes on holding along a sequence holds of any number of reads. -/
theorem readInto_steps {R : State → State → Prop} (re : ∀ s, R s s) (tr : ∀ {a b c}, R a b → R b c → R a c)
    (hb : ∀ s, Steps R s (readBit s)) (n : Nat) (v : Byte) (s : State) : Steps R s (readInto n v s) := by
  induction n generalizing v s with
  | zero => exact .of (re s)
  | succ n ih => exact Steps.bind (R := R) tr (hb s) fun b t _ => ih _ t

theorem readByte_only (s : State) : Steps ReaderOnly s (readByte s) :=
  readInto_steps ReaderOnly.refl ReaderOnly.trans readBit_only 8 _ s

theorem readByte_reads (s : State) : Steps Reads s (readByte s) :=
  readInto_steps Reads.refl Reads.trans readBit_reads 8 _ s

/-! ### The deserializer -/

theorem desNode_only (n : Nat) (s : State) : Steps DesOnly s (desNode n s) := by
  induction n generalizing s with
  | zero => exact .of trivial
  | succ n ih =>
    refine Steps.bind (R := DesOnly) DesOnly.trans ((readBit_only s).mono fun t h => h.desOnly) fun b t _ => ?_
    split
    · exact .of (DesOnly.refl t)
    · refine Steps.after (R := DesOnly) DesOnly.trans (allocNode_desOnly none t) ?_
      split
      · exact Steps.bind (R := DesOnly) DesOnly.trans ((readByte_only _).mono fun u h => h.desOnly) fun v u _ => .of rfl
      · exact Steps.bind (R := DesOnly) DesOnly.trans (ih _) fun l u _ =>
          Steps.bind (R := DesOnly) DesOnly.trans (ih u) fun r v _ => .of rfl

theorem desNode_reads (n : Nat) (s : State) : Steps Reads s (desNode n s) := by
  induction n generalizing s with
  | zero => exact .of trivial
  | succ n ih =>
    refine Steps.bind (R := Reads) Reads.trans (readBit_reads s) fun b t _ => ?_
    split
    · exact .of (Reads.refl t)
    · refine Steps.after (R := Reads) Reads.trans (reads_of_eq (t := allocNode none t) rfl rfl rfl rfl rfl) ?_
      split
      · exact Steps.bind (R := Reads) Reads.trans (readByte_reads _) fun v u _ => .of (reads_of_eq rfl rfl rfl rfl rfl)
      · exact Steps.bind (R := Reads) Reads.trans (ih _) fun l u _ =>
          Steps.bind (R := Reads) Reads.trans (ih u) fun r v _ => .of (reads_of_eq rfl rfl rfl rfl rfl)

/-! ### The analyzer -/

theorem count_only (v : Byte) (s : State) : Steps CountOnly s (count v s) := by
  unfold count
  split
  · exact .of (CountOnly.refl s)
  · exact .of rfl

theorem srcNext_countOnly (s : State) : Steps CountOnly s (srcNext s) :=
  (srcNext_frame s).mono fun t h => by unfold CountOnly; rw [h.1]

theorem countAll_only (n : Nat) (s : State) : Steps CountOnly s (countAll n s) := by
  induction n generalizing s with
  | zero => exact .of (CountOnly.refl s)
  | succ n ih =>
    unfold countAll
    split
    · exact Steps.bind (R := CountOnly) CountOnly.trans
        (Steps.bind (R := CountOnly) CountOnly.trans (srcNext_countOnly s) fun v t _ => count_only v t) fun _ t _ => ih t
    · exact .of (CountOnly.refl s)

theorem analyze_only (s : State) : Steps CountOnly s (analyze s) := by
  have h0 : CountOnly s { freqClear s with spos := 0 } := rfl
  refine Steps.after (R := CountOnly) CountOnly.trans h0 ?_
  exact Steps.bind (R := CountOnly) CountOnly.trans (countAll_only _ _) fun _ t _ => .of (rfl : CountOnly t { t with spos := 0 })

/-! ### The tree builder -/

theorem heapInsert_only (i : Nat) (s : State) : Steps TreeOnly s (heapInsert i s) := by
  unfold heapInsert
  split
  · exact .of rfl
  · exact .of trivial

theorem heapExtractMin_only (s : State) : Steps TreeOnly s (heapExtractMin s) := by
  unfold heapExtractMin
  split
  · exact .of trivial
  · split
    · exact .of rfl
    · split
      · exact .of rfl
      · exact .of trivial

theorem seedAll_only (table : List (Byte × Count)) (s : State) : Steps TreeOnly s (seedAll table s) := by
  induction table generalizing s with
  | nil => exact .of (TreeOnly.refl s)
  | cons c rest ih =>
    obtain ⟨v, n⟩ := c
    unfold seedAll
    split
    · exact ih s
    · refine Steps.after (R := TreeOnly) TreeOnly.trans (allocNode_treeOnly (some (.leaf v n v)) s) ?_
      exact Steps.bind (R := TreeOnly) TreeOnly.trans (heapInsert_only _ _) fun _ t _ => ih t

theorem seed_only (s : State) : Steps TreeOnly s (seed s) := by
  refine Steps.after (R := TreeOnly) TreeOnly.trans (discardTree_treeOnly s) ?_
  refine Steps.bind (R := TreeOnly) TreeOnly.trans (seedAll_only _ _) fun _ t _ => ?_
  exact .of (setRoot_treeOnly t)

theorem mergePair_only (a b : Nat) (s : State) : Steps TreeOnly s (mergePair a b s) := by
  unfold mergePair
  split
  · rename_i x y _ _
    split
    · exact .of (TreeOnly.refl s)
    · refine Steps.after (R := TreeOnly) TreeOnly.trans (allocNode_treeOnly (some (mergedNode a b x y)) s) ?_
      refine Steps.bind (R := TreeOnly) TreeOnly.trans (heapInsert_only _ _) fun _ t _ => ?_
      exact .of (setRoot_treeOnly t)
  · exact .of trivial

theorem merge_only (s : State) : Steps TreeOnly s (merge s) := by
  unfold merge
  split
  · exact .of (TreeOnly.refl s)
  · exact Steps.bind (R := TreeOnly) TreeOnly.trans (heapExtractMin_only s) fun a t _ =>
      Steps.bind (R := TreeOnly) TreeOnly.trans (heapExtractMin_only t) fun b u _ => mergePair_only a b u

theorem mergeAll_only (n : Nat) (s : State) : Steps TreeOnly s (mergeAll n s) := by
  induction n generalizing s with
  | zero => exact .of (TreeOnly.refl s)
  | succ n ih =>
    unfold mergeAll
    split
    · exact Steps.bind (R := TreeOnly) TreeOnly.trans (merge_only s) fun _ t _ => ih t
    · exact .of (TreeOnly.refl s)

theorem build_only (s : State) : Steps TreeOnly s (build s) :=
  Steps.bind (R := TreeOnly) TreeOnly.trans (seed_only s) fun _ t _ => mergeAll_only _ t

/-! ### The walks -/

/-- `t` is `s` but for the code table. -/
def CodeOnly (s t : State) : Prop := t = { s with code := t.code }

theorem CodeOnly.refl (s : State) : CodeOnly s s := rfl

theorem CodeOnly.trans {s t u : State} (h1 : CodeOnly s t) (h2 : CodeOnly t u) : CodeOnly s u := by
  unfold CodeOnly at *
  rw [h2, h1]

theorem walk_only (n i : Nat) (p : List Bool) (s : State) : Steps CodeOnly s (walk n i p s) := by
  induction n generalizing i p s with
  | zero => exact .of trivial
  | succ n ih =>
    unfold walk
    split
    · exact .of trivial
    · exact .of rfl
    · exact Steps.bind (R := CodeOnly) CodeOnly.trans (ih _ _ s) fun _ t _ => ih _ _ t

theorem codeGen_only (s : State) : Steps CodeOnly s (codeGen s) := by
  have h0 : CodeOnly s { s with code := Vector.replicate 256 none } := rfl
  unfold codeGen
  dsimp only
  split
  · exact Steps.after (R := CodeOnly) CodeOnly.trans h0 (walk_only _ _ _ _)
  · exact .of h0

/-- `WriterOnly`, and the sink only grows. -/
def Writes (s t : State) : Prop := WriterOnly s t ∧ SinkGrows s t

theorem Writes.refl (s : State) : Writes s s := ⟨.refl s, .refl s⟩

theorem Writes.trans {s t u : State} (h1 : Writes s t) (h2 : Writes t u) : Writes s u := ⟨h1.1.trans h2.1, h1.2.trans h2.2⟩

theorem writeBits_writes (bs : List Bool) (s : State) : Writes s (writeBits bs s) := ⟨writeBits_only bs s, writeBits_grows bs s⟩

theorem serNode_writes (n i : Nat) (s : State) : Steps Writes s (serNode n i s) := by
  induction n generalizing i s with
  | zero => exact .of trivial
  | succ n ih =>
    unfold serNode
    split
    · exact .of trivial
    · exact .of (writeBits_writes (leafBits _) s)
    · refine Steps.after (R := Writes) Writes.trans (writeBits_writes [false] s) ?_
      exact Steps.bind (R := Writes) Writes.trans (ih _ _) fun _ t _ => ih _ t

theorem serialize_writes (s : State) : Steps Writes s (serialize s) := by
  unfold serialize
  split
  · exact serNode_writes _ _ s
  · exact .of (Writes.refl s)

/-! ### The pipeline -/

/-- `t` is `s` but for the writer, the sink and the source cursor; the sink only grows. -/
def EncOnly (s t : State) : Prop :=
  t = { s with wbuf := t.wbuf, wcnt := t.wcnt, dst := t.dst, dpos := t.dpos, spos := t.spos } ∧ SinkGrows s t

theorem EncOnly.refl (s : State) : EncOnly s s := ⟨rfl, .refl s⟩

theorem EncOnly.trans {s t u : State} (h1 : EncOnly s t) (h2 : EncOnly t u) : EncOnly s u := by
  refine ⟨?_, h1.2.trans h2.2⟩
  rw [h2.1, h1.1]

theorem Writes.encOnly {s t : State} (h : Writes s t) : EncOnly s t := by
  refine ⟨?_, h.2⟩
  have := h.1
  unfold WriterOnly at this
  rw [this]

theorem encSym_writes (v : Byte) (s : State) : Steps Writes s (encSym v s) := by
  unfold encSym
  split
  · exact .of (Writes.refl s)
  · exact .of (writeBits_writes _ s)

theorem encodeAll_only (n : Nat) (s : State) : Steps EncOnly s (encodeAll n s) := by
  induction n generalizing s with
  | zero => exact .of (EncOnly.refl s)
  | succ n ih =>
    unfold encodeAll
    split
    · refine Steps.bind (R := EncOnly) EncOnly.trans (Steps.bind (R := EncOnly) EncOnly.trans ?_ fun v t _ =>
        (encSym_writes v t).mono fun u h => h.encOnly) fun _ t _ => ih t
      refine (srcNext_frame s).mono fun t h => ⟨?_, ?_⟩
      · rw [h.1]
      · rw [h.1]; exact sinkGrows_of_eq rfl rfl
    · exact .of (EncOnly.refl s)

/-- `t` is `s` but for LEN, the reader and the source cursor. -/
def HeaderOnly (s t : State) : Prop := t = { s with len := t.len, rbuf := t.rbuf, rcnt := t.rcnt, spos := t.spos }

theorem HeaderOnly.trans {s t u : State} (h1 : HeaderOnly s t) (h2 : HeaderOnly t u) : HeaderOnly s u := by
  unfold HeaderOnly at *
  rw [h2, h1]

theorem ReaderOnly.headerOnly {s t : State} (h : ReaderOnly s t) : HeaderOnly s t := by
  unfold ReaderOnly at h
  unfold HeaderOnly
  rw [h]

theorem rdHdr_only (s : State) : Steps HeaderOnly s (rdHdr s) :=
  have r : ∀ u, Steps HeaderOnly u (readByte u) := fun u => (readByte_only u).mono fun _ h => h.headerOnly
  Steps.bind (R := HeaderOnly) HeaderOnly.trans (r s) fun _ t _ =>
    Steps.bind (R := HeaderOnly) HeaderOnly.trans (r t) fun _ t _ =>
      Steps.bind (R := HeaderOnly) HeaderOnly.trans (r t) fun _ t _ =>
        Steps.bind (R := HeaderOnly) HeaderOnly.trans (r t) fun _ _ _ => .of rfl

theorem rdHdr_reads (s : State) : Steps Reads s (rdHdr s) :=
  Steps.bind (R := Reads) Reads.trans (readByte_reads s) fun _ t _ =>
    Steps.bind (R := Reads) Reads.trans (readByte_reads t) fun _ t _ =>
      Steps.bind (R := Reads) Reads.trans (readByte_reads t) fun _ t _ =>
        Steps.bind (R := Reads) Reads.trans (readByte_reads t) fun _ _ _ => .of (reads_of_eq rfl rfl rfl rfl rfl)

/-- `t` is `s` but for the reader, the source cursor and the sink; the sink only grows. -/
def DecOnly (s t : State) : Prop :=
  t = { s with rbuf := t.rbuf, rcnt := t.rcnt, spos := t.spos, dst := t.dst, dpos := t.dpos } ∧ SinkGrows s t

theorem DecOnly.refl (s : State) : DecOnly s s := ⟨rfl, .refl s⟩

theorem DecOnly.trans {s t u : State} (h1 : DecOnly s t) (h2 : DecOnly t u) : DecOnly s u := by
  refine ⟨?_, h1.2.trans h2.2⟩
  rw [h2.1, h1.1]

theorem ReaderOnly.decOnly {s t : State} (h : ReaderOnly s t) : DecOnly s t := by
  unfold ReaderOnly at h
  refine ⟨?_, ?_⟩
  · rw [h]
  · rw [h]; exact sinkGrows_of_eq rfl rfl

theorem decWalk_only (n i : Nat) (s : State) : Steps DecOnly s (decWalk n i s) := by
  induction n generalizing i s with
  | zero => exact .of trivial
  | succ n ih =>
    unfold decWalk
    split
    · exact .of trivial
    · exact .of ⟨rfl, sinkPut_grows _ s⟩
    · exact Steps.bind (R := DecOnly) DecOnly.trans ((readBit_only s).mono fun _ h => h.decOnly) fun _ t _ => ih _ t

theorem decWalk_reads (n i : Nat) (s : State) : Steps Reads s (decWalk n i s) := by
  induction n generalizing i s with
  | zero => exact .of trivial
  | succ n ih =>
    unfold decWalk
    split
    · exact .of trivial
    · exact .of (reads_of_eq rfl rfl rfl rfl rfl)
    · exact Steps.bind (R := Reads) Reads.trans (readBit_reads s) fun _ t _ => ih _ t

theorem decSym_only (s : State) : Steps DecOnly s (decSym s) := by
  unfold decSym
  split
  · exact decWalk_only _ _ s
  · exact .of (DecOnly.refl s)

theorem decSym_reads (s : State) : Steps Reads s (decSym s) := by
  unfold decSym
  split
  · exact decWalk_reads _ _ s
  · exact .of (Reads.refl s)

theorem decodeAll_only (n : Nat) (s : State) : Steps DecOnly s (decodeAll n s) := by
  induction n generalizing s with
  | zero => exact .of (DecOnly.refl s)
  | succ n ih => exact Steps.bind (R := DecOnly) DecOnly.trans (decSym_only s) fun _ t _ => ih t

theorem decodeAll_reads (n : Nat) (s : State) : Steps Reads s (decodeAll n s) := by
  induction n generalizing s with
  | zero => exact .of (Reads.refl s)
  | succ n ih => exact Steps.bind (R := Reads) Reads.trans (decSym_reads s) fun _ t _ => ih t

/-- `t` is `s` but for the tree, the reader and the source cursor. -/
def DesTreeOnly (s t : State) : Prop :=
  t = { s with node := t.node, root := t.root, rootv := t.rootv, heap := t.heap, rbuf := t.rbuf, rcnt := t.rcnt, spos := t.spos }

theorem DesTreeOnly.trans {s t u : State} (h1 : DesTreeOnly s t) (h2 : DesTreeOnly t u) : DesTreeOnly s u := by
  unfold DesTreeOnly at *
  rw [h2, h1]

theorem deserialize_only (s : State) : Steps DesTreeOnly s (deserialize s) := by
  have h0 : DesTreeOnly s (discardTree s) := rfl
  refine Steps.after (R := DesTreeOnly) DesTreeOnly.trans h0 ?_
  refine Steps.bind (R := DesTreeOnly) DesTreeOnly.trans ((desNode_only _ (discardTree s)).mono fun t h => ?_) fun r t _ =>
    .of (rfl : DesTreeOnly t { t with root := r, rootv := true })
  unfold DesOnly at h
  unfold DesTreeOnly
  rw [h]

theorem deserialize_reads (s : State) : Steps Reads s (deserialize s) := by
  have h0 : Reads s (discardTree s) := reads_of_eq rfl rfl rfl rfl rfl
  exact Steps.after (R := Reads) Reads.trans h0
    (Steps.bind (R := Reads) Reads.trans (desNode_reads _ _) fun _ _ _ => .of (reads_of_eq rfl rfl rfl rfl rfl))

end Sys2Proof.Laws
end

