-- ==== Sys2Proof/Laws/PerInstr.lean ====
section
/-! SUPPORT. The per-instruction family RoundTrip: each command's word decodes to the command, whatever its operand
(R71 to R73). The two tree tokens are no commands (R78). -/

namespace Sys2Proof.Laws

theorem decode_none {op : Byte} {i : Instr} (h : form op = some (.none i)) : decode (formatC op 0#8) = .ok i := by
  simp [decode, opField_formatC, argField_formatC, h]

theorem decode_byte {op : Byte} {f : Byte → Instr} (h : form op = some (.byte f)) (v : Byte) :
    decode (formatC op v) = .ok (f v) := by
  simp [decode, opField_formatC, argField_formatC, h]

end Sys2Proof.Laws

namespace Sys2Proof.Laws.RoundTrip

/-- The word of a command decodes to the command. -/
def Statement (i : Instr) : Prop := i.wellFormed = true → decode (encode i) = .ok i

theorem clear : Statement .clear := fun _ => decode_none rfl
theorem compress : Statement .compress := fun _ => decode_none rfl
theorem decompress : Statement .decompress := fun _ => decode_none rfl
theorem wbit (b : Bool) : Statement (.wbit b) := fun _ => by cases b <;> rfl
theorem wbyte (v : Byte) : Statement (.wbyte v) := fun _ => decode_byte rfl v
theorem flush : Statement .flush := fun _ => decode_none rfl
theorem rbit : Statement .rbit := fun _ => decode_none rfl
theorem rbyte : Statement .rbyte := fun _ => decode_none rfl
theorem fclr : Statement .fclr := fun _ => decode_none rfl
theorem fcount (v : Byte) : Statement (.fcount v) := fun _ => decode_byte rfl v
theorem analyze : Statement .analyze := fun _ => decode_none rfl
theorem seed : Statement .seed := fun _ => decode_none rfl
theorem merge : Statement .merge := fun _ => decode_none rfl
theorem build : Statement .build := fun _ => decode_none rfl
theorem codegen : Statement .codegen := fun _ => decode_none rfl
theorem serialize : Statement .serialize := fun _ => decode_none rfl
theorem deserialize : Statement .deserialize := fun _ => decode_none rfl
theorem wrhdr : Statement .wrhdr := fun _ => decode_none rfl
theorem rdhdr : Statement .rdhdr := fun _ => decode_none rfl
theorem encsym (v : Byte) : Statement (.encsym v) := fun _ => decode_byte rfl v
theorem encode : Statement .encode := fun _ => decode_none rfl
theorem decsym : Statement .decsym := fun _ => decode_none rfl
theorem decode : Statement .decode := fun _ => decode_none rfl
theorem leaf (s : Byte) : Statement (.leaf s) := fun h => by cases h
theorem internal : Statement .internal := fun h => by cases h

end Sys2Proof.Laws.RoundTrip
end

