-- ==== Sys2Proof/Laws/Pipeline.lean ====
section
/-! SUPPORT. The steps of the pipeline in the terms of the bits written, the bits left and the tree (R150, R161, R163,
R172 to R177): one lemma for each says everything it can do. -/

namespace Sys2Proof.Laws

open Sys2Proof.Machine

/-! ### Invariants, part by part -/

theorem writerOk_of_inv {s : State} (h : s.Inv) : WriterOk s := ⟨h.sink, h.writerPad⟩

theorem readerOk_of_inv {s : State} (h : s.Inv) : ReaderOk s := ⟨h.source, h.readerCount⟩

theorem tree_some {s : State} {T : CodeTree} (h : s.tree = some T) :
    s.rootv = true ∧ treeOf s.node s.node.length s.root = some T := by
  unfold State.tree at h
  split at h
  · exact ⟨‹_›, h⟩
  · cases h

theorem tree_of {s : State} (hv : s.rootv = true) : s.tree = treeOf s.node s.node.length s.root := if_pos hv

/-- Where the invariant holds a valid root is the root of a tree. -/
theorem tree_of_inv {s : State} (h : s.Inv) (hv : s.rootv = true) : ∃ T, s.tree = some T := by
  obtain ⟨is, hr, -⟩ := h.rootTree hv
  obtain ⟨T, hT, -⟩ := treeOf_of_reach hr
  exact ⟨T, by rw [tree_of hv, hT]⟩

/-- Where the invariant holds the tree has at most as many nodes as the arena has entries. -/
theorem size_le_of_inv {s : State} {T : CodeTree} (h : s.Inv) (hT : s.tree = some T) : T.size ≤ s.node.length := by
  obtain ⟨hv, ht⟩ := tree_some hT
  obtain ⟨is, hr, hd⟩ := h.rootTree hv
  obtain ⟨T', ht', hs⟩ := treeOf_of_reach hr
  rw [ht] at ht'
  cases ht'
  have := nodup_length_le hd (reach_lt hr)
  omega

/-! ### The code table -/

theorem codeAt_clear (s : State) (v : Byte) : ({ s with code := Vector.replicate 256 none } : State).codeAt v = none := by
  simp [State.codeAt]

theorem codeAt_of_code {s t : State} (h : t.code = s.code) (v : Byte) : t.codeAt v = s.codeAt v := by
  simp [State.codeAt, h]

/-- A table with the same codes is the same table. -/
theorem code_ext {s t : State} (h : ∀ v, s.codeAt v = t.codeAt v) : s.code = t.code := by
  apply Vector.ext
  intro i hi
  have := h (BitVec.ofNat 8 i)
  simpa [State.codeAt, Nat.mod_eq_of_lt hi] using this

theorem lookup_append {α β : Type} [BEq α] (xs ys : List (α × β)) (a : α) :
    (xs ++ ys).lookup a = (xs.lookup a).or (ys.lookup a) := by
  induction xs with
  | nil => rfl
  | cons x rest ih =>
    obtain ⟨k, v⟩ := x
    simp only [List.cons_append, List.lookup_cons]
    split
    · rfl
    · exact ih

/-- After recording codes one after the other, each symbol has the last one recorded for it. -/
theorem codeAt_setCodes_eq (cs : List (Byte × List Bool)) (s : State) (v : Byte) :
    (setCodes cs s).codeAt v = (cs.reverse.lookup v).or (s.codeAt v) := by
  induction cs generalizing s with
  | nil => rfl
  | cons c rest ih =>
    show (setCodes rest (s.setCode c.1 c.2)).codeAt v = _
    rw [ih, codeAt_setCode, List.reverse_cons, lookup_append]
    obtain ⟨k, p⟩ := c
    by_cases h : k = v
    · subst h
      cases List.lookup k rest.reverse <;> simp [List.lookup]
    · have hb : (v == k) = false := by simpa using Ne.symm h
      cases List.lookup v rest.reverse <;> simp [List.lookup, h, hb]

/-- Everything `CodeGen` does with a tree (R150, R151). -/
theorem codeGen_tree {s : State} {T : CodeTree} (h : s.tree = some T) :
    ∃ t, codeGen s = .ok () t ∧ CodeOnly s t ∧ ∀ v, t.codeAt v = T.codeOf v := by
  obtain ⟨hv, ht⟩ := tree_some h
  let a : State := { s with code := Vector.replicate 256 none }
  have hpaths : (T.paths.map fun c => (c.1, [] ++ c.2)) = T.paths := by simp
  have hw := walk_spec (p := []) (s := a) ht
  rw [hpaths] at hw
  refine ⟨setCodes T.paths a, ?_, ?_, fun v => ?_⟩
  · unfold codeGen
    rw [if_pos hv]
    exact hw
  · have h1 := setCodes_only T.paths a
    unfold CodeOnly
    rw [h1]
  · rw [codeAt_setCodes_eq, codeAt_clear, Option.or_none]
    rfl

theorem codeGen_null {s : State} (h : s.rootv = false) :
    codeGen s = .ok () { s with code := Vector.replicate 256 none } := by simp [codeGen, h]

/-- A code is the path of a leaf that carries the symbol. -/
theorem codeOf_mem {T : CodeTree} {v : Byte} {p : List Bool} (h : T.codeOf v = some p) : (v, p) ∈ T.paths := by
  have : ∀ (cs : List (Byte × List Bool)), cs.lookup v = some p → (v, p) ∈ cs := by
    intro cs hc
    induction cs with
    | nil => cases hc
    | cons c rest ih =>
      obtain ⟨k, q⟩ := c
      rw [List.lookup_cons] at hc
      split at hc
      · rename_i hk
        cases hc
        rw [show v = k by simpa using hk]
        exact List.mem_cons_self
      · exact List.mem_cons_of_mem _ (ih hc)
  exact List.mem_reverse.1 (this _ h)

theorem codeOf_isSome {T : CodeTree} {v : Byte} : (∃ p, T.codeOf v = some p) ↔ v ∈ T.symbols := by
  have key : ∀ (cs : List (Byte × List Bool)), (∃ p, cs.lookup v = some p) ↔ v ∈ cs.map Prod.fst := by
    intro cs
    induction cs with
    | nil => simp
    | cons c rest ih =>
      obtain ⟨k, q⟩ := c
      rw [List.lookup_cons]
      split
      · rename_i hk
        simp [show v = k by simpa using hk]
      · rename_i hk
        have : v ≠ k := by simpa using hk
        rw [ih]
        simp [this]
  rw [CodeTree.codeOf, key, List.map_reverse, List.mem_reverse, paths_symbols]

/-! ### Serializing and the header -/

theorem serialize_tree {s : State} {T : CodeTree} (h : s.tree = some T) : serialize s = .ok () (writeBits T.bits s) := by
  obtain ⟨hv, ht⟩ := tree_some h
  simp only [serialize, hv, if_true]
  exact serNode_spec ht

theorem writeBytes_eq (vs : List Byte) (s : State) : writeBytes vs s = writeBits (vs.flatMap byteBits) s := by
  induction vs generalizing s with
  | nil => rfl
  | cons v rest ih =>
    rw [writeBytes, ih, List.flatMap_cons, writeBits_append]
    rfl

theorem wrHdr_eq (s : State) : wrHdr s = writeBits (headerBits s.len) s := writeBytes_eq _ s

/-- The header bytes of a count give the count back. -/
theorem headerCount_headerBytes (n : Count) :
    headerCount (n.extractLsb' 0 8) (n.extractLsb' 8 8) (n.extractLsb' 16 8) (n.extractLsb' 24 8) = n := by
  apply BitVec.eq_of_getLsbD_eq
  intro i hi
  simp only [headerCount, BitVec.getLsbD_append, BitVec.getLsbD_extractLsb']
  by_cases h1 : i < 8
  · simp [h1]
  · by_cases h2 : i < 16
    · simp [h1, show i - 8 < 8 by omega, show 8 + (i - 8) = i by omega]
    · by_cases h3 : i < 24
      · simp [h1, show ¬i - 8 < 8 by omega, show i - 8 - 8 < 8 by omega, show 16 + (i - 8 - 8) = i by omega]
      · simp [h1, show ¬i - 8 < 8 by omega, show ¬i - 8 - 8 < 8 by omega, show i - 8 - 8 - 8 < 8 by omega,
          show 24 + (i - 8 - 8 - 8) = i by omega]

theorem headerBits_length (n : Count) : (headerBits n).length = 32 := rfl

theorem headerBits_headerCount (b0 b1 b2 b3 : Byte) :
    headerBits (headerCount b0 b1 b2 b3) = byteBits b0 ++ byteBits b1 ++ byteBits b2 ++ byteBits b3 := by
  have h0 : (headerCount b0 b1 b2 b3).extractLsb' 0 8 = b0 := by
    apply BitVec.eq_of_getLsbD_eq
    intro i hi
    simp only [headerCount, BitVec.getLsbD_append, BitVec.getLsbD_extractLsb', hi]
    simp [hi]
  have h1 : (headerCount b0 b1 b2 b3).extractLsb' 8 8 = b1 := by
    apply BitVec.eq_of_getLsbD_eq
    intro i hi
    simp only [headerCount, BitVec.getLsbD_append, BitVec.getLsbD_extractLsb', hi]
    simp [hi]
  have h2 : (headerCount b0 b1 b2 b3).extractLsb' 16 8 = b2 := by
    apply BitVec.eq_of_getLsbD_eq
    intro i hi
    simp only [headerCount, BitVec.getLsbD_append, BitVec.getLsbD_extractLsb', hi]
    simp [hi, show ¬16 + i < 8 by omega, show ¬16 + i - 8 < 8 by omega, show 16 + i - 8 - 8 = i by omega]
  have h3 : (headerCount b0 b1 b2 b3).extractLsb' 24 8 = b3 := by
    apply BitVec.eq_of_getLsbD_eq
    intro i hi
    simp only [headerCount, BitVec.getLsbD_append, BitVec.getLsbD_extractLsb', hi]
    simp [show ¬24 + i < 8 by omega, show ¬24 + i - 8 < 8 by omega, show ¬24 + i - 8 - 8 < 8 by omega,
      show 24 + i - 8 - 8 - 8 = i by omega]
  simp [headerBits, headerBytes, h0, h1, h2, h3]

/-- Everything `RdHdr` can do: load LEN from the next 32 bits, or raise E_EOS when fewer are left, which are then consumed,
with LEN kept (R173). -/
theorem rdHdr_cases {s : State} (h : ReaderOk s) :
    (∃ n t, rdHdr s = .ok () t ∧ s.bitsLeft = headerBits n ++ t.bitsLeft ∧ t.len = n ∧ ReaderOk t ∧ HeaderOnly s t) ∨
    (∃ t, s.bitsLeft.length < 32 ∧ rdHdr s = .err .eos t ∧ t.bitsLeft = [] ∧ t.rcnt = 0#4 ∧ t.slen ≤ t.spos ∧
      ReaderOk t ∧ ReaderOnly s t) := by
  have len8 : ∀ v : Byte, (byteBits v).length = 8 := byteBits_length
  rcases readByte_cases h with ⟨b0, s0, e0, l0, r0, o0⟩ | ⟨t, hl, e, hb, hc, hle, hr, ho⟩
  · rcases readByte_cases r0 with ⟨b1, s1, e1, l1, r1, o1⟩ | ⟨t, hl, e, hb, hc, hle, hr, ho⟩
    · rcases readByte_cases r1 with ⟨b2, s2, e2, l2, r2, o2⟩ | ⟨t, hl, e, hb, hc, hle, hr, ho⟩
      · rcases readByte_cases r2 with ⟨b3, s3, e3, l3, r3, o3⟩ | ⟨t, hl, e, hb, hc, hle, hr, ho⟩
        · refine .inl ⟨headerCount b0 b1 b2 b3, { s3 with len := headerCount b0 b1 b2 b3 }, ?_, ?_, rfl,
            ⟨r3.source, r3.count⟩, ?_⟩
          · simp only [rdHdr, e0, e1, e2, e3, bind_ok]
          · rw [headerBits_headerCount, l0, l1, l2, l3]
            simp only [List.append_assoc]
            rfl
          · have o : ReaderOnly s s3 := o0.trans (o1.trans (o2.trans o3))
            unfold ReaderOnly at o
            unfold HeaderOnly
            rw [o]
        · refine .inr ⟨t, ?_, ?_, hb, hc, hle, hr, o0.trans (o1.trans (o2.trans ho))⟩
          · rw [l0, l1, l2]; simp only [List.length_append, len8]; omega
          · simp only [rdHdr, e0, e1, e2, e, bind_ok, bind_err]
      · refine .inr ⟨t, ?_, ?_, hb, hc, hle, hr, o0.trans (o1.trans ho)⟩
        · rw [l0, l1]; simp only [List.length_append, len8]; omega
        · simp only [rdHdr, e0, e1, e, bind_ok, bind_err]
    · refine .inr ⟨t, ?_, ?_, hb, hc, hle, hr, o0.trans ho⟩
      · rw [l0]; simp only [List.length_append, len8]; omega
      · simp only [rdHdr, e0, e, bind_ok, bind_err]
  · refine .inr ⟨t, by omega, ?_, hb, hc, hle, hr, ho⟩
    simp only [rdHdr, e, bind_err]

theorem headerBits_injective {m n : Count} (h : headerBits m = headerBits n) : m = n := by
  have key : ∀ k : Count, headerBits k = byteBits (k.extractLsb' 0 8) ++ (byteBits (k.extractLsb' 8 8) ++
      (byteBits (k.extractLsb' 16 8) ++ byteBits (k.extractLsb' 24 8))) := fun k => by simp [headerBits, headerBytes]
  rw [key, key] at h
  obtain ⟨h0, h⟩ := List.append_inj h rfl
  obtain ⟨h1, h⟩ := List.append_inj h rfl
  obtain ⟨h2, h3⟩ := List.append_inj h rfl
  rw [← headerCount_headerBytes m, ← headerCount_headerBytes n, byteBits_injective h0, byteBits_injective h1,
    byteBits_injective h2, byteBits_injective h3]

theorem rdHdr_some {s : State} (h : ReaderOk s) {n : Count} {rest : List Bool} (hb : s.bitsLeft = headerBits n ++ rest) :
    ∃ t, rdHdr s = .ok () t ∧ t.bitsLeft = rest ∧ t.len = n ∧ ReaderOk t ∧ HeaderOnly s t := by
  rcases rdHdr_cases h with ⟨m, t, e, hl, hm, hr, ho⟩ | ⟨t, hlen, -⟩
  · rw [hb] at hl
    obtain ⟨h1, h2⟩ := List.append_inj hl rfl
    exact ⟨t, e, h2.symm, by rw [hm, headerBits_injective h1], hr, ho⟩
  · rw [hb, List.length_append, headerBits_length] at hlen
    omega

/-! ### Deserializing -/

theorem discardTree_readerOk {s : State} (h : ReaderOk s) : ReaderOk (discardTree s) := ⟨h.source, h.count⟩

/-- `Deserialize` of a tree of at most 511 nodes (R163). -/
theorem deserialize_tree {s : State} (h : ReaderOk s) {T : CodeTree} {rest : List Bool} (hb : s.bitsLeft = T.bits ++ rest)
    (hs : T.size ≤ Config.nodeCap) :
    ∃ t, deserialize s = .ok () t ∧ t.bitsLeft = rest ∧ ReaderOk t ∧
      t = { s with node := (T.layout 0).map some, root := 0, rootv := true, heap := [],
                   rbuf := t.rbuf, rcnt := t.rcnt, spos := t.spos } := by
  obtain ⟨u, eu, lu, ru, ou⟩ := desNode_tree T (n := Config.desFuel) (discardTree_readerOk h) hb (by simpa using hs)
    (by simp only [Config.desFuel]; omega)
  refine ⟨{ u with root := 0, rootv := true }, ?_, lu, ⟨ru.source, ru.count⟩, ?_⟩
  · rw [deserialize, eu]; rfl
  · unfold laidOut at ou
    rw [ou]
    rfl

/-- The tree that `deserialize_tree` leaves. -/
theorem tree_layout {t : State} {T : CodeTree} (hn : t.node = (T.layout 0).map some) (hr : t.root = 0) (hv : t.rootv = true) :
    t.tree = some T ∧ reach t.node t.node.length t.root = some (List.range' 0 T.size) := by
  have hlen : t.node.length = T.size := by rw [hn]; simp [layout_length]
  have h1 := treeOf_layout T [] [] (n := T.size) (Nat.le_refl _)
  have h2 := reach_layout T [] [] (n := T.size) (Nat.le_refl _)
  rw [tree_of hv, hlen, hr, hn]
  simp only [List.nil_append, List.append_nil, List.length_nil] at h1 h2
  exact ⟨h1, h2⟩

/-- Everything `Deserialize` can do (R162, R163, R206). -/
theorem deserialize_cases {s : State} (h : ReaderOk s) :
    (∃ (T : CodeTree) (t : State), deserialize s = .ok () t ∧ s.bitsLeft = T.bits ++ t.bitsLeft ∧ T.size ≤ Config.nodeCap ∧ ReaderOk t ∧
      t = { s with node := (T.layout 0).map some, root := 0, rootv := true, heap := [],
                   rbuf := t.rbuf, rcnt := t.rcnt, spos := t.spos }) ∨
    (∃ e t, deserialize s = .err e t ∧ ReaderOk t ∧ t.node.length ≤ Config.nodeCap ∧
      t = { s with node := t.node, root := 0, rootv := false, heap := [], rbuf := t.rbuf, rcnt := t.rcnt, spos := t.spos } ∧
      DesFailure [] s.bitsLeft e.code t.node t.bitsLeft ∧
      ((e = .eos ∧ t.bitsLeft = [] ∧ t.rcnt = 0#4 ∧ t.slen ≤ t.spos) ∨
        (e = .treeOverflow ∧ t.node.length = Config.nodeCap))) := by
  rcases desNode_cases (n := Config.desFuel) (s := discardTree s) (discardTree_readerOk h) (Nat.zero_le _)
    (Nat.le_refl _) with ⟨T, u, eu, lu, ru, ou, ku⟩ | ⟨e, u, eu, ru, du, ku, -, fu, hu⟩
  · refine .inl ⟨T, { u with root := 0, rootv := true }, ?_, lu, ?_, ⟨ru.source, ru.count⟩, ?_⟩
    · rw [deserialize, eu]; rfl
    · rw [laidOut_node ou] at ku
      simpa [layout_length] using ku
    · unfold laidOut at ou
      rw [ou]
      rfl
  · refine .inr ⟨e, u, ?_, ru, ku, ?_, fu, hu⟩
    · rw [deserialize, eu]; rfl
    · unfold DesOnly at du
      rw [du]
      rfl

/-- `Deserialize` where the stream holds a tree of more than 511 nodes (R162). -/
theorem deserialize_overflow {s : State} (h : ReaderOk s) {T : CodeTree} {rest : List Bool} (hb : s.bitsLeft = T.bits ++ rest)
    (hs : Config.nodeCap < T.size) : ∃ t, deserialize s = .err .treeOverflow t := by
  obtain ⟨u, eu, -⟩ := desNode_overflow T (n := Config.desFuel) (discardTree_readerOk h) hb (Nat.zero_le _)
    (by simpa using hs) (by simp [Config.desFuel])
  exact ⟨u, by rw [deserialize, eu]; rfl⟩

/-! ### Encoding -/

theorem encSym_some {v : Byte} {s : State} {p : List Bool} (h : s.codeAt v = some p) : encSym v s = .ok () (writeBits p s) := by
  simp [encSym, h]

theorem encSym_none {v : Byte} {s : State} (h : s.codeAt v = none) : encSym v s = .err .noCode s := by simp [encSym, h]

theorem writeBits_code (bs : List Bool) (s : State) : (writeBits bs s).code = s.code := by
  have := writeBits_only bs s
  unfold WriterOnly at this
  rw [this]

/-- The bits of the codes of some symbols. -/
def codeBits (s : State) (vs : List Byte) : List Bool := vs.flatMap fun v => (s.codeAt v).getD []

theorem writeBits_spos (bs : List Bool) (s : State) (k : Nat) :
    writeBits bs { s with spos := k } = { writeBits bs s with spos := k } := by
  induction bs generalizing s with
  | nil => rfl
  | cons b rest ih =>
    rw [writeBits, writeBits, ← ih]
    congr 1
    unfold writeBit
    dsimp only
    split <;> rfl

/-- Everything the loop of `Encode` can do (R175): write the codes of all bytes left and stand at the end, or raise
E_NOCODE at the first byte without a code, with that byte fetched and the codes before it written. -/
theorem encodeAll_cases {n : Nat} {s : State} (hs : s.src.covers s.slen) (hn : s.slen - s.spos ≤ n) :
    ((∀ v ∈ s.src.bytes.drop s.spos, ∃ p, s.codeAt v = some p) ∧ encodeAll n s = .ok ()
      { writeBits (codeBits s (s.src.bytes.drop s.spos)) s with spos := max s.spos s.slen }) ∨
    (∃ pre v post, s.src.bytes.drop s.spos = pre ++ v :: post ∧ (∀ x ∈ pre, ∃ p, s.codeAt x = some p) ∧
      s.codeAt v = none ∧ encodeAll n s = .err .noCode
        { writeBits (codeBits s pre) s with spos := s.spos + pre.length + 1 }) := by
  induction n generalizing s with
  | zero =>
    have hd : s.src.bytes.drop s.spos = [] :=
      List.drop_eq_nil_of_le (by rw [bytes_length, covers_length hs]; omega)
    refine .inl ⟨by simp [hd], ?_⟩
    rw [hd, Nat.max_eq_left (by omega)]
    rfl
  | succ n ih =>
    rcases srcNext_cases hs with ⟨hle, -⟩ | ⟨v, hlt, hv, he⟩
    · have hd : s.src.bytes.drop s.spos = [] :=
        List.drop_eq_nil_of_le (by rw [bytes_length, covers_length hs]; omega)
      refine .inl ⟨by simp [hd], ?_⟩
      rw [hd, Nat.max_eq_left hle]
      simp only [encodeAll, Nat.not_lt.2 hle, if_false]
      rfl
    · have hd : s.src.bytes.drop s.spos = v :: s.src.bytes.drop (s.spos + 1) := by
        obtain ⟨hl, hg⟩ := List.getElem?_eq_some_iff.1 hv
        rw [List.drop_eq_getElem_cons hl, hg]
      have hstep : encodeAll (n + 1) s =
          (encSym v { s with spos := s.spos + 1 }).bind fun _ s => encodeAll n s := by
        simp only [encodeAll, if_pos hlt, he, bind_ok]
      have hc1 : ({ s with spos := s.spos + 1 } : State).codeAt v = s.codeAt v := rfl
      cases hcode : s.codeAt v with
      | none =>
        refine .inr ⟨[], v, s.src.bytes.drop (s.spos + 1), by rw [hd]; rfl, by simp, hcode, ?_⟩
        rw [hstep, encSym_none (hc1.trans hcode), bind_err]
        rfl
      | some p =>
        let a : State := writeBits p { s with spos := s.spos + 1 }
        have ha : a = { writeBits p s with spos := s.spos + 1 } := writeBits_spos p s _
        have hao := writeBits_only p { s with spos := s.spos + 1 }
        have hasrc : a.src = s.src := by show (writeBits _ _).src = _; unfold WriterOnly at hao; rw [hao]
        have haslen : a.slen = s.slen := by show (writeBits _ _).slen = _; unfold WriterOnly at hao; rw [hao]
        have haspos : a.spos = s.spos + 1 := by show (writeBits _ _).spos = _; unfold WriterOnly at hao; rw [hao]
        have hacode : ∀ x, a.codeAt x = s.codeAt x := fun x => codeAt_of_code (writeBits_code p _) x
        have hbits : ∀ vs, codeBits a vs = codeBits s vs := fun vs => by simp [codeBits, hacode]
        have hjoin : ∀ vs k, ({ writeBits (codeBits a vs) a with spos := k } : State) =
            { writeBits (codeBits s (v :: vs)) s with spos := k } := by
          intro vs k
          have hv' : codeBits s (v :: vs) = p ++ codeBits s vs := by
            unfold codeBits
            rw [List.flatMap_cons, hcode]
            rfl
          rw [hbits, hv', writeBits_append, ha, writeBits_spos]
        rw [hstep, encSym_some (hc1.trans hcode), bind_ok]
        rcases ih (s := a) (by rw [hasrc, haslen]; exact hs) (by rw [haslen, haspos]; omega) with
          ⟨hall, e⟩ | ⟨pre, x, post, hsplit, hpre, hx, e⟩
        · rw [hasrc, haspos] at hall e
          refine .inl ⟨?_, ?_⟩
          · intro w hw
            rw [hd] at hw
            rcases List.mem_cons.1 hw with rfl | hw
            · exact ⟨p, hcode⟩
            · rw [← hacode]; exact hall w hw
          · rw [e, hjoin, haslen, hd, show max (s.spos + 1) s.slen = max s.spos s.slen by omega]
        · rw [hasrc, haspos] at hsplit
          rw [haspos] at e
          refine .inr ⟨v :: pre, x, post, by rw [hd, hsplit]; rfl, ?_, by rw [← hacode]; exact hx, ?_⟩
          · intro w hw
            rcases List.mem_cons.1 hw with rfl | hw
            · exact ⟨p, hcode⟩
            · rw [← hacode]; exact hpre w hw
          · rw [e, hjoin, List.length_cons, show s.spos + 1 + pre.length + 1 = s.spos + (pre.length + 1) + 1 by omega]

/-! ### Decoding -/

theorem readerOk_sinkPut {v : Byte} {s : State} (h : ReaderOk s) : ReaderOk (sinkPut v s) := ⟨h.source, h.count⟩

/-- `t` is `s` but for the reader and the source cursor, and the sink has gained the symbols `vs`. -/
def Emitted (s t : State) (vs : List Byte) : Prop :=
  t = { s with rbuf := t.rbuf, rcnt := t.rcnt, spos := t.spos, dst := t.dst, dpos := s.dpos + vs.length } ∧
  (s.dst.covers s.dpos → t.dst.covers t.dpos ∧ t.output = s.output ++ vs)

theorem Emitted.trans {s t u : State} {vs ws : List Byte} (h1 : Emitted s t vs) (h2 : Emitted t u ws) :
    Emitted s u (vs ++ ws) := by
  refine ⟨?_, fun h => ?_⟩
  · rw [h2.1, h1.1]
    simp [Nat.add_assoc]
  · obtain ⟨c1, o1⟩ := h1.2 h
    obtain ⟨c2, o2⟩ := h2.2 c1
    exact ⟨c2, by rw [o2, o1, List.append_assoc]⟩

theorem emitted_nil {s t : State} (h : ReaderOnly s t) : Emitted s t [] := by
  unfold ReaderOnly at h
  refine ⟨by rw [h]; rfl, fun hc => ?_⟩
  rw [h]
  exact ⟨hc, (List.append_nil _).symm⟩

theorem emitted_sinkPut {s t : State} (h : ReaderOnly s t) (v : Byte) : Emitted s (sinkPut v t) [v] := by
  unfold ReaderOnly at h
  refine ⟨by rw [h]; rfl, fun hc => ?_⟩
  rw [h]
  exact ⟨covers_write hc v, bytes_write hc v⟩

/-- `DecSym` along a leaf's path (R176). -/
theorem decSym_path {s : State} {T : CodeTree} (hT : s.tree = some T) (hr : ReaderOk s) {v : Byte} {p rest : List Bool}
    (hp : (v, p) ∈ T.paths) (hb : s.bitsLeft = p ++ rest) :
    ∃ u, decSym s = .ok () (sinkPut v u) ∧ u.bitsLeft = rest ∧ ReaderOk u ∧ ReaderOnly s u := by
  obtain ⟨hv, ht⟩ := tree_some hT
  simp only [decSym, hv, if_true]
  exact decWalk_path ht hr hp hb

/-- Everything `DecSym` can do with a tree (R176). -/
theorem decSym_cases {s : State} {T : CodeTree} (hT : s.tree = some T) (hr : ReaderOk s) :
    (∃ c ∈ T.paths, ∃ u, decSym s = .ok () (sinkPut c.1 u) ∧ s.bitsLeft = c.2 ++ u.bitsLeft ∧ ReaderOk u ∧
      ReaderOnly s u) ∨
    (∃ u, decSym s = .err .eos u ∧ u.bitsLeft = [] ∧ u.rcnt = 0#4 ∧ u.slen ≤ u.spos ∧ ReaderOk u ∧ ReaderOnly s u) := by
  obtain ⟨hv, ht⟩ := tree_some hT
  simp only [decSym, hv, if_true]
  exact decWalk_cases ht hr

theorem tree_emitted {s t : State} {vs : List Byte} (h : Emitted s t vs) : t.tree = s.tree := by
  rw [h.1]
  rfl

/-- `Decode`'s loop on a payload of as many codewords as it has passes (R177). -/
theorem decodeAll_payload {s : State} {T : CodeTree} (cs : List (Byte × List Bool)) (hT : s.tree = some T) (hr : ReaderOk s)
    (hc : ∀ c ∈ cs, c ∈ T.paths) {rest : List Bool} (hb : s.bitsLeft = cs.flatMap Prod.snd ++ rest) :
    ∃ t, decodeAll cs.length s = .ok () t ∧ Emitted s t (cs.map Prod.fst) ∧ t.bitsLeft = rest ∧ ReaderOk t := by
  induction cs generalizing s with
  | nil => exact ⟨s, rfl, emitted_nil rfl, hb, hr⟩
  | cons c cs ih =>
    have hb' : s.bitsLeft = c.2 ++ (cs.flatMap Prod.snd ++ rest) := by
      rw [hb, List.flatMap_cons, List.append_assoc]
    obtain ⟨u, eu, lu, ru, ou⟩ := decSym_path (v := c.1) (p := c.2) hT hr (hc c List.mem_cons_self) hb'
    have em := emitted_sinkPut ou c.1
    obtain ⟨t, et, ht, lt, rt⟩ := ih (s := sinkPut c.1 u) (by rw [tree_emitted em]; exact hT) (readerOk_sinkPut ru)
      (fun d hd => hc d (List.mem_cons_of_mem _ hd)) lu
    exact ⟨t, by simp only [List.length_cons, decodeAll, eu, bind_ok, et], em.trans ht, lt, rt⟩

/-- `Decode`'s loop when the stream ends inside a codeword after some whole ones (R177, R206). -/
theorem decodeAll_short {s : State} {T : CodeTree} (cs : List (Byte × List Bool)) (hT : s.tree = some T) (hr : ReaderOk s)
    (hc : ∀ c ∈ cs, c ∈ T.paths) {rest : List Bool} (hb : s.bitsLeft = cs.flatMap Prod.snd ++ rest)
    (hrest : ∀ c ∈ T.paths, ¬c.2 <+: rest) {n : Nat} (hn : cs.length < n) :
    ∃ t, decodeAll n s = .err .eos t ∧ Emitted s t (cs.map Prod.fst) ∧ t.bitsLeft = [] ∧ t.rcnt = 0#4 ∧ t.slen ≤ t.spos ∧
      ReaderOk t := by
  induction cs generalizing s n with
  | nil =>
    obtain ⟨n, rfl⟩ : ∃ k, n = k + 1 := ⟨n - 1, by simp at hn; omega⟩
    have hb0 : s.bitsLeft = rest := hb
    rcases decSym_cases hT hr with ⟨c, hcm, u, -, lu, -⟩ | ⟨u, eu, lu, cu, su, ru, ou⟩
    · rw [hb0] at lu
      exact absurd ⟨u.bitsLeft, lu.symm⟩ (hrest c hcm)
    · exact ⟨u, by simp only [decodeAll, eu, bind_err], emitted_nil ou, lu, cu, su, ru⟩
  | cons c cs ih =>
    obtain ⟨n, rfl⟩ : ∃ k, n = k + 1 := ⟨n - 1, by simp at hn; omega⟩
    have hb' : s.bitsLeft = c.2 ++ (cs.flatMap Prod.snd ++ rest) := by
      rw [hb, List.flatMap_cons, List.append_assoc]
    obtain ⟨u, eu, lu, ru, ou⟩ := decSym_path (v := c.1) (p := c.2) hT hr (hc c List.mem_cons_self) hb'
    have em := emitted_sinkPut ou c.1
    obtain ⟨t, et, ht, lt, ct, st, rt⟩ := ih (s := sinkPut c.1 u) (by rw [tree_emitted em]; exact hT) (readerOk_sinkPut ru)
      (fun d hd => hc d (List.mem_cons_of_mem _ hd)) lu (n := n) (by simp at hn; omega)
    exact ⟨t, by simp only [decodeAll, eu, bind_ok, et], em.trans ht, lt, ct, st, rt⟩

/-- Everything `Decode`'s loop can do with a tree: some codewords are decoded, all of them or E_EOS (R177). -/
theorem decodeAll_cases {s : State} {T : CodeTree} {n : Nat} (hT : s.tree = some T) (hr : ReaderOk s) :
    (∃ vs t, decodeAll n s = .ok () t ∧ Emitted s t vs ∧ ReaderOk t) ∨
    (∃ vs t, decodeAll n s = .err .eos t ∧ Emitted s t vs ∧ ReaderOk t) := by
  induction n generalizing s with
  | zero => exact .inl ⟨[], s, rfl, emitted_nil rfl, hr⟩
  | succ n ih =>
    rcases decSym_cases hT hr with ⟨c, -, u, eu, -, ru, ou⟩ | ⟨u, eu, -, -, -, ru, ou⟩
    · have em := emitted_sinkPut ou c.1
      rcases ih (s := sinkPut c.1 u) (by rw [tree_emitted em]; exact hT) (readerOk_sinkPut ru) with
        ⟨vs, t, et, ht, rt⟩ | ⟨vs, t, et, ht, rt⟩
      · exact .inl ⟨_, t, by simp only [decodeAll, eu, bind_ok, et], em.trans ht, rt⟩
      · exact .inr ⟨_, t, by simp only [decodeAll, eu, bind_ok, et], em.trans ht, rt⟩
    · exact .inr ⟨[], u, by simp only [decodeAll, eu, bind_err], emitted_nil ou, ru⟩

end Sys2Proof.Laws
end

