-- ==== Sys2Proof/Laws/Step.lean ====
section
/-! SUPPORT. Ending a command and taking a step: error entry for a step command (R201), what `present` does with a word
(R74), and what one step is for each move of the host. -/

namespace Sys2Proof.Laws

open Sys2Proof.Machine

/-! ### Ending a command -/

theorem roundTrip {i : Instr} (h : i.wellFormed = true) : decode (encode i) = .ok i := by
  cases i with
  | clear => exact RoundTrip.clear h
  | compress => exact RoundTrip.compress h
  | decompress => exact RoundTrip.decompress h
  | wbit b => exact RoundTrip.wbit b h
  | wbyte v => exact RoundTrip.wbyte v h
  | flush => exact RoundTrip.flush h
  | rbit => exact RoundTrip.rbit h
  | rbyte => exact RoundTrip.rbyte h
  | fclr => exact RoundTrip.fclr h
  | fcount v => exact RoundTrip.fcount v h
  | analyze => exact RoundTrip.analyze h
  | seed => exact RoundTrip.seed h
  | merge => exact RoundTrip.merge h
  | build => exact RoundTrip.build h
  | codegen => exact RoundTrip.codegen h
  | serialize => exact RoundTrip.serialize h
  | deserialize => exact RoundTrip.deserialize h
  | wrhdr => exact RoundTrip.wrhdr h
  | rdhdr => exact RoundTrip.rdhdr h
  | encsym v => exact RoundTrip.encsym v h
  | encode => exact RoundTrip.encode h
  | decsym => exact RoundTrip.decsym h
  | decode => exact RoundTrip.decode h
  | leaf v => exact RoundTrip.leaf v h
  | internal => exact RoundTrip.internal h

/-- Two commands with the same word are the same command. -/
theorem encode_injective {i j : Instr} (hi : i.wellFormed = true) (hj : j.wellFormed = true) (h : encode i = encode j) :
    i = j := by
  have h1 := roundTrip hi
  rw [h, roundTrip hj] at h1
  cases h1
  rfl

/-- Error entry for every command but COMPRESS and DECOMPRESS: ERR and ERRCMD, and nothing else (R201). -/
theorem raise_step {i : Instr} (hi : i.wellFormed = true) (h1 : i ≠ .compress) (h2 : i ≠ .decompress) (e : ErrorKind)
    (s : State) : raise (encode i) e s = { s with err := e.code, errCmd := encode i } := by
  have n1 : encode i ≠ encode .compress := fun h => h1 (encode_injective hi rfl h)
  have n2 : encode i ≠ encode .decompress := fun h => h2 (encode_injective hi rfl h)
  simp [raise, n1, n2]

/-- Error entry for COMPRESS and DECOMPRESS releases the tables and the tree (R201, R207). -/
theorem raise_invocation {i : Instr} (h : i = .compress ∨ i = .decompress) (e : ErrorKind) (s : State) :
    raise (encode i) e s = release { s with err := e.code, errCmd := encode i } := by
  rcases h with rfl | rfl <;> simp [raise]

theorem code_ne_zero (e : ErrorKind) : e.code ≠ 0#8 := by cases e <;> decide

theorem finish_ok {α : Type} {w : Word} {r : Res α} {a : α} {t : State} (h : r = .ok a t) : finish w r = .next t := by
  rw [h]; rfl

theorem finish_err {α : Type} {w : Word} {r : Res α} {e : ErrorKind} {t : State} (h : r = .err e t) :
    finish w r = .next (raise w e t) := by
  rw [h]; rfl

theorem finishReleasing_ok {α : Type} {w : Word} {r : Res α} {a : α} {t : State} (h : r = .ok a t) :
    finishReleasing w r = .next (release t) := by
  rw [h]; rfl

theorem finishReleasing_err {α : Type} {w : Word} {r : Res α} {e : ErrorKind} {t : State} (h : r = .err e t) :
    finishReleasing w r = .next (raise w e t) := by
  rw [h]; rfl

/-- What a command that ends with `finish` leaves: the state its micro-operation ended in, with the error recorded if there
was one. -/
theorem finish_next {α : Type} {w : Word} {r : Res α} {t : State} (h : finish w r = .next t) :
    (∃ a, r = .ok a t) ∨ ∃ e u, r = .err e u ∧ t = raise w e u := by
  cases r with
  | ok a u => cases h; exact .inl ⟨a, rfl⟩
  | err e u => cases h; exact .inr ⟨e, u, rfl, rfl⟩
  | stuck x => cases h

theorem finishReleasing_next {α : Type} {w : Word} {r : Res α} {t : State} (h : finishReleasing w r = .next t) :
    (∃ a u, r = .ok a u ∧ t = release u) ∨ ∃ e u, r = .err e u ∧ t = raise w e u := by
  cases r with
  | ok a u => cases h; exact .inl ⟨a, u, rfl, rfl⟩
  | err e u => cases h; exact .inr ⟨e, u, rfl, rfl⟩
  | stuck x => cases h

/-! ### The step -/

theorem accepts_iff (i : Instr) (s : State) : accepts i s = true ↔ s.err = 0#8 ∨ i.startsInvocation = true := by
  simp [accepts]

theorem present_legal {w : Word} {i : Instr} {s : State} (d : decode w = .ok i) :
    present w s = if accepts i s then exec i s else .next s := by simp [present, d]

theorem present_illegal {w : Word} {x : DecodeError} {s : State} (d : decode w = .error x) :
    present w s = if s.err = 0#8 then .next (raise w .illegalCmd s) else .next s := by simp [present, d]

/-- Raising E_ILLEGAL_CMD records the illegal word and changes nothing else (R75). -/
theorem raise_illegal {w : Word} {x : DecodeError} (d : decode w = .error x) (s : State) :
    raise w .illegalCmd s = { s with err := 1#8, errCmd := w } := by
  have key : ∀ i : Instr, i.wellFormed = true → w ≠ encode i := by
    intro i hi h
    rw [h, roundTrip hi] at d
    cases d
  simp [raise, key .compress rfl, key .decompress rfl, ErrorKind.code]

theorem step_idle {s : State} (h : s.port = []) : step s = .next s := by simp [step, portStep, h]

theorem step_command {s : State} {w : Word} {rest : List HostMove} (h : s.port = .command w :: rest) :
    step s = present w { s with port := rest } := by
  simp [step, portStep, h, hostMove]

theorem step_reset {s : State} {rest : List HostMove} (h : s.port = .reset :: rest) :
    step s = .next (init { s with port := rest }) := by
  simp [step, portStep, h, hostMove]

theorem step_bindSource {s : State} {bytes : List Byte} {rest : List HostMove} (h : s.port = .bindSource bytes :: rest) :
    step s = if bytes.length < Config.posLimit then .next (bindSource bytes { s with port := rest })
      else .refused .sourceTooLong := by
  simp only [step, portStep, h, hostMove]

/-! ### Each instruction as its shared operation -/

theorem exec_clear (s : State) : exec .clear s = .next (init s) := rfl
theorem exec_compress (s : State) : exec .compress s = finishReleasing (encode .compress) (compressBody (init s)) := rfl
theorem exec_decompress (s : State) : exec .decompress s = finishReleasing (encode .decompress) (decompressBody (init s)) :=
    rfl
theorem exec_wbit (b : Bool) (s : State) : exec (.wbit b) s = .next (writeBit b s) := rfl
theorem exec_wbyte (v : Byte) (s : State) : exec (.wbyte v) s = .next (writeByte v s) := rfl
theorem exec_flush (s : State) : exec .flush s = .next (flush s) := rfl
theorem exec_rbit (s : State) :
    exec .rbit s = finish (encode .rbit) ((readBit s).bind fun b s => .ok () { s with res := bitByte b }) := rfl
theorem exec_rbyte (s : State) :
    exec .rbyte s = finish (encode .rbyte) ((readByte s).bind fun v s => .ok () { s with res := v }) := rfl
theorem exec_fclr (s : State) : exec .fclr s = .next (freqClear s) := rfl
theorem exec_fcount (v : Byte) (s : State) : exec (.fcount v) s = finish (encode (.fcount v)) (count v s) := rfl
theorem exec_analyze (s : State) : exec .analyze s = finish (encode .analyze) (analyze s) := rfl
theorem exec_seed (s : State) : exec .seed s = finish (encode .seed) (seed s) := rfl
theorem exec_merge (s : State) : exec .merge s = finish (encode .merge) (merge s) := rfl
theorem exec_build (s : State) : exec .build s = finish (encode .build) (build s) := rfl
theorem exec_codegen (s : State) : exec .codegen s = finish (encode .codegen) (codeGen s) := rfl
theorem exec_serialize (s : State) : exec .serialize s = finish (encode .serialize) (serialize s) := rfl
theorem exec_deserialize (s : State) : exec .deserialize s = finish (encode .deserialize) (deserialize s) := rfl
theorem exec_wrhdr (s : State) : exec .wrhdr s = .next (wrHdr s) := rfl
theorem exec_rdhdr (s : State) : exec .rdhdr s = finish (encode .rdhdr) (rdHdr s) := rfl
theorem exec_encsym (v : Byte) (s : State) : exec (.encsym v) s = finish (encode (.encsym v)) (encSym v s) := rfl
theorem exec_encode (s : State) : exec .encode s = finish (encode .encode) (encodeSource s) := rfl
theorem exec_decsym (s : State) : exec .decsym s = finish (encode .decsym) (decSym s) := rfl
theorem exec_decode (s : State) : exec .decode s = finish (encode .decode) (decodeSource s) := rfl
theorem exec_leaf (v : Byte) (s : State) : exec (.leaf v) s = .next (putLeaf v s) := rfl
theorem exec_internal (s : State) : exec .internal s = .next (putInternal s) := rfl

end Sys2Proof.Laws
end

