-- ==== Sys2Proof/Laws/Invariant.lean ====
section
/-! SUPPORT. The invariants of R34 (`State.Inv`) as five independent parts, what each part rests on, and for each
micro-operation: it keeps the invariants, and it ends by a result or by one of the errors its rule names. The last section
puts the parts of `Compress()` together. -/

namespace Sys2Proof.Laws

open Sys2Proof.Machine

/-! ### The parts of the invariant -/

/-- item 7 of R34: no code is longer than 255 bits. -/
def CodeOk (s : State) : Prop := ∀ v p, s.codeAt v = some p → p.length ≤ Config.maxCodeLen

/-- The five parts read different fields. -/
theorem inv_iff {s : State} : s.Inv ↔ s.err.toNat ≤ 8 ∧ WriterOk s ∧ ReaderOk s ∧ BuildOk s ∧ CodeOk s :=
  ⟨fun h => ⟨h.errCode, ⟨h.sink, h.writerPad⟩, ⟨h.source, h.readerCount⟩,
    ⟨h.nullRoot, h.arenaCap, h.heapCap, h.arenaRoom, h.rootTree, h.heapForest⟩, h.codeLens⟩,
   fun ⟨h1, h2, h3, h4, h5⟩ => ⟨h1, h2.sink, h3.source, h2.pad, h3.count, h4.nullRoot, h4.arenaCap, h4.heapCap,
     h4.arenaRoom, h4.rootTree, h4.heapForest, h5⟩⟩

theorem writerOk_eq {s t : State} (h : WriterOk s) (h1 : t.dst = s.dst := by rfl) (h2 : t.dpos = s.dpos := by rfl)
    (h3 : t.wbuf = s.wbuf := by rfl) (h4 : t.wcnt = s.wcnt := by rfl) : WriterOk t :=
  ⟨by rw [h1, h2]; exact h.sink, by rw [h3, h4]; exact h.pad⟩

theorem readerOk_eq {s t : State} (h : ReaderOk s) (h1 : t.src = s.src := by rfl) (h2 : t.slen = s.slen := by rfl)
    (h3 : t.rcnt = s.rcnt := by rfl) : ReaderOk t :=
  ⟨by rw [h1, h2]; exact h.source, by rw [h3]; exact h.count⟩

theorem buildOk_eq {s t : State} (h : BuildOk s) (h1 : t.node = s.node := by rfl) (h2 : t.root = s.root := by rfl)
    (h3 : t.rootv = s.rootv := by rfl) (h4 : t.heap = s.heap := by rfl) : BuildOk t := by
  obtain ⟨a, b, c, d, e, f⟩ := h
  constructor <;> simp only [h1, h2, h3, h4] <;> assumption

theorem codeOk_eq {s t : State} (h : CodeOk s) (h1 : t.code = s.code := by rfl) : CodeOk t := by
  intro v p; rw [codeAt_of_code h1]; exact h v p

/-! ### Ending an invocation or a command -/

theorem code_le (e : ErrorKind) : e.code.toNat ≤ 8 := by cases e <;> decide

/-- ERR and ERRCMD enter only item 8. -/
theorem inv_err {s : State} (h : s.Inv) {e : Byte} (he : e.toNat ≤ 8) (w : Word) :
    State.Inv { s with err := e, errCmd := w } := by
  rw [inv_iff] at *
  exact ⟨he, writerOk_eq h.2.1, readerOk_eq h.2.2.1, buildOk_eq h.2.2.2.1, codeOk_eq h.2.2.2.2⟩

theorem buildOk_nil {s : State} (h1 : s.node = [] := by rfl) (h2 : s.root = 0 := by rfl) (h3 : s.rootv = false := by rfl)
    (h4 : s.heap = [] := by rfl) : BuildOk s := by
  constructor
  · intro; exact h2
  · rw [h1]; exact Nat.zero_le _
  · rw [h4]; exact Nat.zero_le _
  · intro h; exact absurd h4 h
  · intro h; rw [h3] at h; cases h
  · rw [h1, h4]; exact forest_nil _

theorem codeOk_nil {s : State} (h1 : s.code = Vector.replicate 256 none := by rfl) : CodeOk s := by
  intro v p h
  rw [codeAt_of_code (s := { s with code := Vector.replicate 256 none }) h1, codeAt_clear] at h; cases h

theorem inv_release {s : State} (h : s.err.toNat ≤ 8 ∧ WriterOk s ∧ ReaderOk s) : (release s).Inv := by
  rw [inv_iff]
  exact ⟨h.1, writerOk_eq h.2.1, readerOk_eq h.2.2, buildOk_nil, codeOk_nil⟩

theorem inv_init {s : State} (h : s.src.covers s.slen) : (init s).Inv := by
  rw [inv_iff]
  refine ⟨Nat.zero_le _, ⟨covers_nil, fun j hj => ?_⟩, ⟨h, Nat.zero_le _⟩, buildOk_nil, codeOk_nil⟩
  show (0#8).getLsbD j = false
  simp

theorem inv_raise {s : State} (h : s.Inv) (w : Word) (e : ErrorKind) : (raise w e s).Inv := by
  unfold raise
  have := inv_err h (code_le e) w
  split
  · exact inv_release ⟨this.errCode, (inv_iff.1 this).2.1, (inv_iff.1 this).2.2.1⟩
  · exact this

/-! ### One part changes, the others stay -/

theorem inv_writer {s t : State} (h : s.Inv) (o : WriterOnly s t) (w : WriterOk t) : t.Inv := by
  rw [inv_iff] at *
  rw [o] at *
  exact ⟨h.1, w, readerOk_eq h.2.2.1, buildOk_eq h.2.2.2.1, codeOk_eq h.2.2.2.2⟩

theorem inv_reader {s t : State} (h : s.Inv) (o : ReaderOnly s t) (w : ReaderOk t) : t.Inv := by
  rw [inv_iff] at *
  rw [o] at *
  exact ⟨h.1, writerOk_eq h.2.1, w, buildOk_eq h.2.2.2.1, codeOk_eq h.2.2.2.2⟩

theorem inv_tree {s t : State} (h : s.Inv) (o : TreeOnly s t) (w : BuildOk t) : t.Inv := by
  rw [inv_iff] at *
  rw [o] at *
  exact ⟨h.1, writerOk_eq h.2.1, readerOk_eq h.2.2.1, w, codeOk_eq h.2.2.2.2⟩

theorem inv_code {s t : State} (h : s.Inv) (o : CodeOnly s t) (w : CodeOk t) : t.Inv := by
  rw [inv_iff] at *
  rw [o] at *
  exact ⟨h.1, writerOk_eq h.2.1, readerOk_eq h.2.2.1, buildOk_eq h.2.2.2.1, w⟩

theorem inv_count {s t : State} (h : s.Inv) (o : CountOnly s t) : t.Inv := by
  rw [inv_iff] at *
  rw [o] at *
  exact ⟨h.1, writerOk_eq h.2.1, readerOk_eq h.2.2.1, buildOk_eq h.2.2.2.1, codeOk_eq h.2.2.2.2⟩

theorem inv_writeBits {s : State} (h : s.Inv) (bs : List Bool) : (writeBits bs s).Inv :=
  inv_writer h (writeBits_only bs s) (writeBits_spec (writerOk_of_inv h) bs).1

theorem inv_flush {s : State} (h : s.Inv) : (flush s).Inv :=
  inv_writer h (flush_only s) (flush_spec (writerOk_of_inv h)).1

theorem inv_res {s : State} (h : s.Inv) (v : Byte) : State.Inv { s with res := v } := by
  rw [inv_iff] at *
  exact ⟨h.1, writerOk_eq h.2.1, readerOk_eq h.2.2.1, buildOk_eq h.2.2.2.1, codeOk_eq h.2.2.2.2⟩

theorem inv_spos {s : State} (h : s.Inv) (n : Nat) : State.Inv { s with spos := n } := by
  rw [inv_iff] at *
  exact ⟨h.1, writerOk_eq h.2.1, readerOk_eq h.2.2.1, buildOk_eq h.2.2.2.1, codeOk_eq h.2.2.2.2⟩

theorem inv_port {s : State} (h : s.Inv) (q) : State.Inv { s with port := q } := by
  rw [inv_iff] at *
  exact ⟨h.1, writerOk_eq h.2.1, readerOk_eq h.2.2.1, buildOk_eq h.2.2.2.1, codeOk_eq h.2.2.2.2⟩

/-! ### The tree a DESERIALIZE leaves -/

theorem buildOk_of_desTree {s : State} (h : ReaderOk s) {e t} (hx : deserialize s = .err e t) : BuildOk t := by
  rcases deserialize_cases h with ⟨T, u, e1, _⟩ | ⟨e', u, e1, _, hc, o, _⟩
  · rw [e1] at hx; cases hx
  · rw [e1] at hx; cases hx
    constructor
    · intro; rw [o]
    · exact hc
    · rw [o]; exact Nat.zero_le _
    · rw [o]; intro h; exact absurd rfl h
    · rw [o]; intro h; cases h
    · have : t.heap = [] := by rw [o]
      rw [this]; exact forest_nil _

theorem buildOk_of_desTree_ok {s : State} (h : ReaderOk s) {t} (hx : deserialize s = .ok () t) : BuildOk t := by
  rcases deserialize_cases h with ⟨T, u, e1, _, hsz, _, o⟩ | ⟨e', u, e1, _⟩
  · rw [e1] at hx; cases hx
    have hn : t.node = (T.layout 0).map some := by rw [o]
    have hr : t.root = 0 := by rw [o]
    have hv : t.rootv = true := by rw [o]
    have hh : t.heap = [] := by rw [o]
    constructor
    · intro h; rw [hv] at h; cases h
    · rw [hn]; simpa [layout_length] using hsz
    · rw [hh]; exact Nat.zero_le _
    · intro h; exact absurd hh h
    · intro _; exact ⟨_, (tree_layout hn hr hv).2, List.nodup_range'⟩
    · rw [hh]; exact forest_nil _
  · rw [e1] at hx; cases hx

/-! ### Every micro-operation keeps the invariants -/

/-- The invariants hold where the micro-operation ends, by a result or by a raise. -/
structure Keeps {α} (r : Res α) : Prop where
  ok : ∀ {a t}, r = .ok a t → t.Inv
  err : ∀ {x t}, r = .err x t → t.Inv

theorem Keeps.of_ok {α} {a : α} {t : State} (h : t.Inv) : Keeps (.ok a t) :=
  ⟨(fun e => by cases e; exact h), (fun e => by cases e)⟩

theorem Keeps.of_err {α} {x} {t : State} (h : t.Inv) : Keeps (.err x t : Res α) :=
  ⟨(fun e => by cases e), (fun e => by cases e; exact h)⟩

theorem Keeps.bind {α β} {r : Res α} {f : α → State → Res β} (h : Keeps r)
    (k : ∀ a t, r = .ok a t → t.Inv → Keeps (f a t)) :
    Keeps (r.bind f) := by
  cases r with
  | ok a t => exact k a t rfl (h.ok rfl)
  | err e t => exact .of_err (h.err rfl)
  | stuck f => exact ⟨(fun e => by cases e), (fun e => by cases e)⟩

theorem Keeps.fin {α} {r : Res α} (h : Keeps r) {w t} (e : finish w r = .next t) : t.Inv := by
  rcases finish_next e with ⟨a, e1⟩ | ⟨x, u, e1, rfl⟩
  · exact h.ok e1
  · exact inv_raise (h.err e1) w x

theorem Keeps.finR {α} {r : Res α} (h : Keeps r) {w t} (e : finishReleasing w r = .next t) : t.Inv := by
  rcases finishReleasing_next e with ⟨a, u, e1, rfl⟩ | ⟨x, u, e1, rfl⟩
  · have := inv_iff.1 (h.ok e1)
    exact inv_release ⟨this.1, this.2.1, this.2.2.1⟩
  · exact inv_raise (h.err e1) w x

theorem keeps_readBit {s : State} (h : s.Inv) : Keeps (readBit s) :=
  .mk (fun e => inv_reader h ((readBit_only s).ok e) (((readBit_reads s).ok e).ok (readerOk_of_inv h)))
    (fun e => inv_reader h ((readBit_only s).err e) (((readBit_reads s).err e).ok (readerOk_of_inv h)))

theorem keeps_readByte {s : State} (h : s.Inv) : Keeps (readByte s) :=
  .mk (fun e => inv_reader h ((readByte_only s).ok e) (((readByte_reads s).ok e).ok (readerOk_of_inv h)))
    (fun e => inv_reader h ((readByte_only s).err e) (((readByte_reads s).err e).ok (readerOk_of_inv h)))

theorem keeps_analyze {s : State} (h : s.Inv) : Keeps (analyze s) :=
  .mk (fun e => inv_count h ((analyze_only s).ok e)) (fun e => inv_count h ((analyze_only s).err e))

theorem keeps_count {s : State} (v) (h : s.Inv) : Keeps (count v s) :=
  .mk (fun e => inv_count h ((count_only v s).ok e)) (fun e => inv_count h ((count_only v s).err e))

theorem keeps_build {s : State} (h : s.Inv) : Keeps (build s) := by
  rcases build_cases s with ⟨u, e1, o, b, _⟩ | ⟨u, e1, o, b, _⟩
  · rw [e1]; exact .of_ok (inv_tree h o b)
  · rw [e1]; exact .of_err (inv_tree h o b)

theorem keeps_seed {s : State} (h : s.Inv) : Keeps (seed s) := by
  obtain ⟨u, e1, o, _⟩ := seed_spec s
  rw [e1]; exact .of_ok (inv_tree h o (seed_buildOk e1))

theorem keeps_merge {s : State} (h : s.Inv) : Keeps (merge s) := by
  rcases merge_buildOk (inv_iff.1 h).2.2.2.1 with ⟨u, e1, o, b, _⟩ | ⟨x, u, e1, o, b, _⟩
  · rw [e1]; exact .of_ok (inv_tree h o b)
  · rw [e1]; exact .of_err (inv_tree h o b)

theorem keeps_codeGen {s : State} (h : s.Inv) : Keeps (codeGen s) := by
  cases hv : s.rootv with
  | false => rw [codeGen_null hv]; exact .of_ok <| inv_code h rfl codeOk_nil
  | true =>
    obtain ⟨T, hT⟩ := tree_of_inv h hv
    obtain ⟨t, e, o, hc⟩ := codeGen_tree hT
    rw [e]
    refine .of_ok <| inv_code h o fun v p hp => ?_
    rw [hc] at hp
    have h1 := path_length (codeOf_mem hp)
    have h2 := size_eq T
    have h3 := size_le_of_inv h hT
    have h4 := h.arenaCap
    simp only [Config.nodeCap, Config.maxCodeLen] at *
    omega

theorem keeps_serialize {s : State} (h : s.Inv) : Keeps (serialize s) := by
  cases hv : s.rootv with
  | false => unfold serialize; rw [hv]; exact .of_ok h
  | true =>
    obtain ⟨T, hT⟩ := tree_of_inv h hv
    rw [serialize_tree hT]; exact .of_ok <| inv_writeBits h _

theorem keeps_deserialize {s : State} (h : s.Inv) : Keeps (deserialize s) := by
  have r := readerOk_of_inv h
  have i := inv_iff.1 h
  refine .mk (fun {a t} e => ?_) (fun {x t} e => ?_)
  · have o := (deserialize_only s).ok e
    have b := buildOk_of_desTree_ok r e
    have rr := ((deserialize_reads s).ok e).ok r
    rw [inv_iff]; unfold DesTreeOnly at o; rw [o] at b rr ⊢
    exact ⟨i.1, writerOk_eq i.2.1, rr, b, codeOk_eq i.2.2.2.2⟩
  · have o := (deserialize_only s).err e
    have b := buildOk_of_desTree r e
    have rr := ((deserialize_reads s).err e).ok r
    rw [inv_iff]; unfold DesTreeOnly at o; rw [o] at b rr ⊢
    exact ⟨i.1, writerOk_eq i.2.1, rr, b, codeOk_eq i.2.2.2.2⟩

theorem keeps_rdHdr {s : State} (h : s.Inv) : Keeps (rdHdr s) := by
  have r := readerOk_of_inv h
  have i := inv_iff.1 h
  have key : ∀ {t}, HeaderOnly s t → ReaderOk t → t.Inv := by
    intro _ o rr
    rw [inv_iff]; unfold HeaderOnly at o; rw [o] at rr ⊢
    exact ⟨i.1, writerOk_eq i.2.1, rr, buildOk_eq i.2.2.2.1, codeOk_eq i.2.2.2.2⟩
  exact .mk (fun e => key ((rdHdr_only s).ok e) (((rdHdr_reads s).ok e).ok r))
    (fun e => key ((rdHdr_only s).err e) (((rdHdr_reads s).err e).ok r))

theorem keeps_encSym {s : State} (v) (h : s.Inv) : Keeps (encSym v s) := by
  cases hv : s.codeAt v with
  | none => rw [encSym_none hv]; exact .of_err h
  | some p => rw [encSym_some hv]; exact .of_ok <| inv_writeBits h _

theorem keeps_encode {s : State} (h : s.Inv) : Keeps (encodeSource s) := by
  rcases encodeAll_cases (n := s.slen - s.spos) h.source (Nat.le_refl _) with ⟨_, e⟩ | ⟨pre, v, post, _, _, _, e⟩
  · rw [encodeSource, e]; exact .of_ok (inv_spos (inv_writeBits h _) _)
  · rw [encodeSource, e]; exact .of_err (inv_spos (inv_writeBits h _) _)

theorem inv_emitted {s t : State} {vs} (h : s.Inv) (e : Emitted s t vs) (r : ReaderOk t) : t.Inv := by
  have i := inv_iff.1 h
  have w : WriterOk t := ⟨(e.2 h.sink).1, by have := e.1; rw [this]; exact i.2.1.pad⟩
  rw [inv_iff]
  have o := e.1
  rw [o] at w r ⊢
  exact ⟨i.1, w, r, buildOk_eq i.2.2.2.1, codeOk_eq i.2.2.2.2⟩

theorem keeps_decode {s : State} (n) (h : s.Inv) : Keeps (decodeAll n s) := by
  cases n with
  | zero => exact .of_ok h
  | succ n =>
    cases hv : s.rootv with
    | false =>
      have : decodeAll (n + 1) s = .err .noTree s := by simp [decodeAll, decSym, hv]
      rw [this]; exact .of_err h
    | true =>
      obtain ⟨T, hT⟩ := tree_of_inv h hv
      rcases decodeAll_cases (n := n + 1) hT (readerOk_of_inv h) with ⟨vs, t, e, em, r⟩ | ⟨vs, t, e, em, r⟩
      · rw [e]; exact .of_ok (inv_emitted h em r)
      · rw [e]; exact .of_err (inv_emitted h em r)

theorem keeps_decSym {s : State} (h : s.Inv) : Keeps (decSym s) := by
  have := keeps_decode 1 h
  unfold decodeAll at this
  cases hd : decSym s with
  | ok a t => rw [hd] at this; exact .of_ok (this.ok (a := ()) rfl)
  | err a t => rw [hd] at this; exact .of_err (this.err rfl)
  | stuck f => exact ⟨(fun e => by cases e), (fun e => by cases e)⟩

theorem keeps_compress {s : State} (h : s.Inv) : Keeps (compressBody s) := by
  unfold compressBody
  refine Keeps.bind (keeps_analyze h) ?_
  intro _ s1 _ h1
  refine Keeps.bind (keeps_build h1) ?_
  intro _ s2 _ h2
  refine Keeps.bind (keeps_codeGen h2) ?_
  intro _ s3 _ h3
  refine Keeps.bind (keeps_serialize (s := wrHdr s3) (by rw [wrHdr_eq]; exact inv_writeBits h3 _)) ?_
  intro _ s4 _ h4
  refine Keeps.bind (keeps_encode h4) ?_
  intro _ s5 _ h5
  exact .of_ok (inv_flush h5)

theorem keeps_decompress {s : State} (h : s.Inv) : Keeps (decompressBody s) := by
  unfold decompressBody
  refine Keeps.bind (keeps_rdHdr h) ?_
  intro _ s1 _ h1
  split
  · exact .of_ok h1
  · refine Keeps.bind (keeps_deserialize h1) ?_
    intro _ s2 _ h2
    exact keeps_decode _ h2

/-! ### Which errors a micro-operation raises (R205) -/

/-- It reads nothing that has no value, and raises only the codes listed. -/
structure Raises {α} (es : List Byte) (r : Res α) : Prop where
  live : ∀ f, r ≠ .stuck f
  err : ∀ {x t}, r = .err x t → x.code ∈ es

theorem Raises.of_ok {α es} {a : α} {t : State} {r} (h : r = .ok a t) : Raises es r := by
  subst h; exact ⟨(fun f h => by cases h), (fun e => by cases e)⟩

theorem Raises.of_err {α es} {x} {t : State} {r : Res α} (h : r = .err x t) (hx : x.code ∈ es) : Raises es r := by
  subst h; exact ⟨(fun f h => by cases h), (fun e => by cases e; exact hx)⟩

theorem Raises.mono {α es es'} {r : Res α} (h : Raises es r) (k : ∀ x ∈ es, x ∈ es') : Raises es' r :=
  ⟨h.1, fun e => k _ (h.2 e)⟩

theorem Raises.bind {α β es} {r : Res α} {f : α → State → Res β} (h : Raises es r)
    (k : ∀ a t, r = .ok a t → Raises es (f a t)) :
    Raises es (r.bind f) := by
  cases r with
  | ok a t => exact k a t rfl
  | err e t => exact .of_err rfl (h.err rfl)
  | stuck f => exact absurd rfl (h.live f)

theorem raises_readBit {s : State} (h : ReaderOk s) : Raises [2#8] (readBit s) := by
  rcases readBit_cases h with ⟨_, _, _, e⟩ | ⟨b, t, e, _⟩
  · exact .of_err e (by decide)
  · exact .of_ok e

theorem raises_readByte {s : State} (h : ReaderOk s) : Raises [2#8] (readByte s) := by
  rcases readByte_cases h with ⟨v, t, e, _⟩ | ⟨t, _, e, _⟩
  · exact .of_ok e
  · exact .of_err e (by decide)

theorem raises_rdHdr {s : State} (h : ReaderOk s) : Raises [2#8] (rdHdr s) := by
  rcases rdHdr_cases h with ⟨v, t, e, _⟩ | ⟨t, _, e, _⟩
  · exact .of_ok e
  · exact .of_err e (by decide)

theorem raises_count (v) (s : State) : Raises [4#8] (count v s) := by
  unfold count; split
  · exact .of_err rfl (by decide)
  · exact .of_ok rfl

theorem raises_analyze {s : State} (h : s.src.covers s.slen) : Raises [4#8] (analyze s) := by
  rcases analyze_spec h with ⟨_, t, e, _⟩ | ⟨_, t, e, _⟩
  · exact .of_ok e
  · exact .of_err e (by decide)

theorem raises_build (s : State) : Raises [5#8] (build s) := by
  rcases build_cases s with ⟨t, e, _⟩ | ⟨t, e, _⟩
  · exact .of_ok e
  · exact .of_err e (by decide)

theorem raises_merge {s : State} (h : s.Inv) : Raises [5#8, 8#8] (merge s) := by
  rcases merge_buildOk (inv_iff.1 h).2.2.2.1 with ⟨u, e1, _⟩ | ⟨x, u, e1, _, _, hx, _⟩
  · exact .of_ok e1
  · refine .of_err e1 ?_
    rcases hx with ⟨rfl, _⟩ | rfl <;> decide

theorem raises_codeGen {s : State} (h : s.Inv) : Raises [] (codeGen s) := by
  cases hv : s.rootv with
  | false => exact .of_ok (codeGen_null hv)
  | true =>
    obtain ⟨T, hT⟩ := tree_of_inv h hv
    obtain ⟨t, e, _⟩ := codeGen_tree hT
    exact .of_ok e

theorem raises_serialize {s : State} (h : s.Inv) : Raises [] (serialize s) := by
  cases hv : s.rootv with
  | false => exact .of_ok (t := s) (a := ()) (by unfold serialize; rw [hv]; rfl)
  | true =>
    obtain ⟨T, hT⟩ := tree_of_inv h hv
    exact .of_ok (serialize_tree hT)

theorem raises_deserialize {s : State} (h : ReaderOk s) : Raises [2#8, 3#8] (deserialize s) := by
  rcases deserialize_cases h with ⟨T, t, e, _⟩ | ⟨x, t, e, _, _, _, _, ⟨rfl, _⟩ | ⟨rfl, _⟩⟩
  · exact .of_ok e
  · exact .of_err e (by decide)
  · exact .of_err e (by decide)

theorem raises_encSym (v) (s : State) : Raises [6#8] (encSym v s) := by
  cases hv : s.codeAt v with
  | none => exact .of_err (encSym_none hv) (by decide)
  | some p => exact .of_ok (encSym_some hv)

theorem raises_encode {s : State} (h : s.src.covers s.slen) : Raises [6#8] (encodeSource s) := by
  rcases encodeAll_cases (n := s.slen - s.spos) h (Nat.le_refl _) with ⟨_, e⟩ | ⟨pre, v, post, _, _, _, e⟩
  · exact .of_ok e
  · exact .of_err e (by decide)

theorem raises_decode {s : State} (n) (h : s.Inv) : Raises [2#8, 7#8] (decodeAll n s) := by
  cases n with
  | zero => exact .of_ok rfl
  | succ n =>
    cases hv : s.rootv with
    | false => exact .of_err (t := s) (x := .noTree) (by simp [decodeAll, decSym, hv]) (by decide)
    | true =>
      obtain ⟨T, hT⟩ := tree_of_inv h hv
      rcases decodeAll_cases (n := n + 1) hT (readerOk_of_inv h) with ⟨vs, t, e, _⟩ | ⟨vs, t, e, _⟩
      · exact .of_ok e
      · exact .of_err e (by decide)

theorem raises_decSym {s : State} (h : s.Inv) : Raises [2#8, 7#8] (decSym s) := by
  cases hv : s.rootv with
  | false => exact .of_err (t := s) (x := .noTree) (by simp [decSym, hv]) (by decide)
  | true =>
    obtain ⟨T, hT⟩ := tree_of_inv h hv
    rcases decSym_cases hT (readerOk_of_inv h) with ⟨vs, _, t, e, _⟩ | ⟨t, e, _⟩
    · exact .of_ok e
    · exact .of_err e (by decide)

theorem raises_seed (s : State) : Raises [] (seed s) := by
  obtain ⟨u, e1, _⟩ := seed_spec s
  exact .of_ok e1

theorem deser_rootv {s t : State} (h : ReaderOk s) (e : deserialize s = .ok () t) : t.rootv = true := by
  rcases deserialize_cases h with ⟨T, u, e1, _, _, _, o⟩ | ⟨x, u, e1, _⟩
  · rw [e1] at e; cases e; rw [o]
  · rw [e1] at e; cases e

theorem raises_decompress {s : State} (h : s.Inv) : Raises [2#8, 3#8] (decompressBody s) := by
  unfold decompressBody
  have r := readerOk_of_inv h
  refine Raises.bind ((raises_rdHdr r).mono (by decide)) ?_
  intro a t e
  have ht := (keeps_rdHdr h).ok e
  split
  · exact .of_ok rfl
  · refine Raises.bind (raises_deserialize (readerOk_of_inv ht)) ?_
    intro b u e2
    have hu := (keeps_deserialize ht).ok e2
    have hv := deser_rootv (readerOk_of_inv ht) e2
    obtain ⟨T, hT⟩ := tree_of_inv hu hv
    unfold decodeSource
    rcases decodeAll_cases (n := u.len.toNat) hT (readerOk_of_inv hu) with ⟨vs, t, e, _⟩ | ⟨vs, t, e, _⟩
    · exact .of_ok e
    · exact .of_err e (by decide)

/-! ### Compress() -/

/-- BUILD on counts that fit: no tree for no key, else a tree whose leaves are the keys (R136). -/
theorem build_tree {s : State} (h : s.totalCount < 2 ^ 32) :
    ∃ t, build s = .ok () t ∧ TreeOnly s t ∧ (s.keys = [] → t.rootv = false) ∧
      (s.keys ≠ [] → ∃ T, t.tree = some T ∧ T.symbols.Perm s.keys) := by
  have hk : (keysOf s.freqTable).length = s.keys.length := by rw [← keysOf_fst]; simp
  have hke : keysOf s.freqTable = [] ↔ s.keys = [] := by
    rw [← List.length_eq_zero_iff, hk, List.length_eq_zero_iff]
  rcases build_spec s with ⟨-, t, e, o, f, hr, h0, h1, hp, -⟩ | ⟨hw, -⟩
  · refine ⟨t, e, o, fun hk0 => ?_, fun hk1 => ?_⟩
    · obtain ⟨-, b⟩ := h0 (hke.2 hk0)
      rcases setRoot_cases t with ⟨r, h1, -, -⟩ | ⟨-, -, h3⟩
      · rw [b] at h1; cases h1
      · rw [hr] at h3; exact h3
    · obtain ⟨-, hh⟩ := h1 fun h => hk1 (hke.1 h)
      have hroot : t.root = t.node.length - 1 ∧ t.rootv = true := by
        rcases setRoot_cases t with ⟨r, h1, h2, h3⟩ | ⟨h1, -, -⟩
        · rw [hr] at h2 h3; rw [hh] at h1; simp at h1; exact ⟨by omega, h3⟩
        · rw [hh] at h1; simp at h1
      rw [← hroot.1] at hh
      rw [hh] at f hp
      obtain ⟨is, hre, -⟩ := f.head
      obtain ⟨T, hT, -⟩ := treeOf_of_reach hre
      refine ⟨T, by rw [tree_of hroot.2]; exact hT, ?_⟩
      rw [keysOf_fst] at hp
      simpa [heapSymbols, leavesBelow, hT] using hp
  · rw [keysOf_sum] at hw; omega

/-- A table that counts a list sums to the list's length. -/
theorem totalCount_eq {s : State} {xs : List Byte} (h : ∀ v, (s.freqAt v).toNat = xs.count v) :
    s.totalCount = xs.length := by
  unfold State.totalCount
  rw [← sum_count allSymbols_nodup xs fun x _ => mem_allSymbols x]
  exact congrArg List.sum (List.map_congr_left fun v _ => h v)

/-- The keys of a table that counts a list are the symbols that occur in it (R21). -/
theorem mem_keys_of {s : State} {xs : List Byte} (h : ∀ v, (s.freqAt v).toNat = xs.count v) (v : Byte) :
    v ∈ s.keys ↔ v ∈ xs := by
  rw [mem_keys, ← List.count_pos_iff, ← h v]
  constructor
  · intro hv; exact Nat.pos_of_ne_zero fun e => hv (BitVec.eq_of_toNat_eq (by simpa using e))
  · intro hv e; rw [e] at hv; simp at hv

theorem treeOnly_same {s t : State} (h : TreeOnly s t) : t.src = s.src ∧ t.slen = s.slen ∧ t.len = s.len := by
  unfold TreeOnly at h; rw [h]; exact ⟨rfl, rfl, rfl⟩

/-- Everything `Compress()` can do (R185): the source is too long and its first step raises; it is empty; or the bits written
after the header are those of its tree and its payload. -/
theorem compress_spec {s : State} (h : s.Inv) :
    (2 ^ 32 ≤ s.slen ∧ ∃ t, analyze s = .err .countOverflow t ∧ compressBody s = .err .countOverflow t) ∨
    (s.slen < 2 ^ 32 ∧ ∃ a b c, analyze s = .ok () a ∧ build a = .ok () b ∧ codeGen b = .ok () c ∧ c.Inv ∧
      a.len.toNat = s.slen ∧ CountOnly s a ∧ a.spos = 0 ∧ TreeOnly a b ∧ CodeOnly b c ∧
      (∀ v, (a.freqAt v).toNat = s.src.bytes.count v) ∧
      ((s.slen = 0 ∧ b.rootv = false ∧ compressBody s = .ok () (flush { wrHdr c with spos := max c.spos c.slen })) ∨
      (s.slen ≠ 0 ∧ ∃ T, b.tree = some T ∧ T.symbols.Nodup ∧ (∀ v, v ∈ T.symbols ↔ v ∈ s.src.bytes) ∧
        (∀ v, c.codeAt v = T.codeOf v) ∧ compressBody s = .ok () (flush { writeBits (T.payload s.src.bytes)
          (writeBits T.bits (wrHdr c)) with spos := max c.spos c.slen })))) := by
  rcases analyze_spec h.source with ⟨hl, a, e1, oa, hc, hlen, hsp, hcnt⟩ | ⟨hl, t, e1, _⟩
  rotate_left
  · exact .inl ⟨hl, t, e1, by rw [compressBody, e1]; rfl⟩
  right
  have ia := (keeps_analyze h).ok e1
  have hsl : s.src.bytes.length = s.slen := by rw [bytes_length, covers_length h.source]
  have hsum : a.totalCount = s.slen := by rw [totalCount_eq hcnt, hsl]
  have hk := mem_keys_of hcnt
  obtain ⟨b', e2, ob, h0, h1⟩ := build_tree (s := a) (by omega)
  have ib := (keeps_build ia).ok e2
  have sa : a.src = s.src ∧ a.slen = s.slen := by unfold CountOnly at oa; rw [oa]; exact ⟨rfl, rfl⟩
  have sb := treeOnly_same ob
  have hpos : b'.spos = a.spos := by rw [ob]
  by_cases hz : s.slen = 0
  · have hbytes : s.src.bytes = [] := List.length_eq_zero_iff.1 (by omega)
    have hke : a.keys = [] := List.eq_nil_iff_forall_not_mem.2 fun v hv => by
      have := (hk v).1 hv; rw [hbytes] at this; cases this
    have hv := h0 hke
    refine ⟨hl, a, b', _, e1, e2, codeGen_null hv, (keeps_codeGen ib).ok (codeGen_null hv), hlen, oa, hsp, ob, rfl, hcnt,
      .inl ⟨hz, hv, ?_⟩⟩
    have hser : ∀ u : State, u.rootv = false → serialize u = .ok () u := fun u hu => by unfold serialize; rw [hu]; rfl
    have hw : ∀ u : State, (wrHdr u).rootv = u.rootv ∧ (wrHdr u).slen = u.slen ∧ (wrHdr u).spos = u.spos := fun u => by
      rw [wrHdr_eq]
      have := writeBits_only (headerBits u.len) u
      unfold WriterOnly at this
      rw [this]; exact ⟨rfl, rfl, rfl⟩
    simp only [compressBody, e1, e2, codeGen_null hv, bind_ok]
    rw [hser _ (by rw [(hw _).1]; exact hv)]
    have : ∀ u : State, u.slen = 0 → encodeSource u = .ok () u := fun u hu => by
      unfold encodeSource; rw [hu, Nat.zero_sub]; rfl
    rw [bind_ok, this _ (by rw [(hw _).2.1]; show b'.slen = 0; rw [sb.2.1, sa.2, hz]), bind_ok]
    have hsl0 : b'.slen = 0 := by rw [sb.2.1, sa.2, hz]
    have key : ∀ (u : State) (n : Nat), n = u.spos → ({ u with spos := n } : State) = u := by
      intro u n h; subst h; rfl
    rw [key]
    rw [(hw _).2.2]; show max b'.spos b'.slen = b'.spos; rw [hsl0]; omega
  · have hke : a.keys ≠ [] := fun hke => by
      have : s.src.bytes = [] := List.eq_nil_iff_forall_not_mem.2 fun v hv => by
        have := (hk v).2 hv; rw [hke] at this; cases this
      rw [this] at hsl; exact hz hsl.symm
    obtain ⟨T, hT, hperm⟩ := h1 hke
    have hnd : T.symbols.Nodup := hperm.nodup_iff.2 (keys_nodup a)
    have hsym : ∀ v, v ∈ T.symbols ↔ v ∈ s.src.bytes := fun v => by rw [hperm.mem_iff, hk]
    obtain ⟨c, e3, oc, hcode⟩ := codeGen_tree hT
    have ic := (keeps_codeGen ib).ok e3
    refine ⟨hl, a, b', c, e1, e2, e3, ic, hlen, oa, hsp, ob, oc, hcnt, .inr ⟨hz, T, hT, hnd, hsym, hcode, ?_⟩⟩
    have sc : c.node = b'.node ∧ c.root = b'.root ∧ c.rootv = b'.rootv ∧ c.src = b'.src ∧ c.slen = b'.slen ∧
        c.spos = b'.spos := by
      unfold CodeOnly at oc; rw [oc]; exact ⟨rfl, rfl, rfl, rfl, rfl, rfl⟩
    have hw : ∀ bs (u : State), (writeBits bs u).node = u.node ∧ (writeBits bs u).root = u.root ∧
        (writeBits bs u).rootv = u.rootv ∧ (writeBits bs u).src = u.src ∧ (writeBits bs u).slen = u.slen ∧
        (writeBits bs u).spos = u.spos ∧ (writeBits bs u).code = u.code := fun bs u => by
      have := writeBits_only bs u
      unfold WriterOnly at this
      rw [this]; exact ⟨rfl, rfl, rfl, rfl, rfl, rfl, rfl⟩
    have hTw : (wrHdr c).tree = some T := by
      rw [← hT, wrHdr_eq]; unfold State.tree
      rw [(hw _ _).1, (hw _ _).2.1, (hw _ _).2.2.1, sc.1, sc.2.1, sc.2.2.1]
    simp only [compressBody, e1, e2, e3, bind_ok, serialize_tree hTw]
    generalize hu : writeBits T.bits (wrHdr c) = u
    have hus : u.src = s.src ∧ u.slen = s.slen ∧ u.spos = 0 ∧ u.code = c.code := by
      have h1 := (hw (headerBits c.len) c).2.2.2
      have h2 := (hw T.bits (writeBits (headerBits c.len) c)).2.2.2
      rw [← hu, wrHdr_eq, h2.1, h1.1, h2.2.1, h1.2.1, h2.2.2.1, h1.2.2.1, h2.2.2.2, h1.2.2.2, sc.2.2.2.1, sc.2.2.2.2.1,
        sc.2.2.2.2.2, sb.1, sa.1, sb.2.1, sa.2, hpos, hsp]
      exact ⟨rfl, rfl, rfl, rfl⟩
    have hcu : ∀ v, u.codeAt v = T.codeOf v := fun v => by rw [codeAt_of_code hus.2.2.2, hcode]
    have hsrc : u.src.covers u.slen := by rw [hus.1, hus.2.1]; exact h.source
    rcases encodeAll_cases hsrc (Nat.le_refl _) with ⟨_, e⟩ | ⟨pre, v, post, hsplit, _, hv, _⟩
    · unfold encodeSource
      rw [e, bind_ok]
      have : codeBits u (u.src.bytes.drop u.spos) = T.payload s.src.bytes := by
        rw [hus.1, hus.2.2.1, List.drop_zero]; unfold codeBits CodeTree.payload; simp only [hcu]
      rw [this, hus.2.2.1, hus.2.1, sc.2.2.2.2.1, sc.2.2.2.2.2, sb.2.1, sa.2, hpos, hsp]
    · exfalso
      rw [hus.1, hus.2.2.1, List.drop_zero] at hsplit
      have : v ∈ s.src.bytes := by rw [hsplit]; simp
      obtain ⟨p, hp⟩ := codeOf_isSome.2 ((hsym v).2 this)
      rw [hcu, hp] at hv; cases hv

theorem raises_compress {s : State} (h : s.Inv) : Raises [4#8] (compressBody s) := by
  rcases compress_spec h with ⟨_, t, _, e⟩ | ⟨_, a, b, c, _, _, _, _, _, _, _, _, _, _, ⟨_, _, e⟩ | ⟨_, T, _, _, _, _, e⟩⟩
  · exact .of_err e (by decide)
  · exact .of_ok e
  · exact .of_ok e

end Sys2Proof.Laws
end

