-- ==== Sys2Proof/Laws/Optimal.lean ====
section
/-! SUPPORT. What Huffman's choice of the two least weights achieves (R142): no prefix code does better than merging greedily. -/

namespace Sys2Proof.Laws

/-! ### Prefix codes and the Kraft sum -/

/-- The Kraft sum of some lengths, in units of 2 to the power `-m`. -/
def kraft (m : Nat) (ls : Multiset Nat) : Nat := (ls.map fun l => 2 ^ (m - l)).sum

theorem kraft_cons (m l : Nat) (ls : Multiset Nat) : kraft m (l ::ₘ ls) = 2 ^ (m - l) + kraft m ls := by
  simp [kraft]

/-- The tails of the codes that begin with `b`. -/
def tailsOf (b : Bool) (cs : List (List Bool)) : List (List Bool) :=
  cs.filterMap fun c => match c with
    | [] => none
    | x :: r => if x = b then some r else none

theorem mem_tailsOf {b : Bool} {cs : List (List Bool)} {r : List Bool} : r ∈ tailsOf b cs ↔ b :: r ∈ cs := by
  simp only [tailsOf, List.mem_filterMap]
  constructor
  · rintro ⟨c, hc, h⟩
    match c, h with
    | x :: r', h =>
      simp only [Option.ite_none_right_eq_some, Option.some.injEq] at h
      obtain ⟨rfl, rfl⟩ := h
      exact hc
  · intro h
    exact ⟨_, h, by simp⟩

theorem prefixFree_tails {b : Bool} {cs : List (List Bool)} (h : cs.Pairwise fun p q => ¬p <+: q ∧ ¬q <+: p) :
    (tailsOf b cs).Pairwise fun p q => ¬p <+: q ∧ ¬q <+: p := by
  rw [tailsOf, List.pairwise_filterMap]
  refine h.imp fun {p q} hpq a ha c hc => ?_
  match p, q, ha, hc with
  | x :: p', y :: q', ha, hc =>
    simp only [Option.ite_none_right_eq_some, Option.some.injEq] at ha hc
    obtain ⟨rfl, rfl⟩ := ha
    obtain ⟨rfl, rfl⟩ := hc
    simpa using hpq

/-- Kraft: the codes of a prefix-free list of codes fit. -/
theorem kraft_le {m : Nat} {cs : List (List Bool)} (h : cs.Pairwise fun p q => ¬p <+: q ∧ ¬q <+: p)
    (hm : ∀ c ∈ cs, c.length ≤ m) : kraft m (cs.map List.length : List Nat) ≤ 2 ^ m := by
  induction m generalizing cs with
  | zero =>
    match cs, h, hm with
    | [], _, _ => simp [kraft]
    | [c], _, _ => simp [kraft]
    | c :: d :: rest, h, hm =>
      have : c = [] := List.length_eq_zero_iff.1 (Nat.le_zero.1 (hm c (by simp)))
      subst this
      exact absurd List.nil_prefix ((List.pairwise_cons.1 h).1 d (by simp)).1
  | succ m ih =>
    by_cases hn : [] ∈ cs
    · match cs, h, hn with
      | [c], _, hn => simp only [List.mem_singleton] at hn; subst hn; simp [kraft]
      | c :: d :: rest, h, hn =>
        exfalso
        rcases List.mem_cons.1 hn with rfl | hn'
        · exact ((List.pairwise_cons.1 h).1 d (by simp)).1 List.nil_prefix
        · exact ((List.pairwise_cons.1 h).1 [] hn').2 List.nil_prefix
    · have key : ∀ ds : List (List Bool), [] ∉ ds → kraft (m + 1) (ds.map List.length : List Nat) =
          kraft m ((tailsOf false ds).map List.length : List Nat) + kraft m ((tailsOf true ds).map List.length : List Nat) := by
        intro ds
        induction ds with
        | nil => intro _; rfl
        | cons c rest ih' =>
          intro hc
          have := ih' fun h => hc (by simp [h])
          match c, hc with
          | [], hc => simp at hc
          | false :: r, _ =>
            simp only [kraft, tailsOf, Multiset.map_coe, Multiset.sum_coe, List.map_map] at this ⊢
            simp [this]; omega
          | true :: r, _ =>
            simp only [kraft, tailsOf, Multiset.map_coe, Multiset.sum_coe, List.map_map] at this ⊢
            simp [this]; omega
      have h0 := ih (prefixFree_tails (b := false) h) fun c hc => by
        have := hm _ (mem_tailsOf.1 hc); simpa using this
      have h1 := ih (prefixFree_tails (b := true) h) fun c hc => by
        have := hm _ (mem_tailsOf.1 hc); simpa using this
      rw [key cs hn, Nat.pow_succ]
      omega

/-! ### Greedy merging is cheapest -/

/-- `c` is the sum of the weights made by merging two least weights again and again until one is left. -/
inductive Greedy : Multiset Nat → Nat → Prop
  | none : Greedy 0 0
  | one (w : Nat) : Greedy {w} 0
  | merge {a b c : Nat} {rest : Multiset Nat} : (∀ x ∈ rest, a ≤ x) → a ≤ b → (∀ x ∈ rest, b ≤ x) →
      Greedy ((a + b) ::ₘ rest) c → Greedy (a ::ₘ b ::ₘ rest) (c + (a + b))

/-- The total of weight times length. -/
def codeCost (ps : Multiset (Nat × Nat)) : Nat := (ps.map fun p => p.1 * p.2).sum

theorem codeCost_cons (p : Nat × Nat) (ps : Multiset (Nat × Nat)) : codeCost (p ::ₘ ps) = p.1 * p.2 + codeCost ps := by
  simp [codeCost]

/-- Giving a longest length to a least weight costs nothing. -/
theorem exchange {w l a : Nat} {qs : Multiset (Nat × Nat)} {ws : Multiset Nat} (hw : w ::ₘ qs.map Prod.fst = a ::ₘ ws)
    (ha : ∀ x ∈ ws, a ≤ x) (hl : ∀ q ∈ qs, q.2 ≤ l) :
    ∃ rs : Multiset (Nat × Nat), rs.map Prod.fst = ws ∧ rs.map Prod.snd = qs.map Prod.snd ∧
      a * l + codeCost rs ≤ w * l + codeCost qs := by
  rcases Multiset.cons_eq_cons.1 hw with ⟨rfl, h⟩ | ⟨hne, cs, h1, h2⟩
  · exact ⟨qs, h, rfl, le_rfl⟩
  · have hm : a ∈ qs.map Prod.fst := by rw [h1]; exact Multiset.mem_cons_self _ _
    obtain ⟨⟨a', k⟩, hq, rfl⟩ := Multiset.mem_map.1 hm
    obtain ⟨rs, rfl⟩ := Multiset.exists_cons_of_mem hq
    refine ⟨(w, k) ::ₘ rs, ?_, by simp, ?_⟩
    · rw [Multiset.map_cons] at h1 ⊢
      rw [h2, (Multiset.cons_inj_right _).1 h1]
    · have h3 : a' ≤ w := ha w (by rw [h2]; exact Multiset.mem_cons_self _ _)
      have h4 : k ≤ l := hl _ hq
      rw [codeCost_cons, codeCost_cons]
      show a' * l + (w * k + _) ≤ w * l + (a' * k + _)
      obtain ⟨d, rfl⟩ := Nat.exists_eq_add_of_le h3
      obtain ⟨e, rfl⟩ := Nat.exists_eq_add_of_le h4
      nlinarith [Nat.zero_le (d * e)]

theorem kraft_eq_of_snd {m : Nat} {ps qs : Multiset (Nat × Nat)} (h : ps.map Prod.snd = qs.map Prod.snd) :
    kraft m (ps.map Prod.snd) = kraft m (qs.map Prod.snd) := by rw [h]

theorem even_kraft {m : Nat} {ls : Multiset Nat} (h : ∀ l ∈ ls, l < m) : 2 ∣ kraft m ls := by
  refine Multiset.dvd_sum fun x hx => ?_
  obtain ⟨l, hl, rfl⟩ := Multiset.mem_map.1 hx
  exact dvd_pow_self 2 (by have := h l hl; omega)

theorem kraft_scale {m n : Nat} {ls : Multiset Nat} (h : ∀ l ∈ ls, l ≤ m) : kraft (m + n) ls = 2 ^ n * kraft m ls := by
  unfold kraft
  rw [← Multiset.sum_map_mul_left]
  refine congrArg Multiset.sum (Multiset.map_congr rfl fun l hl => ?_)
  rw [← pow_add]
  congr 1
  have := h l hl
  omega

/-- No lengths that fit cost less than merging greedily. -/
theorem greedy_le {ws : Multiset Nat} {c : Nat} (hg : Greedy ws c) :
    ∀ (n : Nat) (ps : Multiset (Nat × Nat)), (ps.map Prod.snd).sum = n → ps.map Prod.fst = ws →
      ∀ m, (∀ p ∈ ps, p.2 ≤ m) → kraft m (ps.map Prod.snd) ≤ 2 ^ m → c ≤ codeCost ps := by
  induction hg with
  | none => intros; exact Nat.zero_le _
  | one w => intros; exact Nat.zero_le _
  | @merge a b c rest ha hab hb hg ih =>
    intro n
    induction n using Nat.strong_induction_on with
    | _ n ihn =>
    intro ps hn hws m hm hk
    -- a longest length
    have hne : ps ≠ 0 := by rintro rfl; simp at hws
    obtain ⟨p, hp, hmax⟩ : ∃ p ∈ ps, ∀ q ∈ ps, q.2 ≤ p.2 := by
      have hfin : ps.toFinset.Nonempty := by
        rw [Multiset.toFinset_nonempty]; exact hne
      obtain ⟨p, hp, h⟩ := ps.toFinset.exists_max_image Prod.snd hfin
      exact ⟨p, Multiset.mem_toFinset.1 hp, fun q hq => h q (Multiset.mem_toFinset.2 hq)⟩
    obtain ⟨w, l⟩ := p
    obtain ⟨qs, rfl⟩ := Multiset.exists_cons_of_mem hp
    -- measure in units of that length
    have hk' : 1 + kraft l (qs.map Prod.snd) ≤ 2 ^ l := by
      obtain ⟨d, rfl⟩ := Nat.exists_eq_add_of_le (hm _ hp)
      rw [kraft_scale (fun x hx => by obtain ⟨q, hq, rfl⟩ := Multiset.mem_map.1 hx; exact hmax q hq), pow_add,
        Nat.mul_comm (2 ^ l)] at hk
      have := Nat.le_of_mul_le_mul_left hk (by positivity)
      simpa [kraft_cons] using this
    have hqs : qs ≠ 0 := by
      rintro rfl
      have := congrArg Multiset.card hws
      simp at this
    obtain ⟨q0, hq0⟩ := Multiset.exists_mem_of_ne_zero hqs
    have hl : 0 < l := by
      rcases Nat.eq_zero_or_pos l with rfl | h
      · have h0 : q0.2 = 0 := Nat.le_zero.1 (hmax q0 (Multiset.mem_cons_of_mem hq0))
        obtain ⟨rs, rfl⟩ := Multiset.exists_cons_of_mem hq0
        simp [kraft_cons, h0] at hk'
      · exact h
    by_cases h2 : ∃ q ∈ qs, q.2 = l
    · -- two longest: give them the two least weights and merge
      obtain ⟨⟨w', l'⟩, hq, rfl⟩ := h2
      rw [Multiset.map_cons] at hws
      obtain ⟨rs, hr1, hr2, hr3⟩ := exchange (l := l') (w := w) (qs := qs) (a := a) (ws := b ::ₘ rest) hws
        (fun x hx => by rcases Multiset.mem_cons.1 hx with rfl | hx; exacts [hab, ha x hx])
        fun q hq => hmax q (Multiset.mem_cons_of_mem hq)
      have hin : l' ∈ rs.map Prod.snd := by rw [hr2]; exact Multiset.mem_map_of_mem Prod.snd hq
      obtain ⟨⟨w2, l2⟩, hq2, rfl⟩ := Multiset.mem_map.1 hin
      obtain ⟨us, rfl⟩ := Multiset.exists_cons_of_mem hq2
      have hus : ∀ u ∈ us, u.2 ≤ l2 := by
        intro u hu
        have : u.2 ∈ qs.map Prod.snd := by
          rw [← hr2]; exact Multiset.mem_map_of_mem Prod.snd (Multiset.mem_cons_of_mem hu)
        obtain ⟨q, hq, e⟩ := Multiset.mem_map.1 this
        rw [← e]; exact hmax q (Multiset.mem_cons_of_mem hq)
      rw [Multiset.map_cons] at hr1 hr2
      obtain ⟨vs, hv1, hv2, hv3⟩ := exchange (l := l2) (w := w2) (qs := us) (a := b) (ws := rest) hr1 hb hus
      have hvs : ∀ v ∈ vs, v.2 ≤ l2 := by
        intro v hv
        have : v.2 ∈ us.map Prod.snd := by rw [← hv2]; exact Multiset.mem_map_of_mem Prod.snd hv
        obtain ⟨u, hu, e⟩ := Multiset.mem_map.1 this
        rw [← e]; exact hus u hu
      have hkk : kraft l2 (((a + b, l2 - 1) ::ₘ vs).map Prod.snd) ≤ 2 ^ l2 := by
        rw [← hr2, kraft_cons, ← hv2] at hk'
        rw [Multiset.map_cons, kraft_cons]
        have e : l2 - (l2 - 1) = 1 := by omega
        simp only [e, Nat.sub_self, pow_zero, pow_one] at hk' ⊢
        omega
      have := ih _ ((a + b, l2 - 1) ::ₘ vs) rfl (by rw [Multiset.map_cons, hv1]) l2
        (fun p hp => by
          rcases Multiset.mem_cons.1 hp with rfl | hp
          · exact Nat.sub_le _ _
          · exact hvs p hp) hkk
      rw [codeCost_cons] at this hr3 ⊢
      have e : (a + b) * (l2 - 1) + (a + b) = a * l2 + b * l2 := by
        obtain ⟨k, rfl⟩ : ∃ k, l2 = k + 1 := ⟨l2 - 1, by omega⟩
        rw [Nat.add_sub_cancel]; ring
      simp only at this hr3 ⊢
      omega
    · -- one longest: it can be one shorter
      replace h2 : ∀ q ∈ qs, q.2 ≠ l := fun q hq e => h2 ⟨q, hq, e⟩
      have hlt : ∀ q ∈ qs, q.2 < l := fun q hq =>
        lt_of_le_of_ne (hmax q (Multiset.mem_cons_of_mem hq)) (h2 q hq)
      have hev : 2 ∣ kraft l (qs.map Prod.snd) :=
        even_kraft fun x hx => by obtain ⟨q, hq, rfl⟩ := Multiset.mem_map.1 hx; exact hlt q hq
      have hev2 : 2 ∣ 2 ^ l := dvd_pow_self 2 (by omega)
      have hkk : kraft l (((w, l - 1) ::ₘ qs).map Prod.snd) ≤ 2 ^ l := by
        rw [Multiset.map_cons, kraft_cons]
        have e : l - (l - 1) = 1 := by omega
        simp only [e, pow_one]
        omega
      have := ihn (((w, l - 1) ::ₘ qs).map Prod.snd).sum
        (by rw [← hn]; simp only [Multiset.map_cons, Multiset.sum_cons]; omega) _ rfl
        (by rw [← hws]; simp) l
        (fun p hp => by
          rcases Multiset.mem_cons.1 hp with rfl | hp
          · exact Nat.sub_le _ _
          · exact (hlt p hp).le) hkk
      rw [codeCost_cons] at this ⊢
      have h5 : w * (l - 1) ≤ w * l := Nat.mul_le_mul_left _ (Nat.sub_le _ _)
      simp only at this ⊢
      omega

/-! ### The cost of a tree -/

open Sys2Proof.Machine

/-- The sum over the leaves of weight times depth. -/
def pathCost (f : Byte → Nat) (T : CodeTree) : Nat := (T.paths.map fun c => f c.1 * c.2.length).sum

/-- The sum of the leaves' weights. -/
def leafWeight (f : Byte → Nat) (T : CodeTree) : Nat := (T.symbols.map f).sum

theorem sum_deeper (f : Byte → Nat) (b : Bool) (cs : List (Byte × List Bool)) :
    ((cs.map fun c => (c.1, b :: c.2)).map fun c => f c.1 * c.2.length).sum =
      (cs.map fun c => f c.1 * c.2.length).sum + ((cs.map Prod.fst).map f).sum := by
  induction cs with
  | nil => rfl
  | cons c cs ih => simp only [List.map_cons, List.sum_cons, List.length_cons] at ih ⊢; rw [ih]; ring

theorem pathCost_fork (f : Byte → Nat) (l r : CodeTree) :
    pathCost f (.fork l r) = pathCost f l + pathCost f r + (leafWeight f l + leafWeight f r) := by
  simp only [pathCost, leafWeight, CodeTree.paths, List.map_append, List.sum_append, ← paths_symbols]
  rw [sum_deeper, sum_deeper]
  omega

/-- The cost of the tree below arena entry `i`. -/
def costBelow (f : Byte → Nat) (ns : List (Option Node)) (i : Nat) : Nat := (treeOf ns ns.length i).elim 0 (pathCost f)

/-- The weight of the leaves below arena entry `i`. -/
def weightBelow (f : Byte → Nat) (ns : List (Option Node)) (i : Nat) : Nat := ((leavesBelow ns i).map f).sum

/-- The cost of all trees of the heap. -/
def heapCost (f : Byte → Nat) (ns : List (Option Node)) (h : List Nat) : Nat := (h.map (costBelow f ns)).sum

theorem costBelow_append {f : Byte → Nat} {ns : List (Option Node)} {i : Nat} {is : List Nat}
    (h : reach ns ns.length i = some is) (xs : List (Option Node)) : costBelow f (ns ++ xs) i = costBelow f ns i := by
  obtain ⟨t, ht, -⟩ := treeOf_of_reach h
  rw [costBelow, costBelow, ht, treeOf_mono ht (show ns.length ≤ (ns ++ xs).length by simp) xs]

theorem heapCost_append {f : Byte → Nat} {ns : List (Option Node)} {h is : List Nat} (e : forest ns h = some is)
    (xs : List (Option Node)) : heapCost f (ns ++ xs) h = heapCost f ns h := by
  induction h generalizing is with
  | nil => rfl
  | cons i h ih =>
    obtain ⟨a, b, ha, hb, rfl⟩ := forest_cons e
    have := ih hb
    simp only [heapCost, List.map_cons, List.sum_cons, costBelow_append ha] at this ⊢
    rw [this]

theorem costBelow_newInternal {f : Byte → Nat} {ns : List (Option Node)} {a b : Nat} {ia ib : List Nat}
    (ha : reach ns ns.length a = some ia) (hb : reach ns ns.length b = some ib) (w : Count) (m : Byte) :
    costBelow f (ns ++ [some (.internal a b w m)]) ns.length =
      costBelow f ns a + costBelow f ns b + (weightBelow f ns a + weightBelow f ns b) := by
  obtain ⟨ta, ea, -⟩ := treeOf_of_reach ha
  obtain ⟨tb, eb, -⟩ := treeOf_of_reach hb
  have h1 := treeOf_mono ea (Nat.le_refl _) [some (.internal a b w m)]
  have h2 := treeOf_mono eb (Nat.le_refl _) [some (.internal a b w m)]
  have : treeOf (ns ++ [some (.internal a b w m)]) (ns.length + 1) ns.length = some (.fork ta tb) := by
    simp only [treeOf, nodeAt_length, h1, h2]
  simp only [costBelow, weightBelow, leavesBelow, List.length_append, List.length_singleton, this, ea, eb, Option.elim_some]
  exact pathCost_fork f ta tb

/-- The weight in a heap entry's record is that of the leaves below it. -/
def Weighed (f : Byte → Nat) (ns : List (Option Node)) (h : List Nat) : Prop := ∀ i ∈ h, weightOf ns i = weightBelow f ns i

theorem forest_mem {ns : List (Option Node)} {h is : List Nat} (e : forest ns h = some is) :
    ∀ i ∈ h, ∃ c, reach ns ns.length i = some c := by
  induction h generalizing is with
  | nil => intro i hi; cases hi
  | cons j h ih =>
    obtain ⟨a, b, ha, hb, -⟩ := forest_cons e
    intro i hi
    rcases List.mem_cons.1 hi with rfl | hi
    · exact ⟨a, ha⟩
    · exact ih hb i hi

theorem weight_le_of_key {ns : List (Option Node)} {i j : Nat} (h : keyOf ns i ≤ keyOf ns j) :
    weightOf ns i ≤ weightOf ns j := by
  unfold keyOf at h
  unfold weightOf
  cases hi : nodeAt ns i with
  | none => exact Nat.zero_le _
  | some x =>
    cases hj : nodeAt ns j with
    | none =>
      rw [hi, hj] at h
      simp only [Option.elim, keyNat] at h ⊢
      omega
    | some y =>
      rw [hi, hj] at h
      have := y.minsym.isLt
      simp only [Option.elim, keyNat] at h ⊢
      omega

/-- One after the other the merges of `Build()` are the greedy ones, and the cost of the forest grows by their weights. -/
theorem mergeAll_greedy {f : Byte → Nat} {n : Nat} {s t : State} (hf : ForestOk s.node s.heap)
    (ho : Ordered s.node s.heap) (hn : s.heap.length ≤ n) (hw : Weighed f s.node s.heap) (e : mergeAll n s = .ok () t) :
    ∃ c, Greedy (s.heap.map (weightOf s.node) : List Nat) c ∧ heapCost f t.node t.heap = heapCost f s.node s.heap + c := by
  induction n generalizing s with
  | zero =>
    cases e
    have : t.heap = [] := List.length_eq_zero_iff.1 (Nat.le_zero.1 hn)
    rw [this]
    exact ⟨0, .none, rfl⟩
  | succ n ih =>
    by_cases h1 : 1 < s.heap.length
    · obtain ⟨a, b, rest, x, y, mp, ⟨-, u, em, -⟩ | ⟨hsum, u, em, -, hnode, p, hru, fu, ou⟩⟩ := merge_cases hf h1
      · rw [mergeAll, if_pos h1, em] at e; cases e
      · rw [mergeAll, if_pos h1, em] at e
        have hl : rest.length + 2 = s.heap.length := by simpa using mp.perm.length_eq
        have hul : u.heap.length = rest.length + 1 := by simpa using p.length_eq
        obtain ⟨is, efp, -⟩ := hf.perm mp.perm
        obtain ⟨ia, z, ra, hz, -⟩ := forest_cons efp
        obtain ⟨ib, ir, rb, hrest, -⟩ := forest_cons hz
        have hsum' : (x.weight + y.weight).toNat = x.weight.toNat + y.weight.toNat := by
          rw [BitVec.toNat_add, Nat.mod_eq_of_lt hsum]
        have ha : weightOf s.node a = x.weight.toNat := by simp [weightOf, mp.nodeA]
        have hb : weightOf s.node b = y.weight.toNat := by simp [weightOf, mp.nodeB]
        have hma : a ∈ s.heap := mp.perm.mem_iff.1 (by simp)
        have hmb : b ∈ s.heap := mp.perm.mem_iff.1 (by simp)
        have hnew : weightOf u.node s.node.length = weightOf s.node a + weightOf s.node b := by
          rw [hnode, weightOf_new, ha, hb]; exact hsum'
        have hold : ∀ i ∈ rest, weightOf u.node i = weightOf s.node i := by
          intro i hi
          obtain ⟨nd, hnd⟩ := forest_written hrest i hi
          rw [hnode, weightOf_append hnd]
        have hbelow : weightBelow f u.node s.node.length = weightBelow f s.node a + weightBelow f s.node b := by
          rw [weightBelow, hnode, mergedNode, leavesBelow_newInternal ra rb, List.map_append, List.sum_append]
          rfl
        have hwu : Weighed f u.node u.heap := by
          intro i hi
          rcases List.mem_cons.1 (p.mem_iff.1 hi) with rfl | hi
          · rw [hnew, hbelow, hw a hma, hw b hmb]
          · obtain ⟨c, hc⟩ := forest_mem hrest i hi
            have : weightBelow f u.node i = weightBelow f s.node i := by
              rw [weightBelow, hnode, leavesBelow_append hc]; rfl
            rw [hold i hi, this]
            exact hw i (mp.perm.mem_iff.1 (by simp [hi]))
        obtain ⟨c, hg, hc⟩ := ih fu (ou ho) (by omega) hwu e
        have hord : s.HeapOrdered := (ordered_iff hf.written).1 ho
        have hmem : ∀ i ∈ rest, i ∈ s.heap := fun i hi => mp.perm.mem_iff.1 (by simp [hi])
        refine ⟨c + (weightOf s.node a + weightOf s.node b), ?_, ?_⟩
        · have h3 : (s.heap.map (weightOf s.node) : Multiset Nat) =
              weightOf s.node a ::ₘ weightOf s.node b ::ₘ (rest.map (weightOf s.node) : List Nat) :=
            Multiset.coe_eq_coe.2 (mp.perm.map _).symm
          have h4 : (u.heap.map (weightOf u.node) : Multiset Nat) =
              (weightOf s.node a + weightOf s.node b) ::ₘ (rest.map (weightOf s.node) : List Nat) := by
            refine Multiset.coe_eq_coe.2 ((p.map _).trans ?_)
            rw [List.map_cons, hnew, List.map_congr_left hold]
          rw [h3]
          rw [h4] at hg
          refine .merge (fun w hx => ?_) (weight_le_of_key (mp.least hord b hmb)) (fun w hx => ?_) hg
          · obtain ⟨i, hi, rfl⟩ := List.mem_map.1 (Multiset.mem_coe.1 hx)
            exact weight_le_of_key (mp.least hord i (hmem i hi))
          · obtain ⟨i, hi, rfl⟩ := List.mem_map.1 (Multiset.mem_coe.1 hx)
            exact weight_le_of_key (mp.second hord i (by simp [hi]))
        · have h5 : heapCost f s.node s.heap = heapCost f s.node (a :: b :: rest) := ((mp.perm.map _).sum_eq).symm
          have h6 : heapCost f u.node u.heap = heapCost f u.node (s.node.length :: rest) := (p.map _).sum_eq
          have h7 : heapCost f u.node rest = heapCost f s.node rest := by rw [hnode, heapCost_append hrest]
          have h8 : costBelow f u.node s.node.length =
              costBelow f s.node a + costBelow f s.node b + (weightBelow f s.node a + weightBelow f s.node b) := by
            rw [hnode, mergedNode, costBelow_newInternal ra rb]
          rw [hc, h5, h6, hw a hma, hw b hmb]
          simp only [heapCost, List.map_cons, List.sum_cons] at h7 ⊢
          rw [h7, h8]
          omega
    · rw [mergeAll, if_neg h1] at e
      cases e
      match hh : t.heap with
      | [] => exact ⟨0, .none, rfl⟩
      | [r] => exact ⟨0, .one _, rfl⟩
      | _ :: _ :: _ => simp [hh] at h1

/-- After `Seed()` the heap holds one leaf for each key, of its count and of cost 0. -/
theorem seed_weighed {s a : State} (e : seed s = .ok () a) :
    Weighed (fun v => (s.freqAt v).toNat) a.node a.heap ∧ heapCost (fun v => (s.freqAt v).toNat) a.node a.heap = 0 ∧
      (a.heap.map (weightOf a.node)).Perm (s.keys.map fun v => (s.freqAt v).toNat) := by
  obtain ⟨a', e', -, hn, hp, -⟩ := seed_spec s
  rw [e] at e'
  cases e'
  rw [keysOf_freqTable, List.map_map] at hn
  have hl : (keysOf s.freqTable).length = s.keys.length := by rw [← keysOf_fst]; simp
  rw [hl] at hp
  have hat : ∀ i (h : i < s.keys.length), nodeAt a.node i = some (.leaf s.keys[i] (s.freqAt s.keys[i]) s.keys[i]) := by
    intro i h
    simp [nodeAt, hn, h, seedLeaf]
  have htree : ∀ i (h : i < s.keys.length), treeOf a.node a.node.length i = some (.leaf s.keys[i]) := by
    intro i h
    obtain ⟨k, hk⟩ : ∃ k, a.node.length = k + 1 := ⟨a.node.length - 1, by simp [hn]; omega⟩
    rw [hk, treeOf, hat i h]
  have hw : ∀ i (h : i < s.keys.length), weightOf a.node i = (s.freqAt s.keys[i]).toNat := by
    intro i h
    simp [weightOf, hat i h, Node.weight]
  refine ⟨fun i hi => ?_, ?_, ?_⟩
  · have h := List.mem_range.1 (hp.mem_iff.1 hi)
    simp [hw i h, weightBelow, leavesBelow, htree i h, CodeTree.symbols]
  · refine List.sum_eq_zero fun c hc => ?_
    obtain ⟨i, hi, rfl⟩ := List.mem_map.1 hc
    have h := List.mem_range.1 (hp.mem_iff.1 hi)
    simp [costBelow, htree i h, pathCost, CodeTree.paths]
  · refine (hp.map _).trans (List.Perm.of_eq ?_)
    refine List.ext_getElem (by simp) fun i h1 h2 => ?_
    simp only [List.length_map, List.length_range] at h1
    simp [hw i h1]

end Sys2Proof.Laws
end

