-- ==== Sys2Proof/Machine/Assembler.lean ====
section
/-! DEFINITION. The assembler syntax of command sequences (R76) and its pseudo-instructions (R77): how a line of text
becomes moves of the host. Text is a list of characters. No other definition of the machine uses this file. -/

namespace Sys2Proof.Machine

/-- One line of a command sequence: a command of R72, a pseudo-instruction of R77, or a directive of R76. -/
inductive Line where
  /-- a command and its operand -/
  | command (i : Instr)
  /-- WBITS, one WBIT for each bit -/
  | wbits (bs : List Bool)
  /-- FCOUNTN v, n: FCOUNT v repeated n times -/
  | fcountn (v : Byte) (n : Nat)
  /-- ENCSTR, one ENCSYM for each byte -/
  | encstr (vs : List Byte)
  /-- .src, binds SRC to the bytes -/
  | src (bytes : List Byte)
  /-- .reset, asserts reset -/
  | reset
  deriving DecidableEq, Repr

/-- The host's moves a line stands for (R76, R77). -/
def Line.moves : Line → List HostMove
  | .command i => [.command (encode i)]
  | .wbits bs => bs.map fun b => .command (encode (.wbit b))
  | .fcountn v n => List.replicate n (.command (encode (.fcount v)))
  | .encstr vs => vs.map fun v => .command (encode (.encsym v))
  | .src bytes => [.bindSource bytes]
  | .reset => [.reset]

/-- The moves of a command sequence, line by line. -/
def assemble (ls : List Line) : List HostMove := ls.flatMap Line.moves

/-- The value of a hexadecimal digit. -/
def hexDigit (c : Char) : Option Nat :=
  if '0' ≤ c ∧ c ≤ '9' then some (c.toNat - 48)
  else if 'a' ≤ c ∧ c ≤ 'f' then some (c.toNat - 87)
  else if 'A' ≤ c ∧ c ≤ 'F' then some (c.toNat - 55)
  else none

/-- Digits in a base, read after the value `n`. -/
def digits (base : Nat) : Nat → List Char → Option Nat
  | n, [] => some n
  | n, c :: rest =>
    match hexDigit c with
    | some d => if d < base then digits base (n * base + d) rest else none
    | none => none

/-- A decimal number, or a hexadecimal one after `0x` (R76). -/
def number : List Char → Option Nat
  | [] => none
  | ['0', 'x'] => none
  | '0' :: 'x' :: rest => digits 16 0 rest
  | cs => digits 10 0 cs

/-- A byte operand: a number below 256, or an ASCII character in single quotes standing for its code (R76). -/
def byteOperand : List Char → Option Byte
  | ['\'', c, '\''] => if c.toNat < 128 then some (BitVec.ofNat 8 c.toNat) else none
  | cs =>
    match number cs with
    | some n => if n < 256 then some (BitVec.ofNat 8 n) else none
    | none => none

/-- A bit operand: the number 0 or 1. -/
def bitOperand (cs : List Char) : Option Bool :=
  match number cs with
  | some 0 => some false
  | some 1 => some true
  | _ => none

/-- A string of 0 and 1. -/
def bitString : List Char → Option (List Bool)
  | [] => some []
  | '0' :: rest => (bitString rest).map (List.cons false)
  | '1' :: rest => (bitString rest).map (List.cons true)
  | _ => none

/-- Hexadecimal bytes, two digits each. -/
def hexPairs : List Char → Option (List Byte)
  | [] => some []
  | [_] => none
  | a :: b :: rest =>
    match hexDigit a, hexDigit b, hexPairs rest with
    | some x, some y, some bs => some (BitVec.ofNat 8 (x * 16 + y) :: bs)
    | _, _, _ => none

/-- Hexadecimal bytes with blanks between them. -/
def hexBytes (cs : List Char) : Option (List Byte) := hexPairs (cs.filter fun c => c != ' ')

/-- Blanks at both ends taken off. -/
def trim (cs : List Char) : List Char :=
  ((cs.dropWhile fun c => c == ' ').reverse.dropWhile fun c => c == ' ').reverse

/-- The operands of FCOUNTN: a symbol, a comma, a number (R77). -/
def countOperands (cs : List Char) : Option Line :=
  let parts := match cs with
    | '\'' :: c :: '\'' :: ',' :: rest => (['\'', c, '\''], rest)
    | _ => (cs.takeWhile fun c => c != ',', (cs.dropWhile fun c => c != ',').drop 1)
  match byteOperand (trim parts.1), number (trim parts.2) with
  | some v, some n => some (.fcountn v n)
  | _, _ => none

/-- A mnemonic with its operand text. -/
def statement (mnemonic operand : List Char) : Option Line :=
  match mnemonic, operand with
  | ['C', 'L', 'E', 'A', 'R'], [] => some (.command .clear)
  | ['C', 'O', 'M', 'P', 'R', 'E', 'S', 'S'], [] => some (.command .compress)
  | ['D', 'E', 'C', 'O', 'M', 'P', 'R', 'E', 'S', 'S'], [] => some (.command .decompress)
  | ['W', 'B', 'I', 'T'], cs => (bitOperand cs).map fun b => .command (.wbit b)
  | ['W', 'B', 'Y', 'T', 'E'], cs => (byteOperand cs).map fun v => .command (.wbyte v)
  | ['F', 'L', 'U', 'S', 'H'], [] => some (.command .flush)
  | ['R', 'B', 'I', 'T'], [] => some (.command .rbit)
  | ['R', 'B', 'Y', 'T', 'E'], [] => some (.command .rbyte)
  | ['F', 'C', 'L', 'R'], [] => some (.command .fclr)
  | ['F', 'C', 'O', 'U', 'N', 'T'], cs => (byteOperand cs).map fun v => .command (.fcount v)
  | ['A', 'N', 'A', 'L', 'Y', 'Z', 'E'], [] => some (.command .analyze)
  | ['S', 'E', 'E', 'D'], [] => some (.command .seed)
  | ['M', 'E', 'R', 'G', 'E'], [] => some (.command .merge)
  | ['B', 'U', 'I', 'L', 'D'], [] => some (.command .build)
  | ['C', 'O', 'D', 'E', 'G', 'E', 'N'], [] => some (.command .codegen)
  | ['S', 'E', 'R', 'I', 'A', 'L', 'I', 'Z', 'E'], [] => some (.command .serialize)
  | ['D', 'E', 'S', 'E', 'R', 'I', 'A', 'L', 'I', 'Z', 'E'], [] => some (.command .deserialize)
  | ['W', 'R', 'H', 'D', 'R'], [] => some (.command .wrhdr)
  | ['R', 'D', 'H', 'D', 'R'], [] => some (.command .rdhdr)
  | ['E', 'N', 'C', 'S', 'Y', 'M'], cs => (byteOperand cs).map fun v => .command (.encsym v)
  | ['E', 'N', 'C', 'O', 'D', 'E'], [] => some (.command .encode)
  | ['D', 'E', 'C', 'S', 'Y', 'M'], [] => some (.command .decsym)
  | ['D', 'E', 'C', 'O', 'D', 'E'], [] => some (.command .decode)
  | ['W', 'B', 'I', 'T', 'S'], cs => (bitString cs).map .wbits
  | ['F', 'C', 'O', 'U', 'N', 'T', 'N'], cs => countOperands cs
  | ['E', 'N', 'C', 'S', 'T', 'R'], cs => (hexBytes cs).map .encstr
  | ['.', 's', 'r', 'c'], cs => (hexBytes cs).map .src
  | ['.', 'r', 'e', 's', 'e', 't'], [] => some .reset
  | _, _ => none

/-- A line of text without its comment: no line where it is blank, an error where it is not in the syntax (R76). -/
def parseLine (text : List Char) : Except Unit (Option Line) :=
  match trim (text.takeWhile fun c => c != ';') with
  | [] => .ok none
  | cs =>
    match statement (cs.takeWhile fun c => c != ' ') (trim (cs.dropWhile fun c => c != ' ')) with
    | some l => .ok (some l)
    | none => .error ()

end Sys2Proof.Machine
end

