-- ==== Sys2Proof/Tests/Slice0.lean ====
section
/-! SUPPORT. The model's own tests. Expected results are from 95_test_vectors.md (named by vector) and from the examples of
the command rules. Then, for each statement that has hypotheses, a concrete state that meets them. -/

namespace Sys2Proof.Tests

open Sys2Proof.Machine

/-! ### Helpers: small states -/

/-- The state an outcome goes on to; the reset state where it stops, which no test below expects. -/
def endOf (o : Host.Outcome State Fault Refusal) : State :=
  match o with
  | .next t => t
  | .fault _ => State.reset
  | .refused _ => State.reset

/-- The state after one instruction. -/
def after (i : Instr) (s : State) : State := endOf (exec i s)

/-- The instruction completes. -/
def completes (i : Instr) (s : State) : Bool :=
  match exec i s with
  | .next _ => true
  | .fault _ => false
  | .refused _ => false

/-- From reset with a source bound. -/
def src (bytes : List Byte) : State := bindSource bytes State.reset

/-- `s` with the counts of a table, and LEN as given. -/
def counted (n : Nat) (table : List (Byte × Nat)) (s : State) : State :=
  table.foldl (fun s c => s.setFreq c.1 (BitVec.ofNat 32 c.2)) { s with len := BitVec.ofNat 32 n }

/-- The source A, A, A, B, B, C of S7. -/
def abc : List Byte := [0x41#8, 0x41#8, 0x41#8, 0x42#8, 0x42#8, 0x43#8]

/-- S7 after ANALYZE. -/
def abcCounts : State := counted 6 [(0x41#8, 3), (0x42#8, 2), (0x43#8, 1)] (src abc)

/-- The leaves of S7. -/
def abcLeaves : List (Option Node) :=
  [some (.leaf 0x41#8 3#32 0x41#8), some (.leaf 0x42#8 2#32 0x42#8), some (.leaf 0x43#8 1#32 0x43#8)]

/-- S7 after SEED. -/
def abcSeeded : State := { abcCounts with node := abcLeaves, heap := [2, 0, 1] }

/-- S7 after BUILD. -/
def abcTree : State := { abcCounts with
  node := abcLeaves ++ [some (.internal 2 1 3#32 0x42#8), some (.internal 0 3 6#32 0x41#8)],
  heap := [4], root := 4, rootv := true }

/-- S7 after CODEGEN. -/
def abcCodes : State :=
  ((abcTree.setCode 0x41#8 [false]).setCode 0x43#8 [true, false]).setCode 0x42#8 [true, true]

/-- The compressed file of S7. -/
def abcFile : List Byte := [0x06#8, 0x00#8, 0x00#8, 0x00#8, 0x50#8, 0x54#8, 0x3A#8, 0x10#8, 0xF8#8]

/-- The file of S7 after RDHDR and DESERIALIZE (T45.8). -/
def abcRead : State := { src abcFile with
  node := [some (.internal 1 2 0#32 0#8), some (.leaf 0x41#8 0#32 0#8), some (.internal 3 4 0#32 0#8),
    some (.leaf 0x43#8 0#32 0#8), some (.leaf 0x42#8 0#32 0#8)],
  rootv := true, len := 6#32, rbuf := 0x10#8, rcnt := 3#4, spos := 8 }

/-- The tree of S7. -/
def abcShape : CodeTree := .fork (.leaf 0x41#8) (.fork (.leaf 0x43#8) (.leaf 0x42#8))

/-- T42.10 (a): counts whose sum is 2^32. -/
def heavy : State := counted 0 [(1#8, 2 ^ 32 - 1), (2#8, 1)] State.reset

/-- Counts whose first two leaves merge and whose third does not fit. -/
def heavyLate : State := counted 0 [(1#8, 1), (2#8, 1), (3#8, 2 ^ 32 - 1)] State.reset

/-- T42.10 (a) after SEED. -/
def heavySeeded : State := { heavy with
  node := [some (.leaf 1#8 0xFFFFFFFF#32 1#8), some (.leaf 2#8 1#32 2#8)], heap := [1, 0] }

/-- One leaf 0x41, as DESERIALIZE of A0 80 leaves it (T44.4). -/
def oneLeaf : State := { src [0xA0#8, 0x80#8] with
  node := [some (.leaf 0x41#8 0#32 0#8)], rootv := true, rbuf := 0x80#8, rcnt := 7#4, spos := 2 }

/-- A source too long for COMPRESS. -/
def longSource : State := bindSource (List.replicate (2 ^ 32) 0#8) State.reset

/-! ### Well-formedness -/

theorem test_leaf_is_no_command : Instr.wellFormed (.leaf 0x41#8) = false := by decide
theorem test_internal_is_no_command : Instr.wellFormed .internal = false := by decide
theorem test_commands_are_wellFormed : [Instr.clear, .wbit true, .wbyte 0xFF#8, .fcount 0#8, .build, .codegen,
    .deserialize, .encsym 0x41#8, .decode].all Instr.wellFormed = true := by decide

/-! ### Decoding: words written out from R71 and R72, and T30 -/

theorem test_decode_sequencer : decode 0b0000000100000000#16 = .ok .clear ∧ decode 0b0000001000000000#16 = .ok .compress ∧
    decode 0b0000001100000000#16 = .ok .decompress := by decide
theorem test_decode_bitstream : decode 0b0001000000000001#16 = .ok (.wbit true) ∧
    decode 0b0001000000000000#16 = .ok (.wbit false) ∧ decode 0b0001000110100101#16 = .ok (.wbyte 0xA5#8) ∧
    decode 0b0001001000000000#16 = .ok .flush ∧ decode 0b0001001100000000#16 = .ok .rbit ∧
    decode 0b0001010000000000#16 = .ok .rbyte := by decide
theorem test_decode_frequency : decode 0b0010000000000000#16 = .ok .fclr ∧
    decode 0b0010000111111111#16 = .ok (.fcount 0xFF#8) ∧ decode 0b0010001000000000#16 = .ok .analyze := by decide
theorem test_decode_builder : decode 0b0011000000000000#16 = .ok .seed ∧ decode 0b0011000100000000#16 = .ok .merge ∧
    decode 0b0011001000000000#16 = .ok .build ∧ decode 0b0100000000000000#16 = .ok .codegen := by decide
theorem test_decode_serdes : decode 0b0101000000000000#16 = .ok .serialize ∧
    decode 0b0101000100000000#16 = .ok .deserialize := by decide
theorem test_decode_pipeline : decode 0b0110000000000000#16 = .ok .wrhdr ∧ decode 0b0110000100000000#16 = .ok .rdhdr ∧
    decode 0b0110001001000001#16 = .ok (.encsym 0x41#8) ∧ decode 0b0110001100000000#16 = .ok .encode ∧
    decode 0b0110010000000000#16 = .ok .decsym ∧ decode 0b0110010100000000#16 = .ok .decode := by decide
/-- T30.1, T30.2, T30.13 -/
theorem test_unused_opcodes : [0x0000#16, 0xFFFF#16, 0x3300#16, 0x4100#16, 0x5200#16, 0x6600#16, 0x1500#16, 0x2300#16,
    0x0400#16].all (fun w => decide (decode w = .error .unknownOpcode)) = true := by decide
/-- T30.4, T30.8, T30.12, T30.6 -/
theorem test_illegal_operands : decode 0x0101#16 = .error .operandNotZero ∧ decode 0x1201#16 = .error .operandNotZero ∧
    decode 0x6101#16 = .error .operandNotZero ∧ decode 0x1002#16 = .error .operandNotBit ∧
    decode 0x10FF#16 = .error .operandNotBit := by decide
/-- R78: `1 01000001` is LEAF('A'), `0` is INTERNAL -/
theorem test_decode_tokens : decodeTableWord 9 0b101000001 = some (.leaf 0x41#8) ∧ decodeTableWord 1 0 = some .internal ∧
    decodeToken [true, false, true] = none := by decide
theorem test_decode_table_word : decodeTableWord 16 0x6241 = some (.encsym 0x41#8) ∧ decodeTableWord 16 0x0105 = none := by
  decide

/-! ### State and STATUS: T10 -/

/-- T10.1, T10.2 -/
theorem test_reset_status : State.reset.status = 0x0010#16 ∧ (src abc).status = 0x0000#16 := by decide
/-- T10.6 -/
theorem test_reader_status : abcRead.status = 0x000A#16 := by decide +kernel

/-! ### The step: R70, R74, T30, T60 -/

/-- T30.2 -/
theorem test_step_illegal : (endOf (step (State.reset.withFetchWord 16 0xFFFF))).err = 1#8 ∧
    (endOf (step (State.reset.withFetchWord 16 0xFFFF))).errCmd = 0xFFFF#16 := by decide
/-- T60.2, T60.3 -/
theorem test_step_refused :
    step ({ State.reset with err := 8#8, errCmd := 0x3100#16 }.withFetchWord 16 0x1001) =
      .next { State.reset with err := 8#8, errCmd := 0x3100#16 } ∧
    step ({ State.reset with err := 8#8, errCmd := 0x3100#16 }.withFetchWord 16 0x0105) =
      .next { State.reset with err := 8#8, errCmd := 0x3100#16 } := ⟨rfl, rfl⟩
/-- T30.9 -/
theorem test_step_fcount : (endOf (step (State.reset.withFetchWord 16 0x21FF))).freqAt 0xFF#8 = 1#32 := by decide +kernel
/-- R244 -/
theorem test_step_bind : (endOf (step { abcRead with port := [.bindSource [7#8]] })).slen = 1 ∧
    (endOf (step { abcRead with port := [.bindSource [7#8]] })).spos = 8 := by decide +kernel

/-! ### Bit stream: T40 and the examples of R105 to R109 -/

/-- T40.1, third bit -/
theorem test_wbit : (after (.wbit true) { State.reset with wbuf := 0x80#8, wcnt := 2#3 }).wbuf = 0xA0#8 ∧
    (after (.wbit true) { State.reset with wbuf := 0x80#8, wcnt := 2#3 }).wcnt = 3#3 := by decide
/-- T40.6, eighth bit -/
theorem test_wbit_fills_byte : (after (.wbit true) { State.reset with wbuf := 0xFE#8, wcnt := 7#3 }).output = [0xFF#8] ∧
    (after (.wbit true) { State.reset with wbuf := 0xFE#8, wcnt := 7#3 }).wbuf = 0#8 := by decide
/-- T40.2 -/
theorem test_wbyte : (after (.wbyte 0xFF#8) { State.reset with wbuf := 0xA0#8, wcnt := 3#3 }).output = [0xBF#8] ∧
    (after (.wbyte 0xFF#8) { State.reset with wbuf := 0xA0#8, wcnt := 3#3 }).wbuf = 0xE0#8 ∧
    (after (.wbyte 0xFF#8) { State.reset with wbuf := 0xA0#8, wcnt := 3#3 }).wcnt = 3#3 := by decide
/-- T40.7 -/
theorem test_wbyte_aligned : (after (.wbyte 0xA5#8) State.reset).output = [0xA5#8] ∧
    (after (.wbyte 0xA5#8) State.reset).wcnt = 0#3 := by decide
/-- T40.3 -/
theorem test_flush : (after .flush { State.reset with wbuf := 0xE0#8, wcnt := 3#3 }).output = [0xE0#8] ∧
    (after .flush { State.reset with wbuf := 0xE0#8, wcnt := 3#3 }).wcnt = 0#3 := by decide
/-- T40.5 -/
theorem test_flush_empty : (after .flush State.reset).dpos = 0 := by decide
/-- T40.9, first bit -/
theorem test_rbit : (after .rbit (src [0xA5#8])).res = 1#8 ∧ (after .rbit (src [0xA5#8])).rcnt = 7#4 ∧
    (after .rbit (src [0xA5#8])).spos = 1 := by decide
/-- T40.10 -/
theorem test_rbit_eos : (after .rbit { src [0xA5#8] with spos := 1, rbuf := 0xA5#8, res := 1#8 }).err = 2#8 ∧
    (after .rbit { src [0xA5#8] with spos := 1, rbuf := 0xA5#8, res := 1#8 }).errCmd = 0x1300#16 ∧
    (after .rbit { src [0xA5#8] with spos := 1, rbuf := 0xA5#8, res := 1#8 }).res = 1#8 := by decide
/-- T40.11 -/
theorem test_rbyte : (after .rbyte { src [0xA5#8, 0x81#8] with spos := 1, rbuf := 0xA5#8, rcnt := 5#4 }).res = 0x2C#8 ∧
    (after .rbyte { src [0xA5#8, 0x81#8] with spos := 1, rbuf := 0xA5#8, rcnt := 5#4 }).rbuf = 0x81#8 ∧
    (after .rbyte { src [0xA5#8, 0x81#8] with spos := 1, rbuf := 0xA5#8, rcnt := 5#4 }).rcnt = 5#4 := by decide
/-- T40.14 -/
theorem test_rbyte_eos : (after .rbyte { src [0xFF#8] with spos := 1, rbuf := 0xFF#8, rcnt := 7#4, res := 1#8 }).err = 2#8 ∧
    (after .rbyte { src [0xFF#8] with spos := 1, rbuf := 0xFF#8, rcnt := 7#4, res := 1#8 }).rcnt = 0#4 ∧
    (after .rbyte { src [0xFF#8] with spos := 1, rbuf := 0xFF#8, rcnt := 7#4, res := 1#8 }).res = 1#8 := by decide

/-! ### Frequencies: T41 -/

/-- T41.5 -/
theorem test_fclr : (after .fclr (counted 2 [(0x41#8, 2)] State.reset)).freqAt 0x41#8 = 0#32 ∧
    (after .fclr (counted 2 [(0x41#8, 2)] State.reset)).len = 0#32 := by decide +kernel
/-- T41.4, second FCOUNT -/
theorem test_fcount : (after (.fcount 0x41#8) (counted 1 [(0x41#8, 1)] State.reset)).freqAt 0x41#8 = 2#32 ∧
    (after (.fcount 0x41#8) (counted 1 [(0x41#8, 1)] State.reset)).len = 2#32 := by decide +kernel
/-- T41.9 -/
theorem test_fcount_overflow : (after (.fcount 7#8) (counted 5 [(7#8, 2 ^ 32 - 1)] State.reset)).err = 4#8 ∧
    (after (.fcount 7#8) (counted 5 [(7#8, 2 ^ 32 - 1)] State.reset)).errCmd = 0x2107#16 ∧
    (after (.fcount 7#8) (counted 5 [(7#8, 2 ^ 32 - 1)] State.reset)).len = 5#32 := by decide +kernel
/-- T41.2 -/
theorem test_analyze : (after .analyze { src [0#8, 0xFF#8, 0#8, 0xFF#8, 0#8] with spos := 1 }).freqAt 0#8 = 3#32 ∧
    (after .analyze { src [0#8, 0xFF#8, 0#8, 0xFF#8, 0#8] with spos := 1 }).freqAt 0xFF#8 = 2#32 ∧
    (after .analyze { src [0#8, 0xFF#8, 0#8, 0xFF#8, 0#8] with spos := 1 }).len = 5#32 ∧
    (after .analyze { src [0#8, 0xFF#8, 0#8, 0xFF#8, 0#8] with spos := 1 }).spos = 0 := by decide +kernel
/-- T41.3 -/
theorem test_analyze_empty : (after .analyze State.reset).len = 0#32 ∧ (after .analyze State.reset).err = 0#8 := by
  decide +kernel

/-! ### The tree builder: S7, T42, P3 -/

/-- S7 -/
theorem test_seed : (after .seed abcCounts).node = abcLeaves ∧ (after .seed abcCounts).heap = [2, 0, 1] ∧
    (after .seed abcCounts).rootv = false := by decide +kernel
/-- P3 -/
theorem test_seed_heap : (after .seed (counted 11 [(0x61#8, 5), (0x62#8, 2), (0x72#8, 2), (0x63#8, 1), (0x64#8, 1)]
    State.reset)).heap = [2, 3, 1, 0, 4] := by decide +kernel
/-- S7, first MERGE -/
theorem test_merge : (after .merge abcSeeded).node = abcLeaves ++ [some (.internal 2 1 3#32 0x42#8)] ∧
    (after .merge abcSeeded).heap = [0, 3] ∧ (after .merge abcSeeded).rootv = false := by decide +kernel
/-- T42.10 (a) -/
theorem test_merge_overflow : (after .merge heavySeeded).err = 5#8 ∧ (after .merge heavySeeded).heap = [] ∧
    (after .merge heavySeeded).node = heavySeeded.node := by decide +kernel
/-- S7 -/
theorem test_build : (after .build abcCounts).node = abcTree.node ∧ (after .build abcCounts).heap = [4] ∧
    (after .build abcCounts).root = 4 ∧ (after .build abcCounts).rootv = true := by decide +kernel
/-- T42.7 -/
theorem test_build_ties : ((after .build (counted 5 [(0#8, 1), (1#8, 1), (2#8, 1), (3#8, 1), (4#8, 1)] State.reset)).node.drop 5) =
    [some (.internal 0 1 2#32 0#8), some (.internal 2 3 2#32 2#8), some (.internal 4 5 3#32 0#8),
      some (.internal 6 7 5#32 0#8)] := by decide +kernel

/-! ### The code table: T43 -/

/-- T43.3 -/
theorem test_codegen : (after .codegen abcTree).codeAt 0x41#8 = some [false] ∧
    (after .codegen abcTree).codeAt 0x42#8 = some [true, true] ∧ (after .codegen abcTree).codeAt 0x43#8 = some [true, false] ∧
    (after .codegen abcTree).codeAt 0x44#8 = none := by decide +kernel
/-- T43.4 -/
theorem test_codegen_repeated_leaf : (after .codegen { State.reset with rootv := true, node :=
    [some (.internal 1 2 0#32 0#8), some (.leaf 0x41#8 0#32 0#8), some (.leaf 0x41#8 0#32 0#8)] }).codeAt 0x41#8 =
    some [true] := by decide +kernel

/-! ### The tree wire format: T44 -/

/-- S7 -/
theorem test_serialize : (after .serialize abcTree).output = [0x50#8, 0x54#8, 0x3A#8] ∧
    (after .serialize abcTree).wbuf = 0x10#8 ∧ (after .serialize abcTree).wcnt = 5#3 := by decide +kernel
/-- T44.2 -/
theorem test_serialize_unaligned : (after .serialize { oneLeaf with wbuf := 0x80#8, wcnt := 1#3 }).output = [0xD0#8] ∧
    (after .serialize { oneLeaf with wbuf := 0x80#8, wcnt := 1#3 }).wbuf = 0x40#8 := by decide +kernel
/-- T44.5 -/
theorem test_deserialize : (after .deserialize (src [0x50#8, 0x54#8, 0x3A#8, 0x10#8])).node = abcRead.node ∧
    (after .deserialize (src [0x50#8, 0x54#8, 0x3A#8, 0x10#8])).root = 0 ∧
    (after .deserialize (src [0x50#8, 0x54#8, 0x3A#8, 0x10#8])).rcnt = 3#4 := by decide +kernel
/-- T44.11 -/
theorem test_deserialize_overflow : (after .deserialize (src (List.replicate 63 0#8 ++ [1#8]))).err = 3#8 ∧
    (after .deserialize (src (List.replicate 63 0#8 ++ [1#8]))).ncount = 511 ∧
    (after .deserialize (src (List.replicate 63 0#8 ++ [1#8]))).spos = 64 := by decide +kernel
/-- R78, T44.1: `1 01000001` -/
theorem test_leaf : (after (.leaf 0x41#8) State.reset).output = [0xA0#8] ∧ (after (.leaf 0x41#8) State.reset).wbuf = 0x80#8 ∧
    (after (.leaf 0x41#8) State.reset).wcnt = 1#3 := by decide
/-- R78: `0` after a pending `1` -/
theorem test_internal : (after .internal { State.reset with wbuf := 0x80#8, wcnt := 1#3 }).wbuf = 0x80#8 ∧
    (after .internal { State.reset with wbuf := 0x80#8, wcnt := 1#3 }).wcnt = 2#3 := by decide

/-! ### The pipeline: T20, T45 and the examples of R178 to R186 -/

/-- the example of R178 -/
theorem test_clear : (after .clear { src abc with wbuf := 0x80#8, wcnt := 1#3 }).wbuf = 0#8 ∧
    (after .clear { src abc with wbuf := 0x80#8, wcnt := 1#3 }).output = [] ∧
    (after .clear { src abc with wbuf := 0x80#8, wcnt := 1#3 }).status = 0#16 := by decide +kernel
/-- T20.1 -/
theorem test_wrhdr : (after .wrhdr { State.reset with len := 0x12345678#32 }).output = [0x78#8, 0x56#8, 0x34#8, 0x12#8] := by
  decide
/-- T45.1 -/
theorem test_wrhdr_unaligned :
    (after .wrhdr { State.reset with len := 2#32, wbuf := 0x80#8, wcnt := 1#3 }).output = [0x81#8, 0#8, 0#8, 0#8] ∧
    (after .wrhdr { State.reset with len := 2#32, wbuf := 0x80#8, wcnt := 1#3 }).wcnt = 1#3 := by decide
/-- T20.1 -/
theorem test_rdhdr : (after .rdhdr (src [0x78#8, 0x56#8, 0x34#8, 0x12#8])).len = 0x12345678#32 ∧
    (after .rdhdr (src [0x78#8, 0x56#8, 0x34#8, 0x12#8])).spos = 4 := by decide +kernel
/-- T45.2 -/
theorem test_rdhdr_eos : (after .rdhdr (src [6#8, 0#8, 0#8])).err = 2#8 ∧ (after .rdhdr (src [6#8, 0#8, 0#8])).len = 0#32 ∧
    (after .rdhdr (src [6#8, 0#8, 0#8])).spos = 3 := by decide +kernel
/-- T45.3 -/
theorem test_encsym : (after (.encsym 0x42#8) abcCodes).wbuf = 0xC0#8 ∧ (after (.encsym 0x42#8) abcCodes).wcnt = 2#3 := by
  decide +kernel
/-- T45.4 -/
theorem test_encsym_nocode : (after (.encsym 0x44#8) abcCodes).err = 6#8 ∧
    (after (.encsym 0x44#8) abcCodes).errCmd = 0x6244#16 := by decide +kernel
/-- the example of R182 -/
theorem test_encode : (after .encode { abcCodes with wbuf := 0x10#8, wcnt := 5#3 }).output = [0x10#8] ∧
    (after .encode { abcCodes with wbuf := 0x10#8, wcnt := 5#3 }).wbuf = 0xF8#8 ∧
    (after .encode { abcCodes with wbuf := 0x10#8, wcnt := 5#3 }).spos = 6 := by decide +kernel
/-- T45.6 -/
theorem test_encode_nocode : (after .encode (src [0x41#8, 0x42#8])).err = 6#8 ∧ (after .encode (src [0x41#8, 0x42#8])).spos = 1 ∧
    (after .encode (src [0x41#8, 0x42#8])).errCmd = 0x6300#16 := by decide +kernel
/-- the example of R183 -/
theorem test_decsym : (after .decsym abcRead).output = [0x41#8] ∧ (after .decsym abcRead).rcnt = 2#4 := by decide +kernel
/-- T45.9 -/
theorem test_decsym_notree : (after .decsym (src [0xFF#8])).err = 7#8 ∧ (after .decsym (src [0xFF#8])).spos = 0 := by
  decide +kernel
/-- the example of R184 -/
theorem test_decode : (after .decode abcRead).output = abc ∧ (after .decode abcRead).spos = 9 ∧
    (after .decode abcRead).rbuf = 0xF8#8 ∧ (after .decode abcRead).rcnt = 2#4 := by decide +kernel
/-- T45.10 -/
theorem test_decode_nothing : (after .decode (src [0xFF#8])).err = 0#8 ∧ (after .decode (src [0xFF#8])).spos = 0 ∧
    (after .decode (src [0xFF#8])).output = [] := by decide +kernel
/-- T45.13 -/
theorem test_compress : (after .compress (src abc)).output = abcFile ∧ (after .compress (src abc)).len = 6#32 ∧
    (after .compress (src abc)).rootv = false := by decide +kernel
/-- T45.14, T45.28 -/
theorem test_compress_empty : (after .compress { State.reset with err := 8#8, wbuf := 0xC0#8, wcnt := 2#3 }).output =
    [0#8, 0#8, 0#8, 0#8] := by decide +kernel
/-- T45.16 -/
theorem test_decompress : (after .decompress (src abcFile)).output = abc ∧ (after .decompress (src abcFile)).spos = 9 ∧
    (after .decompress (src abcFile)).rcnt = 2#4 := by decide +kernel
/-- T45.24 -/
theorem test_decompress_truncated : (after .decompress (src (abcFile.take 8))).err = 2#8 ∧
    (after .decompress (src (abcFile.take 8))).errCmd = 0x0300#16 ∧
    (after .decompress (src (abcFile.take 8))).output = [0x41#8, 0x41#8, 0x41#8] ∧
    (after .decompress (src (abcFile.take 8))).ncount = 0 := by decide +kernel

/-! ### Assembler syntax: R76, R77, and lines of the programs of part 3 -/

theorem test_parse_pseudo : parseLine "FCOUNTN 'a', 5     ; 0x2161 x 5".toList = .ok (some (.fcountn 0x61#8 5)) ∧
    (Line.fcountn 0x61#8 5).moves = List.replicate 5 (.command 0x2161#16) ∧
    parseLine "ENCSTR 63 61 62".toList = .ok (some (.encstr [0x63#8, 0x61#8, 0x62#8])) := ⟨rfl, rfl, rfl⟩
theorem test_parse_line : parseLine "WBYTE 0xA5".toList = .ok (some (.command (.wbyte 0xA5#8))) ∧
    parseLine ".src 41 42".toList = .ok (some (.src [0x41#8, 0x42#8])) ∧ parseLine "  ; no word".toList = .ok none ∧
    parseLine "WBIT 2".toList = .error () := ⟨rfl, rfl, rfl, rfl⟩

/-! ### Hypotheses are met

A Bool test for the invariants, which settles `State.Inv` of a concrete state by evaluation; then one theorem for each
statement that has hypotheses. -/

/-- The invariants of R34 as tests. -/
def invCheck (s : State) : Bool :=
  decide (s.err.toNat ≤ 8) && decide (s.dst.map Prod.fst = List.range s.dpos) && decide (s.src.map Prod.fst = List.range s.slen) &&
  (List.range 8).all (fun j => decide (8 ≤ j + s.wcnt.toNat) || !s.wbuf.getLsbD j) && decide (s.rcnt.toNat ≤ 7) &&
  (s.rootv || decide (s.root = 0)) && decide (s.node.length ≤ Config.nodeCap) && decide (s.heap.length ≤ Config.heapCap) &&
  (s.heap.isEmpty || decide (s.node.length + s.heap.length ≤ 2 * Config.heapCap)) &&
  (!s.rootv || (reach s.node s.node.length s.root).any fun is => decide is.Nodup) &&
  (forest s.node s.heap).any (fun is => decide is.Nodup) &&
  s.code.toList.all fun c => c.all fun p => decide (p.length ≤ Config.maxCodeLen)

theorem inv_of_check {s : State} (h : invCheck s = true) : s.Inv := by
  simp only [invCheck, Bool.and_eq_true, decide_eq_true_eq, List.all_eq_true, Bool.or_eq_true, List.mem_range,
    Bool.not_eq_true', List.isEmpty_iff, Option.any_eq_true, Option.all_eq_true] at h
  obtain ⟨⟨⟨⟨⟨⟨⟨⟨⟨⟨⟨h1, h2⟩, h3⟩, h4⟩, h5⟩, h6⟩, h7⟩, h8⟩, h9⟩, h10⟩, h11⟩, h12⟩ := h
  refine ⟨h1, h2, h3, fun j hj => (h4 j (by omega)).resolve_left (by omega), h5, fun hv => ?_, h7, h8,
    fun hne => h9.resolve_left hne, fun hv => ?_, h11, fun v p hp => h12 (some p) ?_ p rfl⟩
  · rcases h6 with h | h
    · rw [hv] at h; cases h
    · exact h
  · rcases h10 with h | h
    · rw [hv] at h; cases h
    · exact h
  · rw [← hp]; exact Vector.mem_toList_iff.2 (Vector.getElem_mem _)

/-- The heap order as a test. -/
theorem heapOrdered_of_check {s : State} (h : (List.range s.heap.length).all (fun k =>
    decide (k = 0) || decide (lessAt s.node s.heap k ((k - 1) / 2) = some false)) = true) : s.HeapOrdered := by
  intro k hk hl
  have := List.all_eq_true.1 h k (List.mem_range.2 hl)
  simp only [Bool.or_eq_true, decide_eq_true_eq] at this
  exact this.resolve_left (by omega)

theorem next_of {i : Instr} {s : State} (h : completes i s = true) : ∃ t, exec i s = .next t := by
  unfold completes at h
  cases e : exec i s with
  | next t => exact ⟨t, rfl⟩
  | fault x => rw [e] at h; cases h
  | refused x => rw [e] at h; cases h

/-- A state that meets the invariants with no error pending, in which `i` completes with error code `e`. -/
def endsWith (i : Instr) (s : State) (e : Byte) : Bool :=
  invCheck s && decide (s.err = 0#8) && completes i s && decide ((after i s).err = e)

/-- `HeapDistinct` as a test. -/
theorem heapDistinct_of_check {s : State} (h : (decide (s.heap.flatMap (leavesBelow s.node)).Nodup && s.heap.all fun i =>
    (nodeAt s.node i).any fun n => decide (n.minsym ∈ leavesBelow s.node i)) = true) : s.HeapDistinct := by
  simp only [Bool.and_eq_true, decide_eq_true_eq, List.all_eq_true, Option.any_eq_true] at h
  exact h

theorem reset_inv : State.reset.Inv := inv_of_check (by decide +kernel)

/-- A tree of `n + 1` leaves 0xFF, each fork's right child a leaf. -/
def spine : Nat → CodeTree
  | 0 => .leaf 0xFF#8
  | n + 1 => .fork (spine n) (.leaf 0xFF#8)

theorem spine_size (n : Nat) : (spine n).size = 2 * n + 1 := by
  induction n with
  | zero => rfl
  | succ n ih => simp only [spine, CodeTree.size, ih]; omega

theorem spine_bits (n : Nat) : (spine n).bits = List.replicate n false ++ List.replicate (9 * n + 9) true := by
  induction n with
  | zero => rfl
  | succ n ih =>
    have e : (CodeTree.leaf 0xFF#8).bits = List.replicate 9 true := rfl
    show internalBits ++ (spine n).bits ++ (CodeTree.leaf 0xFF#8).bits = _
    rw [ih, e, List.replicate_succ (n := n), show 9 * (n + 1) + 9 = (9 * n + 9) + 9 by omega,
      List.replicate_add (9 * n + 9) 9]
    simp only [internalBits, List.cons_append, List.nil_append, List.append_assoc]

/-- The 2569 bits of a tree of 513 nodes as 322 bytes. -/
def bigSource : State := src (List.replicate 32 0#8 ++ List.replicate 290 0xFF#8)

theorem witness_DecodeEncodeAgree : Instr.wellFormed (.wbyte 0xFF#8) = true ∧ decode 0x11FF#16 = .ok (.wbyte 0xFF#8) := by
  decide

theorem witness_TreeBitsDelimitThemselves : abcShape.bits ++ [true] = abcShape.bits ++ [true] := rfl

theorem witness_StepRunsDecodedInstruction : decode 0x1001#16 = .ok (.wbit true) ∧ State.reset.err = 0#8 ∧
    ({ State.reset with port := [.command 0x1001#16] } : State).port = .command 0x1001#16 :: [] ∧
    decode 0x0100#16 = .ok .clear ∧ Instr.startsInvocation .clear = true := by decide

/-- With an error pending, the step on a presented word completes. -/
def stepsPending (w : Word) : Bool :=
  match step { State.reset with err := 8#8, port := [.command w] } with
  | .next _ => true
  | .fault _ => false
  | .refused _ => false

theorem witness_PendingErrorRefuses :
    [0x1001#16, 0x0105#16, 0x0100#16, 0x0200#16, 0x0300#16].all stepsPending = true := by decide +kernel

theorem witness_IllegalWordRaises : [0x0000#16, 0x0101#16, 0x1002#16, 0x1500#16, 0xFFFF#16].all (fun w => decide (
    ¬(w.extractLsb' 8 8 ∈ [0x01#8, 0x02#8, 0x03#8, 0x12#8, 0x13#8, 0x14#8, 0x20#8, 0x22#8, 0x30#8, 0x31#8, 0x32#8, 0x40#8,
      0x50#8, 0x51#8, 0x60#8, 0x61#8, 0x63#8, 0x64#8, 0x65#8] ∧ w.extractLsb' 0 8 = 0#8) ∧
    ¬(w.extractLsb' 8 8 = 0x10#8 ∧ w.extractLsb' 1 7 = 0#7) ∧ ¬w.extractLsb' 8 8 ∈ [0x11#8, 0x21#8, 0x62#8])) = true := by
  decide +kernel

theorem exists_long (n : Nat) : ∃ bytes : List Byte, n ≤ bytes.length :=
  ⟨List.replicate n 0#8, List.length_replicate.ge⟩

theorem witness_BindSourceOnly : ([7#8] : List Byte).length < 2 ^ 64 ∧ ([7#8] : List Byte)[State.reset.spos]? = some 7#8 ∧
    ([] : List Byte).length ≤ State.reset.spos ∧ (∃ bytes : List Byte, 2 ^ 64 ≤ bytes.length) ∧ State.reset.port = [] :=
  ⟨by decide, rfl, Nat.le_refl _, exists_long (2 ^ 64), rfl⟩

theorem witness_ResetValues : ({ abcTree with port := [.reset] } : State).port = .reset :: [] ∧ State.reset.slen = 0 ∧
    abcTree.slen ≠ 0 := ⟨rfl, rfl, by decide +kernel⟩

theorem witness_StatusBits : ({ src abc with port := [.reset] } : State).port = .reset :: [] ∧ (src abc).slen ≠ 0 ∧
    ({ State.reset with port := [.reset] } : State).port = .reset :: [] ∧ State.reset.slen = 0 := ⟨rfl, by decide, rfl, rfl⟩

theorem witness_ResetEqualsClear : (src abc).src = abcTree.src ∧ (src abc).slen = abcTree.slen ∧ (src abc).port = abcTree.port ∧
    (src abc).node ≠ abcTree.node := by decide +kernel

theorem witness_ErrorRecordsCommand : State.reset.err = 0#8 ∧ completes .rbit State.reset = true ∧
    (after .rbit State.reset).err ≠ 0#8 ∧ completes (.wbit true) State.reset = true ∧
    (after (.wbit true) State.reset).err = 0#8 := by decide

/-- S7's tree with the source ended. -/
def abcCut : State := { bindSource (abcFile.take 8) abcRead with rcnt := 0#4 }

theorem witness_ErrorTable : (endsWith .rbit State.reset 2#8 && endsWith .rbyte State.reset 2#8 && endsWith .rdhdr State.reset 2#8 &&
    endsWith (.fcount 7#8) (counted 5 [(7#8, 2 ^ 32 - 1)] State.reset) 4#8 && endsWith .merge State.reset 8#8 &&
    endsWith .merge heavySeeded 5#8 && endsWith .build heavy 5#8 && endsWith .deserialize State.reset 2#8 &&
    endsWith .deserialize (src (List.replicate 64 0#8)) 3#8 && endsWith (.encsym 0x44#8) abcCodes 6#8 &&
    endsWith .encode (src abc) 6#8 && endsWith .decsym State.reset 7#8 && endsWith .decsym abcCut 2#8 && endsWith .decode { State.reset with len := 2#32 } 7#8 &&
    endsWith .decompress State.reset 2#8 && endsWith .decompress (src (1#8 :: List.replicate 67 0#8)) 3#8 &&
    endsWith .build abcCounts 0#8 && endsWith .compress (src abc) 0#8 && endsWith (.leaf 0#8) State.reset 0#8) = true ∧
    decode 0x1002#16 = .error .operandNotBit ∧
    ∃ t, ({ State.reset with port := [.command 0x1002#16] } : State).port = .command 0x1002#16 :: [] ∧
      step { State.reset with port := [.command 0x1002#16] } = .next t :=
  ⟨by decide +kernel, by decide, _, rfl, rfl⟩

theorem witness_ReleaseOnEveryExit : completes .compress (src abc) = true ∧ completes .decompress State.reset = true := by
  decide +kernel

theorem witness_WbitWritesOneBit : State.reset.wcnt ≠ 7#3 ∧ ({ State.reset with wcnt := 6#3 } : State).wcnt ≠ 7#3 ∧
    ({ State.reset with wcnt := 7#3 } : State).wcnt = 7#3 := by decide

theorem witness_FlushPadsThePartialByte : State.reset.wcnt = 0#3 ∧ ({ State.reset with wcnt := 1#3 } : State).wcnt ≠ 0#3 ∧
    ({ State.reset with wcnt := 7#3 } : State).wcnt ≠ 0#3 := by decide

theorem witness_RbitReadsOneBit : ({ State.reset with rcnt := 1#4 } : State).rcnt ≠ 0#4 ∧ (src [0xA5#8]).rcnt = 0#4 ∧
    (src [0xA5#8]).spos < (src [0xA5#8]).slen ∧ (src [0xA5#8]).src.read (src [0xA5#8]).spos = some 0xA5#8 ∧
    State.reset.rcnt = 0#4 ∧ State.reset.slen ≤ State.reset.spos := by decide

theorem witness_RbyteReadsEightBits : ({ src [0xA5#8] with rcnt := 7#4 } : State).rcnt.toNat ≤ 7 ∧
    (src [0xA5#8]).spos < (src [0xA5#8]).slen ∧ (src [0xA5#8]).src.read (src [0xA5#8]).spos = some 0xA5#8 ∧
    State.reset.rcnt.toNat ≤ 7 ∧ State.reset.slen ≤ State.reset.spos := by decide

theorem witness_ReaderInvertsWriter : ∃ t, execAll ([true, false, true].map .wbit ++ [.flush]) State.reset = .next t ∧
    State.reset.Inv ∧ State.reset.wcnt = 0#3 ∧ State.reset.dpos = 0 ∧ (src [0xA0#8]).src.bytes = t.output ∧
    (src [0xA0#8]).src.covers (src [0xA0#8]).slen ∧ (src [0xA0#8]).rcnt = 0#4 ∧ (src [0xA0#8]).spos = 0 :=
  ⟨_, rfl, reset_inv, rfl, rfl, by decide, Laws.ofBytes_covers _, rfl, rfl⟩

theorem witness_FcountCountsOneSymbol : ({ State.reset with len := 0xFFFFFFFF#32 } : State).len = 0xFFFFFFFF#32 ∧
    (counted 5 [(7#8, 2 ^ 32 - 1)] State.reset).freqAt 7#8 = 0xFFFFFFFF#32 ∧ State.reset.len ≠ 0xFFFFFFFF#32 ∧
    State.reset.freqAt 7#8 ≠ 0xFFFFFFFF#32 := by decide +kernel

theorem witness_AnalyzeCountsTheSource : (src abc).src.covers (src abc).slen ∧ (src abc).slen < 2 ^ 32 ∧
    longSource.src.covers longSource.slen ∧ 2 ^ 32 ≤ longSource.slen :=
  ⟨Laws.ofBytes_covers _, by decide, Laws.ofBytes_covers _, by
    show 2 ^ 32 ≤ (List.replicate (2 ^ 32) 0#8).length
    rw [List.length_replicate]⟩

theorem witness_TableIsOfTheMultiset : (src abc).src.covers (src abc).slen ∧ (src abc.reverse).src.covers (src abc.reverse).slen ∧
    (src abc).slen < 2 ^ 32 ∧ (src abc).src.bytes.Perm (src abc.reverse).src.bytes ∧
    (∃ t, exec .analyze (src abc) = .next t) ∧ ∃ t, exec .analyze (src abc.reverse) = .next t :=
  ⟨Laws.ofBytes_covers _, Laws.ofBytes_covers _, by decide, by decide, next_of (by decide +kernel), next_of (by decide +kernel)⟩

/-- One node is the most that is too few; two is the least that is enough. -/
theorem witness_MergeJoinsTheTwoLeast : ({ State.reset with heap := [0] } : State).hsize < 2 ∧ (abcSeeded.Inv ∧ abcSeeded.HeapOrdered ∧ 2 ≤ abcSeeded.hsize) ∧
    heavySeeded.Inv ∧ heavySeeded.HeapOrdered ∧ heavySeeded.hsize = 2 :=
  ⟨by decide, ⟨inv_of_check (by decide +kernel), heapOrdered_of_check (by decide +kernel), by decide +kernel⟩,
    inv_of_check (by decide +kernel), heapOrdered_of_check (by decide +kernel), by decide +kernel⟩

/-- The total 2^32 - 1 is the greatest that fits (T42.10 (c)). -/
theorem witness_BuildMakesTheTree : State.reset.totalCount < 2 ^ 32 ∧ State.reset.keys = [] ∧
    (counted 0 [(1#8, 2 ^ 32 - 2), (2#8, 1)] State.reset).totalCount = 2 ^ 32 - 1 ∧
    (counted 0 [(1#8, 2 ^ 32 - 2), (2#8, 1)] State.reset).keys ≠ [] := by decide +kernel

/-- The first merge overflows (T42.10), and the second: the node of the first, of weight 2, stays, allocated last and taken
out of the heap with the third leaf. -/
theorem witness_BuildOverflows : 2 ^ 32 ≤ heavy.totalCount ∧ 2 ^ 32 ≤ heavyLate.totalCount ∧
    (after .build heavyLate).err = 5#8 ∧ (after .build heavyLate).heap = [] ∧ (after .build heavyLate).ncount = 4 ∧
    nodeAt (after .build heavyLate).node 3 = some (.internal 0 1 2#32 1#8) := by decide +kernel

theorem witness_BuildIsSeedThenMerges : abcCounts.totalCount < 2 ^ 32 ∧ abcCounts.keys ≠ [] := by decide +kernel

theorem witness_BuiltTreeIsOptimal : abcCounts.totalCount < 2 ^ 32 ∧ abcCounts.keys ≠ [] ∧
    PrefixFree abcCounts.keys (fun v => [v == 0x41#8, v == 0x42#8]) :=
  ⟨by decide +kernel, by decide +kernel, fun v hv w hw h => by
    have e : abcCounts.keys = [0x41#8, 0x42#8, 0x43#8] := by decide +kernel
    rw [e] at hv hw
    simp only [List.mem_cons, List.not_mem_nil, or_false] at hv hw
    rcases hv with rfl | rfl | rfl <;> rcases hw with rfl | rfl | rfl <;> first | rfl | (exfalso; revert h; decide)⟩

theorem witness_BuildIsAFunctionOfFreq : abcCounts.freq = abcTree.freq ∧ abcCounts.rootv ≠ abcTree.rootv ∧
    completes .build abcCounts = true ∧ completes .build abcTree = true :=
  ⟨rfl, by decide +kernel, by decide +kernel, by decide +kernel⟩

theorem witness_LessIsStrictOnTheHeap : abcSeeded.HeapDistinct ∧ 2 ∈ abcSeeded.heap ∧ 0 ∈ abcSeeded.heap ∧ 2 ≠ 0 :=
  ⟨heapDistinct_of_check (by decide +kernel), by decide +kernel, by decide +kernel, by decide⟩

theorem witness_TreeShapeBounds : abcTree.Inv ∧ abcTree.tree = some abcShape ∧ (0x43#8, [true, false]) ∈ abcShape.paths :=
  ⟨inv_of_check (by decide +kernel), by decide +kernel, by decide⟩

theorem witness_CodegenRecordsThePaths : State.reset.rootv = false ∧ abcTree.tree = some abcShape := by decide +kernel

theorem witness_CodesArePrefixFree : abcTree.Inv ∧ abcTree.tree = some abcShape ∧ abcShape.symbols.Nodup ∧
    exec .codegen abcTree = .next (after .codegen abcTree) ∧ (after .codegen abcTree).codeAt 0x41#8 = some [false] ∧
    ([false] : List Bool) <+: [false] :=
  ⟨inv_of_check (by decide +kernel), by decide +kernel, by decide, rfl, by decide +kernel, by decide⟩

theorem witness_SerializeWritesTheTree : State.reset.rootv = false ∧ abcTree.Inv ∧ abcTree.tree = some abcShape :=
  ⟨rfl, inv_of_check (by decide +kernel), by decide +kernel⟩

theorem witness_DeserializeReadsTheTree : (src [0xA0#8, 0x80#8]).Inv ∧
    (src [0xA0#8, 0x80#8]).bitsLeft = (CodeTree.leaf 0x41#8).bits ++ List.replicate 7 false ∧ (CodeTree.leaf 0x41#8).size ≤ 511 :=
  ⟨inv_of_check (by decide +kernel), by decide +kernel, by decide⟩

/-- Where DESERIALIZE raises, the stream holds no tree of at most 511 nodes. -/
theorem noTree_of_error {s : State} (hi : s.Inv) (h0 : s.err = 0#8) (he : (after .deserialize s).err ≠ 0#8) (T : CodeTree)
    (rest : List Bool) (hb : s.bitsLeft = T.bits ++ rest) : 511 < T.size := by
  by_contra hs
  obtain ⟨u, eu, -, -, ou⟩ := Laws.deserialize_tree (Laws.readerOk_of_inv hi) hb (by show T.size ≤ 511; omega)
  refine he ?_
  rw [after, Laws.exec_deserialize, Laws.finish_ok eu]
  show u.err = 0#8
  rw [ou]
  exact h0

/-- `s` meets the hypotheses of `DeserializeRaises`. -/
def NoTree (s : State) : Prop :=
  s.Inv ∧ ∀ (T : CodeTree) (rest : List Bool), s.bitsLeft = T.bits ++ rest → 511 < T.size

theorem noTree_of_check {s : State} (h : (invCheck s && decide (s.err = 0#8 ∧ (after .deserialize s).err ≠ 0#8)) = true) :
    NoTree s := by
  obtain ⟨h1, h2⟩ := Bool.and_eq_true_iff.1 h
  obtain ⟨h3, h4⟩ := of_decide_eq_true h2
  exact ⟨inv_of_check h1, noTree_of_error (inv_of_check h1) h3 h4⟩

/-- 511 zero bits, seven of them waiting in RBUF: the least that fill the arena. -/
def zeros511 : State := { src (List.replicate 63 0#8) with rcnt := 7#4 }

/-- The tree of `bigSource` has 513 nodes; the empty stream, 511 zero bits and T44.10 end in E_EOS, T44.8 does not. -/
theorem witness_DeserializeRaises : NoTree State.reset ∧ NoTree zeros511 ∧ NoTree (src (List.replicate 63 0#8 ++ [2#8])) ∧
    NoTree (src (List.replicate 64 0#8)) ∧ NoTree bigSource ∧
    ∃ (T : CodeTree) (rest : List Bool), bigSource.bitsLeft = T.bits ++ rest := by
  have hi : bigSource.Inv := inv_of_check (by decide +kernel)
  have hb : bigSource.bitsLeft = (spine 256).bits ++ List.replicate 7 true := by rw [spine_bits]; decide +kernel
  refine ⟨noTree_of_check (by decide +kernel), noTree_of_check (by decide +kernel), noTree_of_check (by decide +kernel),
    noTree_of_check (by decide +kernel), ⟨hi, fun T rest h => ?_⟩, spine 256, _, hb⟩
  by_contra hs
  obtain ⟨u, eu, -⟩ := Laws.deserialize_tree (Laws.readerOk_of_inv hi) h (by show T.size ≤ 511; omega)
  obtain ⟨v, ev⟩ := Laws.deserialize_overflow (Laws.readerOk_of_inv hi) hb (by rw [spine_size]; decide)
  rw [eu] at ev; cases ev

/-- R204 item 3: the marker is read before the capacity test, so 511 zero bits end in E_EOS with 511 markers read; T44.10
too, inside the symbol of the 511th node. -/
theorem test_deserialize_full : (after .deserialize zeros511).err = 2#8 ∧ (after .deserialize zeros511).ncount = 511 ∧
    (after .deserialize (src (List.replicate 63 0#8 ++ [2#8]))).err = 2#8 ∧
    (after .deserialize (src (List.replicate 63 0#8 ++ [2#8]))).ncount = 511 ∧
    (after .deserialize (src (List.replicate 64 0#8))).err = 3#8 := by decide +kernel

theorem witness_SerializedTreeReadsBack : abcTree.Inv ∧ abcTree.tree = some abcShape ∧
    exec .serialize abcTree = .next (after .serialize abcTree) ∧ (src [0x50#8, 0x54#8, 0x3A#8, 0x10#8]).Inv ∧
    abcTree.bitsWritten ++ (src [0x50#8, 0x54#8, 0x3A#8, 0x10#8]).bitsLeft =
      (after .serialize abcTree).bitsWritten ++ [false, false, false] :=
  ⟨inv_of_check (by decide +kernel), by decide +kernel, rfl, inv_of_check (by decide +kernel), by decide +kernel⟩

/-- 31 bits is the most that is too few. -/
theorem witness_RdhdrReadsLen : (src [0x78#8, 0x56#8, 0x34#8, 0x12#8]).Inv ∧
    (src [0x78#8, 0x56#8, 0x34#8, 0x12#8]).bitsLeft =
      byteBits 0x78#8 ++ byteBits 0x56#8 ++ byteBits 0x34#8 ++ byteBits 0x12#8 ++ [] ∧
    ({ src [0x78#8, 0x56#8, 0x34#8, 0x12#8] with spos := 1, rbuf := 0x78#8, rcnt := 7#4 } : State).bitsLeft.length = 31 := by
  refine ⟨inv_of_check (by decide +kernel), by decide +kernel, by decide +kernel⟩

theorem witness_EncsymWritesTheCode : abcCodes.codeAt 0x44#8 = none ∧ abcCodes.Inv ∧ abcCodes.codeAt 0x42#8 = some [true, true] :=
  ⟨by decide +kernel, inv_of_check (by decide +kernel), by decide +kernel⟩

theorem witness_EncodeWritesTheCodes : abcCodes.Inv ∧
    (∀ v ∈ abcCodes.src.bytes.drop abcCodes.spos, (abcCodes.codeAt v).isSome = true) ∧
    (bindSource [0x41#8, 0x44#8, 0x42#8] abcCodes).Inv ∧
    (bindSource [0x41#8, 0x44#8, 0x42#8] abcCodes).src.bytes.drop 0 = [0x41#8] ++ 0x44#8 :: [0x42#8] ∧
    (bindSource [0x41#8, 0x44#8, 0x42#8] abcCodes).codeAt 0x44#8 = none ∧
    ∀ x ∈ [0x41#8], ((bindSource [0x41#8, 0x44#8, 0x42#8] abcCodes).codeAt x).isSome = true :=
  ⟨inv_of_check (by decide +kernel), List.all_eq_true.1 (by decide +kernel), inv_of_check (by decide +kernel), by decide +kernel,
    by decide +kernel, List.forall_mem_singleton.2 (by decide +kernel)⟩

/-- A path of one bit, the path of no bits of a single leaf, and a source that ends inside every path. -/
theorem witness_DecsymEmitsASymbol : State.reset.rootv = false ∧ (abcRead.Inv ∧ abcRead.tree = some abcShape ∧
      (0x41#8, [false]) ∈ abcShape.paths ∧ abcRead.bitsLeft = [false] ++ abcRead.bitsLeft.drop 1) ∧
    (oneLeaf.Inv ∧ oneLeaf.tree = some (.leaf 0x41#8) ∧ (0x41#8, []) ∈ (CodeTree.leaf 0x41#8).paths) ∧
    ({ abcRead with spos := 9, rcnt := 0#4 } : State).Inv ∧ ({ abcRead with spos := 9, rcnt := 0#4 } : State).tree = some abcShape ∧
    ∀ c ∈ abcShape.paths, ¬c.2 <+: ({ abcRead with spos := 9, rcnt := 0#4 } : State).bitsLeft :=
  ⟨rfl, ⟨inv_of_check (by decide +kernel), by decide +kernel, by decide, by decide +kernel⟩,
    ⟨inv_of_check (by decide +kernel), by decide +kernel, by decide⟩,
    inv_of_check (by decide +kernel), by decide +kernel, by decide +kernel⟩

/-- The six codewords of S7, with the symbols they stand for. -/
def abcPayload : List (Byte × List Bool) := [(0x41#8, [false]), (0x41#8, [false]), (0x41#8, [false]),
  (0x42#8, [true, true]), (0x42#8, [true, true]), (0x43#8, [true, false])]

theorem witness_DecodeEmitsLenSymbols : State.reset.len = 0#32 ∧
    (({ State.reset with len := 2#32 } : State).len ≠ 0#32 ∧ State.reset.rootv = false) ∧
    (abcRead.Inv ∧ abcRead.tree = some abcShape ∧ (∀ c ∈ abcPayload, c ∈ abcShape.paths) ∧
      abcRead.bitsLeft = abcPayload.flatMap Prod.snd ++ [false, false] ∧ abcPayload.length = abcRead.len.toNat) ∧
    (bindSource (abcFile.take 8) abcRead).Inv ∧ (bindSource (abcFile.take 8) abcRead).tree = some abcShape ∧
    (bindSource (abcFile.take 8) abcRead).bitsLeft = (abcPayload.take 3).flatMap Prod.snd ++ [] ∧
    (abcPayload.take 3).length < (bindSource (abcFile.take 8) abcRead).len.toNat ∧ ∀ c ∈ abcShape.paths, ¬c.2 <+: [] :=
  ⟨rfl, by decide, ⟨inv_of_check (by decide +kernel), by decide +kernel, by decide, by decide +kernel, by decide +kernel⟩,
    inv_of_check (by decide +kernel), by decide +kernel, by decide +kernel, by decide +kernel, by decide⟩

theorem witness_CompressMakesTheFile : (src abc).src.covers (src abc).slen ∧ (src abc).slen < 2 ^ 32 ∧ (src abc).slen ≠ 0 ∧
    State.reset.src.covers State.reset.slen ∧ State.reset.slen = 0 :=
  ⟨Laws.ofBytes_covers _, by decide, by decide, Laws.covers_nil, rfl⟩

theorem witness_CompressOverflows : longSource.src.covers longSource.slen ∧ 2 ^ 32 ≤ longSource.slen :=
  witness_AnalyzeCountsTheSource.2.2

theorem witness_DecompressRestoresTheBytes : (src abcFile).src.covers (src abcFile).slen ∧ 6#32 ≠ 0#32 ∧
    (src abcFile).src.bytes.flatMap byteBits =
      headerBits 6#32 ++ abcShape.bits ++ abcPayload.flatMap Prod.snd ++ [false, false] ∧ abcShape.size ≤ 511 ∧
    (∀ c ∈ abcPayload, c ∈ abcShape.paths) ∧ abcPayload.length = (6#32).toNat ∧
    (src [0#8, 0#8, 0#8, 0#8, 0xFF#8]).src.bytes.flatMap byteBits = headerBits 0#32 ++ List.replicate 8 true :=
  ⟨Laws.ofBytes_covers _, by decide, by decide +kernel, by decide, by decide, by decide, by decide +kernel⟩

/-- A header of three bytes; a header with no tree behind it; the file of S7 without its last byte. -/
theorem witness_DecompressRaises : (src [6#8, 0#8, 0#8]).slen < 4 ∧
    ((src [6#8, 0#8, 0#8, 0#8]).src.bytes.flatMap byteBits = headerBits 6#32 ++ [] ∧
      ∀ (T : CodeTree) (more : List Bool), [] = T.bits ++ more → 511 < T.size) ∧
    ((src (6#8 :: List.replicate 67 0#8)).src.bytes.flatMap byteBits = headerBits 6#32 ++ List.replicate 512 false ∧
      ∀ (T : CodeTree) (more : List Bool), List.replicate 512 false = T.bits ++ more → 511 < T.size) ∧
    (src (abcFile.take 8)).src.bytes.flatMap byteBits =
      headerBits 6#32 ++ abcShape.bits ++ (abcPayload.take 3).flatMap Prod.snd ++ [] ∧
    (abcPayload.take 3).length < (6#32).toNat ∧ (∀ c ∈ abcShape.paths, ¬c.2 <+: []) ∧
    (src (abcFile.take 8)).src.covers (src (abcFile.take 8)).slen :=
  ⟨by decide, ⟨by decide +kernel, fun T more h => witness_DeserializeRaises.1.2 T more h⟩,
    ⟨by decide +kernel, fun T more h => witness_DeserializeRaises.2.2.2.1.2 T more (Eq.trans (by decide +kernel) h)⟩,
    by decide +kernel, by decide, by decide,
    Laws.ofBytes_covers _⟩

theorem witness_CompositesAreTheirSteps :
    (∃ t, execAll [.clear, .analyze, .build, .codegen, .wrhdr, .serialize, .encode, .flush] (src abc) = .next t ∧ t.err = 0#8) ∧
    ∃ t, execAll [.clear, .rdhdr, .deserialize, .decode] (src abcFile) = .next t ∧ t.err = 0#8 ∧ t.len ≠ 0#32 := by
  have h1 : (match execAll [.clear, .analyze, .build, .codegen, .wrhdr, .serialize, .encode, .flush] (src abc) with
      | .next t => decide (t.err = 0#8)
      | _ => false) = true := by decide +kernel
  have h2 : (match execAll [.clear, .rdhdr, .deserialize, .decode] (src abcFile) with
      | .next t => decide (t.err = 0#8 ∧ t.len ≠ 0#32)
      | _ => false) = true := by decide +kernel
  refine ⟨?_, ?_⟩
  · split at h1
    · rename_i t e; exact ⟨t, e, of_decide_eq_true h1⟩
    · cases h1
  · split at h2
    · rename_i t e; exact ⟨t, e, of_decide_eq_true h2⟩
    · cases h2

theorem witness_RoundTrip : ([] : List Byte).length < 2 ^ 32 ∧ abc.length < 2 ^ 32 := by decide

theorem witness_RegisterWriters : completes (.wbit true) State.reset = true ∧
    Instr.wbit true ∉ [Instr.rbit, .rbyte, .clear, .compress, .decompress] ∧
    Instr.wbit true ∉ [Instr.fclr, .analyze, .rdhdr, .clear, .compress, .decompress] ∧ ∀ v, Instr.wbit true ≠ .fcount v :=
  ⟨by decide, by decide, by decide, fun v h => by cases h⟩

theorem witness_TableWriters : completes .flush State.reset = true ∧
    Instr.flush ∉ [Instr.fclr, .analyze, .clear, .compress, .decompress] ∧ (∀ v, Instr.flush ≠ .fcount v) ∧
    Instr.flush ∉ [Instr.seed, .merge, .build, .deserialize, .clear, .compress, .decompress] ∧
    Instr.flush ∉ [Instr.codegen, .clear, .compress, .decompress] :=
  ⟨by decide, by decide, fun v h => (by cases h), by decide, by decide⟩

theorem witness_StreamWriters : completes .fclr State.reset = true ∧ Instr.startsInvocation .fclr = false ∧
    Instr.fclr ∉ [Instr.flush, .serialize, .wrhdr, .encode, .internal] ∧
    Instr.fclr ∉ [Instr.rbit, .rbyte, .rdhdr, .deserialize, .decsym, .decode] ∧
    (∀ v, Instr.fclr ≠ .wbyte v ∧ Instr.fclr ≠ .encsym v ∧ Instr.fclr ≠ .leaf v) ∧ ∀ b, Instr.fclr ≠ .wbit b :=
  ⟨by decide, rfl, by decide, by decide, fun v => by simp, fun b => by simp⟩

theorem witness_InvariantKept : State.reset.Inv ∧ ∃ t, step (State.reset.withFetchWord 16 0x1001) = .next t :=
  ⟨reset_inv, _, rfl⟩

/-- A MERGE is about to run on an ordered heap of three leaves. -/
theorem witness_HeapOrderKept : (abcSeeded.withFetchWord 16 0x3100).Inv ∧ (abcSeeded.withFetchWord 16 0x3100).HeapOrdered ∧
    (abcSeeded.withFetchWord 16 0x3100).HeapDistinct ∧ ∃ t, step (abcSeeded.withFetchWord 16 0x3100) = .next t :=
  ⟨inv_of_check (by decide +kernel), heapOrdered_of_check (by decide +kernel), heapDistinct_of_check (by decide +kernel),
    next_of (i := .merge) (s := abcSeeded) (by decide +kernel)⟩

theorem witness_EveryStepCompletes : ({ State.reset with port := [.bindSource [7#8]] } : State).Inv ∧
    ({ State.reset with port := [.bindSource [7#8]] } : State).hostKeepsDuty :=
  ⟨inv_of_check (by decide +kernel), fun bytes rest h => by
    cases h; show 1 < 2 ^ 64; decide⟩

end Sys2Proof.Tests
end

section
/-! SUPPORT. What one instruction and one step can do, said once: the part of the state an instruction may write
(`MayWrite`), the fields no micro-operation writes (`Quiet`), and how the two end in a step. -/

namespace Sys2Proof.Laws

open Sys2Proof.Machine

/-! ### The fields no micro-operation writes -/

/-- The error registers and what is the host's are as they were (R12, R31, R212). -/
structure Quiet (s t : State) : Prop where
  err : t.err = s.err
  errCmd : t.errCmd = s.errCmd
  src : t.src = s.src
  slen : t.slen = s.slen
  port : t.port = s.port

theorem Quiet.refl (s : State) : Quiet s s := ⟨rfl, rfl, rfl, rfl, rfl⟩

theorem Quiet.trans {s t u : State} (h1 : Quiet s t) (h2 : Quiet t u) : Quiet s u :=
  ⟨h2.err.trans h1.err, h2.errCmd.trans h1.errCmd, h2.src.trans h1.src, h2.slen.trans h1.slen, h2.port.trans h1.port⟩

theorem WriterOnly.quiet {s t : State} (h : WriterOnly s t) : Quiet s t := by
  unfold WriterOnly at h; rw [h]; exact ⟨rfl, rfl, rfl, rfl, rfl⟩

theorem ReaderOnly.quiet {s t : State} (h : ReaderOnly s t) : Quiet s t := by
  unfold ReaderOnly at h; rw [h]; exact ⟨rfl, rfl, rfl, rfl, rfl⟩

theorem CountOnly.quiet {s t : State} (h : CountOnly s t) : Quiet s t := by
  unfold CountOnly at h; rw [h]; exact ⟨rfl, rfl, rfl, rfl, rfl⟩

theorem TreeOnly.quiet {s t : State} (h : TreeOnly s t) : Quiet s t := by
  unfold TreeOnly at h; rw [h]; exact ⟨rfl, rfl, rfl, rfl, rfl⟩

theorem CodeOnly.quiet {s t : State} (h : CodeOnly s t) : Quiet s t := by
  unfold CodeOnly at h; rw [h]; exact ⟨rfl, rfl, rfl, rfl, rfl⟩

theorem DesTreeOnly.quiet {s t : State} (h : DesTreeOnly s t) : Quiet s t := by
  unfold DesTreeOnly at h; rw [h]; exact ⟨rfl, rfl, rfl, rfl, rfl⟩

theorem HeaderOnly.quiet {s t : State} (h : HeaderOnly s t) : Quiet s t := by
  unfold HeaderOnly at h; rw [h]; exact ⟨rfl, rfl, rfl, rfl, rfl⟩

theorem EncOnly.quiet {s t : State} (h : EncOnly s t) : Quiet s t := by
  rw [h.1]; exact ⟨rfl, rfl, rfl, rfl, rfl⟩

theorem DecOnly.quiet {s t : State} (h : DecOnly s t) : Quiet s t := by
  rw [h.1]; exact ⟨rfl, rfl, rfl, rfl, rfl⟩

theorem release_quiet (s : State) : Quiet s (release s) := ⟨rfl, rfl, rfl, rfl, rfl⟩

theorem wrHdr_writes (s : State) : Writes s (wrHdr s) := by rw [wrHdr_eq]; exact writeBits_writes _ s

theorem compressBody_quiet (s : State) : Steps Quiet s (compressBody s) := by
  refine Steps.bind (R := Quiet) Quiet.trans ((analyze_only s).mono fun _ h => h.quiet) fun _ a _ => ?_
  refine Steps.bind (R := Quiet) Quiet.trans ((build_only a).mono fun _ h => h.quiet) fun _ b _ => ?_
  refine Steps.bind (R := Quiet) Quiet.trans ((codeGen_only b).mono fun _ h => h.quiet) fun _ c _ => ?_
  refine Steps.after (R := Quiet) Quiet.trans (wrHdr_writes c).1.quiet ?_
  refine Steps.bind (R := Quiet) Quiet.trans ((serialize_writes _).mono fun _ h => h.1.quiet) fun _ d _ => ?_
  exact Steps.bind (R := Quiet) Quiet.trans ((encodeAll_only _ d).mono fun _ h => h.quiet) fun _ e _ =>
    .of (flush_only e).quiet

theorem decompressBody_quiet (s : State) : Steps Quiet s (decompressBody s) := by
  refine Steps.bind (R := Quiet) Quiet.trans ((rdHdr_only s).mono fun _ h => h.quiet) fun _ a _ => ?_
  split
  · exact .of (.refl a)
  · exact Steps.bind (R := Quiet) Quiet.trans ((deserialize_only a).mono fun _ h => h.quiet) fun _ b _ =>
      (decodeAll_only _ b).mono fun _ h => h.quiet

/-! ### The part of the state an instruction may write -/

/-- `t` is `s` but for RES, the reader and the source cursor. -/
def ResultOnly (s t : State) : Prop := t = { s with res := t.res, rbuf := t.rbuf, rcnt := t.rcnt, spos := t.spos }

theorem ResultOnly.trans {s t u : State} (h1 : ResultOnly s t) (h2 : ResultOnly t u) : ResultOnly s u := by
  unfold ResultOnly at *
  rw [h2, h1]

theorem ReaderOnly.resultOnly {s t : State} (h : ReaderOnly s t) : ResultOnly s t := by
  unfold ReaderOnly at h
  unfold ResultOnly
  rw [h]

theorem ResultOnly.quiet {s t : State} (h : ResultOnly s t) : Quiet s t := by
  unfold ResultOnly at h; rw [h]; exact ⟨rfl, rfl, rfl, rfl, rfl⟩

/-- `t` is `s` but for FREQ and LEN. -/
def FreqOnly (s t : State) : Prop := t = { s with freq := t.freq, len := t.len }

theorem FreqOnly.quiet {s t : State} (h : FreqOnly s t) : Quiet s t := by
  unfold FreqOnly at h; rw [h]; exact ⟨rfl, rfl, rfl, rfl, rfl⟩

theorem count_freqOnly (v : Byte) (s : State) : Steps FreqOnly s (count v s) := by
  unfold count
  split
  · exact .of (rfl : FreqOnly s s)
  · exact .of rfl

/-- A reading micro-operation whose result goes to RES (R108, R109). -/
theorem toRes_steps {α : Type} {s : State} {r : Res α} (f : α → Byte) (ho : Steps ReaderOnly s r) (hr : Steps Reads s r) :
    Steps (fun s t => ResultOnly s t ∧ Reads s t) s (r.bind fun a s => .ok () { s with res := f a }) := by
  cases r with
  | ok a t =>
    exact .of ⟨(ho.ok rfl).resultOnly.trans rfl, (hr.ok rfl).trans (reads_of_eq rfl rfl rfl rfl rfl)⟩
  | err x t => exact .of ⟨(ho.err rfl).resultOnly, hr.err rfl⟩
  | stuck x => exact .of trivial

theorem Steps.and {α : Type} {R Q : State → State → Prop} {s : State} {r : Res α} (h1 : Steps R s r) (h2 : Steps Q s r) :
    Steps (fun s t => R s t ∧ Q s t) s r :=
  ⟨fun e => ⟨h1.ok e, h2.ok e⟩, fun e => ⟨h1.err e, h2.err e⟩⟩

/-- What the micro-operation of each instruction may write, by unit: from `s` on, it ends in `t`. An instruction that starts
an invocation may write anything but what is `Quiet`. -/
def MayWrite (i : Instr) (s t : State) : Prop :=
  match i with
  | .clear | .compress | .decompress => Quiet (init s) t
  | .wbit _ | .wbyte _ | .flush | .serialize | .wrhdr | .encsym _ | .leaf _ | .internal => Writes s t
  | .rbit | .rbyte => ResultOnly s t ∧ Reads s t
  | .fclr | .fcount _ => FreqOnly s t
  | .analyze => CountOnly s t
  | .seed | .merge | .build => TreeOnly s t
  | .codegen => CodeOnly s t
  | .deserialize => DesTreeOnly s t ∧ Reads s t
  | .rdhdr => HeaderOnly s t ∧ Reads s t
  | .encode => EncOnly s t
  | .decsym | .decode => DecOnly s t ∧ Reads s t

/-- How an instruction ends: in a state its unit may reach, or, which no token does, by a raise there (R78, R201). -/
def Ended (i : Instr) (s t : State) : Prop :=
  MayWrite i s t ∨ ∃ x u, i.wellFormed = true ∧ MayWrite i s u ∧ t = raise (encode i) x u

theorem ended_of_next {i : Instr} {s t u : State} (hu : MayWrite i s u)
    (h : (.next u : Host.Outcome State Fault Refusal) = .next t) : Ended i s t := by
  cases h
  exact .inl hu

theorem ended_of_finish {α : Type} {i : Instr} {s t : State} {r : Res α} (hw : i.wellFormed = true)
    (hr : Steps (MayWrite i) s r) (h : finish (encode i) r = .next t) : Ended i s t := by
  rcases hr.finish h with ht | ⟨x, u, -, hu, ht⟩
  · exact .inl ht
  · exact .inr ⟨x, u, hw, hu, ht⟩

theorem ended_of_finishReleasing {α : Type} {i : Instr} {s t : State} {r : Res α} (hi : i = .compress ∨ i = .decompress)
    (hr : Steps Quiet (init s) r) (h : finishReleasing (encode i) r = .next t) : Ended i s t := by
  have mayWrite : ∀ {u}, Quiet (init s) u → MayWrite i s u := fun hu => by rcases hi with rfl | rfl <;> exact hu
  rcases finishReleasing_next h with ⟨a, u, e, rfl⟩ | ⟨x, u, e, rfl⟩
  · exact .inl (mayWrite ((hr.ok e).trans (release_quiet u)))
  · exact .inr ⟨x, u, by rcases hi with rfl | rfl <;> rfl, mayWrite (hr.err e), rfl⟩

/-- Everything an instruction that completes can do. -/
theorem exec_ended {i : Instr} {s t : State} (h : exec i s = .next t) : Ended i s t := by
  cases i with
  | clear => rw [exec_clear] at h; exact ended_of_next (Quiet.refl _) h
  | compress => rw [exec_compress] at h; exact ended_of_finishReleasing (.inl rfl) (compressBody_quiet _) h
  | decompress => rw [exec_decompress] at h; exact ended_of_finishReleasing (.inr rfl) (decompressBody_quiet _) h
  | wbit b => rw [exec_wbit] at h; exact ended_of_next (writeBits_writes [b] s) h
  | wbyte v => rw [exec_wbyte] at h; exact ended_of_next (writeBits_writes (byteBits v) s) h
  | flush => rw [exec_flush] at h; exact ended_of_next ⟨flush_only s, flush_grows s⟩ h
  | rbit =>
    rw [exec_rbit] at h; exact ended_of_finish rfl (toRes_steps bitByte (readBit_only s) (readBit_reads s)) h
  | rbyte => rw [exec_rbyte] at h; exact ended_of_finish rfl (toRes_steps id (readByte_only s) (readByte_reads s)) h
  | fclr => rw [exec_fclr] at h; exact ended_of_next (rfl : FreqOnly s (freqClear s)) h
  | fcount v => rw [exec_fcount] at h; exact ended_of_finish rfl (count_freqOnly v s) h
  | analyze => rw [exec_analyze] at h; exact ended_of_finish rfl (analyze_only s) h
  | seed => rw [exec_seed] at h; exact ended_of_finish rfl (seed_only s) h
  | merge => rw [exec_merge] at h; exact ended_of_finish rfl (merge_only s) h
  | build => rw [exec_build] at h; exact ended_of_finish rfl (build_only s) h
  | codegen => rw [exec_codegen] at h; exact ended_of_finish rfl (codeGen_only s) h
  | serialize => rw [exec_serialize] at h; exact ended_of_finish rfl (serialize_writes s) h
  | deserialize =>
    rw [exec_deserialize] at h; exact ended_of_finish rfl ((deserialize_only s).and (deserialize_reads s)) h
  | wrhdr => rw [exec_wrhdr] at h; exact ended_of_next (wrHdr_writes s) h
  | rdhdr => rw [exec_rdhdr] at h; exact ended_of_finish rfl ((rdHdr_only s).and (rdHdr_reads s)) h
  | encsym v => rw [exec_encsym] at h; exact ended_of_finish rfl (encSym_writes v s) h
  | encode => rw [exec_encode] at h; exact ended_of_finish rfl (encodeAll_only _ s) h
  | decsym => rw [exec_decsym] at h; exact ended_of_finish rfl ((decSym_only s).and (decSym_reads s)) h
  | decode => rw [exec_decode] at h; exact ended_of_finish rfl ((decodeAll_only _ s).and (decodeAll_reads _ s)) h
  | leaf v => rw [exec_leaf] at h; exact ended_of_next (writeBits_writes (leafBits v) s) h
  | internal => rw [exec_internal] at h; exact ended_of_next (writeBits_writes [false] s) h

/-- No instruction writes the error registers before it raises, nor what is the host's (R201, R31). -/
theorem MayWrite.quiet {i : Instr} {s t : State} (h : MayWrite i s t) :
    Quiet (if i.startsInvocation then init s else s) t := by
  cases i with
  | clear | compress | decompress => exact h
  | wbit | wbyte | flush | serialize | wrhdr | encsym | leaf | internal => exact WriterOnly.quiet h.1
  | rbit | rbyte => exact ResultOnly.quiet h.1
  | fclr | fcount => exact FreqOnly.quiet h
  | analyze => exact CountOnly.quiet h
  | seed | merge | build => exact TreeOnly.quiet h
  | codegen => exact CodeOnly.quiet h
  | deserialize => exact DesTreeOnly.quiet h.1
  | rdhdr => exact HeaderOnly.quiet h.1
  | encode => exact EncOnly.quiet h
  | decsym | decode => exact DecOnly.quiet h.1

@[simp] theorem raise_err (w : Word) (e : ErrorKind) (s : State) : (raise w e s).err = e.code := by
  unfold raise; dsimp only; split <;> rfl

@[simp] theorem raise_errCmd (w : Word) (e : ErrorKind) (s : State) : (raise w e s).errCmd = w := by
  unfold raise; dsimp only; split <;> rfl

@[simp] theorem raise_src (w : Word) (e : ErrorKind) (s : State) : (raise w e s).src = s.src := by
  unfold raise; dsimp only; split <;> rfl

@[simp] theorem raise_slen (w : Word) (e : ErrorKind) (s : State) : (raise w e s).slen = s.slen := by
  unfold raise; dsimp only; split <;> rfl

@[simp] theorem raise_port (w : Word) (e : ErrorKind) (s : State) : (raise w e s).port = s.port := by
  unfold raise; dsimp only; split <;> rfl

/-- An instruction that starts no invocation writes what its unit may write, and the error registers. -/
theorem Ended.mayWrite {i : Instr} {s t : State} (h : Ended i s t) (hi : i.startsInvocation = false) :
    ∃ u, MayWrite i s u ∧ t = { u with err := t.err, errCmd := t.errCmd } := by
  rcases h with h | ⟨x, u, hw, hu, rfl⟩
  · exact ⟨t, h, rfl⟩
  · refine ⟨u, hu, ?_⟩
    rw [raise_step hw (by rintro rfl; cases hi) (by rintro rfl; cases hi)]

/-- No instruction writes what is the host's (R31, R212). -/
theorem Ended.host {i : Instr} {s t : State} (h : Ended i s t) : t.src = s.src ∧ t.slen = s.slen ∧ t.port = s.port := by
  have host : ∀ {u}, MayWrite i s u → u.src = s.src ∧ u.slen = s.slen ∧ u.port = s.port := by
    intro u hu
    have q := hu.quiet
    split at q <;> exact ⟨q.src, q.slen, q.port⟩
  rcases h with h | ⟨x, u, -, hu, rfl⟩
  · exact host h
  · simpa using host hu

/-! ### Who writes what -/

theorem startsInvocation_iff {i : Instr} : i.startsInvocation = true ↔ i = .clear ∨ i = .compress ∨ i = .decompress := by
  cases i <;> simp [Instr.startsInvocation]

/-- The writers of each part of the state: `u` differs from `s` in a part only if `i` is one of them. -/
structure Frame (i : Instr) (s u : State) : Prop where
  res : i ∉ [.rbit, .rbyte, .clear, .compress, .decompress] → u.res = s.res
  len : i ∉ [.fclr, .analyze, .rdhdr, .clear, .compress, .decompress] → (∀ v, i ≠ .fcount v) → u.len = s.len
  freq : i ∉ [.fclr, .analyze, .clear, .compress, .decompress] → (∀ v, i ≠ .fcount v) → u.freq = s.freq
  tree : i ∉ [.seed, .merge, .build, .deserialize, .clear, .compress, .decompress] →
    u.node = s.node ∧ u.root = s.root ∧ u.rootv = s.rootv ∧ u.heap = s.heap
  code : i ∉ [.codegen, .clear, .compress, .decompress] → u.code = s.code
  writer : i ∉ [.flush, .serialize, .wrhdr, .encode, .internal] → (∀ v, i ≠ .wbyte v ∧ i ≠ .encsym v ∧ i ≠ .leaf v) →
    (∀ b, i ≠ .wbit b) → u.wbuf = s.wbuf ∧ u.wcnt = s.wcnt
  reader : i ∉ [.rbit, .rbyte, .rdhdr, .deserialize, .decsym, .decode] → u.rbuf = s.rbuf ∧ u.rcnt = s.rcnt
  cursor : i ∉ [.rbit, .rbyte, .rdhdr, .deserialize, .decsym, .decode, .analyze, .encode] → u.spos = s.spos
  sink : i ∈ [.rbit, .rbyte, .fclr, .analyze, .seed, .merge, .build, .codegen, .deserialize, .rdhdr] ∨ (∃ v, i = .fcount v) →
    u.dst = s.dst ∧ u.dpos = s.dpos

theorem MayWrite.frame {i : Instr} {s u : State} (hu : MayWrite i s u) (hi : i.startsInvocation = false) : Frame i s u := by
  cases i with
  | clear | compress | decompress => cases hi
  | wbit | wbyte | flush | serialize | wrhdr | encsym | leaf | internal | rbit | rbyte | deserialize | rdhdr =>
    rw [hu.1]; constructor <;> simp
  | fclr | fcount | analyze | seed | merge | build | codegen => rw [hu]; constructor <;> simp
  | encode => obtain ⟨o, -⟩ := hu; rw [o]; constructor <;> simp
  | decsym | decode => obtain ⟨⟨o, -⟩, -⟩ := hu; rw [o]; constructor <;> simp

theorem Ended.frame {i : Instr} {s t : State} (h : Ended i s t) (hi : i.startsInvocation = false) : Frame i s t := by
  obtain ⟨u, hu, ht⟩ := h.mayWrite hi
  obtain ⟨res, len, freq, tree, code, writer, reader, cursor, sink⟩ := hu.frame hi
  rw [ht]
  exact ⟨res, len, freq, tree, code, writer, reader, cursor, sink⟩

/-- The sink only grows until a new invocation (R32). -/
theorem MayWrite.sinkGrows {i : Instr} {s u : State} (hu : MayWrite i s u) (hi : i.startsInvocation = false) :
    SinkGrows s u := by
  cases i with
  | clear | compress | decompress => cases hi
  | wbit | wbyte | flush | serialize | wrhdr | encsym | leaf | internal | encode => exact hu.2
  | decsym | decode => exact hu.1.2
  | rbit | rbyte | deserialize | rdhdr => rw [hu.1]; exact sinkGrows_of_eq rfl rfl
  | fclr | fcount | analyze | seed | merge | build | codegen => rw [hu]; exact sinkGrows_of_eq rfl rfl

/-- SPOS moves only where the bit reader fetches, but for ANALYZE and ENCODE (R30, R243). -/
theorem MayWrite.fetched {i : Instr} {s u : State} (hu : MayWrite i s u) (hi : i.startsInvocation = false)
    (ha : i ≠ .analyze) (he : i ≠ .encode) : Fetched s u := by
  cases i with
  | clear | compress | decompress => cases hi
  | analyze => exact absurd rfl ha
  | encode => exact absurd rfl he
  | rbit | rbyte | deserialize | rdhdr | decsym | decode => exact hu.2.buffer
  | wbit | wbyte | flush | serialize | wrhdr | encsym | leaf | internal => rw [hu.1]; exact ⟨rfl, .inl ⟨rfl, rfl⟩⟩
  | fclr | fcount | seed | merge | build | codegen => rw [hu]; exact ⟨rfl, .inl ⟨rfl, rfl⟩⟩

/-! ### One step -/

/-- What a step that completes leaves, one case for each thing the host's next move can come to (R70, R202, R212): no effect
(no move pending, or a word refused), an illegal word recorded, a command executed, a new source, reset. -/
theorem step_cases {s t : State} (h : step s = .next t) :
    ∃ q, t = { s with port := q } ∨
      (∃ w x, decode w = .error x ∧ s.err = 0#8 ∧ t = { s with port := q, err := 1#8, errCmd := w }) ∨
      (∃ w i, decode w = .ok i ∧ accepts i s = true ∧ exec i { s with port := q } = .next t) ∨
      (∃ bytes, t = bindSource bytes { s with port := q }) ∨
      t = init { s with port := q } := by
  match hp : s.port with
  | [] => rw [step_idle hp] at h; cases h; exact ⟨s.port, .inl rfl⟩
  | .reset :: rest => rw [step_reset hp] at h; cases h; exact ⟨rest, .inr (.inr (.inr (.inr rfl)))⟩
  | .bindSource bytes :: rest =>
    rw [step_bindSource hp] at h
    split at h
    · cases h; exact ⟨rest, .inr (.inr (.inr (.inl ⟨bytes, rfl⟩)))⟩
    · cases h
  | .command w :: rest =>
    rw [step_command hp] at h
    refine ⟨rest, ?_⟩
    match hd : decode w with
    | .error x =>
      rw [present_illegal hd, raise_illegal hd] at h
      split at h
      · rename_i he; cases h; exact .inr (.inl ⟨w, x, hd, he, rfl⟩)
      · cases h; exact .inl rfl
    | .ok i =>
      rw [present_legal hd] at h
      split at h
      · rename_i ha; exact .inr (.inr (.inl ⟨w, i, hd, ha, h⟩))
      · cases h; exact .inl rfl

end Sys2Proof.Laws
end

section
/-! SUPPORT. What every instruction keeps of the invariants of R34, the heap order and the distinct leaves of the heap
(R25, R140) included, in whatever way it completes. -/

namespace Sys2Proof.Laws

open Sys2Proof.Machine

theorem inv_next {u t : State} (hu : u.Inv) (h : (.next u : Host.Outcome State Fault Refusal) = .next t) : t.Inv := by
  cases h
  exact hu

/-- Every instruction keeps the invariants, in whatever way it completes. -/
theorem exec_inv {i : Instr} {s t : State} (h : s.Inv) (e : exec i s = .next t) : t.Inv := by
  have h0 : (init s).Inv := inv_init h.source
  cases i with
  | clear => rw [exec_clear] at e; exact inv_next h0 e
  | compress => rw [exec_compress] at e; exact (keeps_compress h0).finR e
  | decompress => rw [exec_decompress] at e; exact (keeps_decompress h0).finR e
  | wbit b => rw [exec_wbit] at e; exact inv_next (inv_writeBits h [b]) e
  | wbyte v => rw [exec_wbyte] at e; exact inv_next (inv_writeBits h (byteBits v)) e
  | flush => rw [exec_flush] at e; exact inv_next (inv_flush h) e
  | rbit =>
    rw [exec_rbit] at e; exact ((keeps_readBit h).bind fun _ _ _ ht => .of_ok (inv_res ht _)).fin e
  | rbyte =>
    rw [exec_rbyte] at e; exact ((keeps_readByte h).bind fun _ _ _ ht => .of_ok (inv_res ht _)).fin e
  | fclr => rw [exec_fclr] at e; exact inv_next (inv_count h (rfl : CountOnly s (freqClear s))) e
  | fcount v => rw [exec_fcount] at e; exact (keeps_count v h).fin e
  | analyze => rw [exec_analyze] at e; exact (keeps_analyze h).fin e
  | seed => rw [exec_seed] at e; exact (keeps_seed h).fin e
  | merge => rw [exec_merge] at e; exact (keeps_merge h).fin e
  | build => rw [exec_build] at e; exact (keeps_build h).fin e
  | codegen => rw [exec_codegen] at e; exact (keeps_codeGen h).fin e
  | serialize => rw [exec_serialize] at e; exact (keeps_serialize h).fin e
  | deserialize => rw [exec_deserialize] at e; exact (keeps_deserialize h).fin e
  | wrhdr => rw [exec_wrhdr, wrHdr_eq] at e; exact inv_next (inv_writeBits h _) e
  | rdhdr => rw [exec_rdhdr] at e; exact (keeps_rdHdr h).fin e
  | encsym v => rw [exec_encsym] at e; exact (keeps_encSym v h).fin e
  | encode => rw [exec_encode] at e; exact (keeps_encode h).fin e
  | decsym => rw [exec_decsym] at e; exact (keeps_decSym h).fin e
  | decode => rw [exec_decode] at e; exact (keeps_decode _ h).fin e
  | leaf v => rw [exec_leaf] at e; exact inv_next (inv_writeBits h (leafBits v)) e
  | internal => rw [exec_internal] at e; exact inv_next (inv_writeBits h [false]) e

/-- A new source is held from address 0 on (R31, R244). -/
theorem inv_bindSource {s : State} (h : s.Inv) (bytes : List Byte) : (bindSource bytes s).Inv := by
  obtain ⟨he, hw, hr, hb, hc⟩ := inv_iff.1 h
  exact inv_iff.2 ⟨he, writerOk_eq hw, ⟨ofBytes_covers bytes, hr.count⟩, buildOk_eq hb, codeOk_eq hc⟩

/-! ### The heap's order and its leaves -/

/-- `State.HeapDistinct` of an arena and a heap: the leaves below the heap are distinct, and the minsym of each entry is the
symbol of one of its own (R140). -/
structure Distinct (ns : List (Option Node)) (h : List Nat) : Prop where
  leaves : (heapSymbols ns h).Nodup
  minsym : ∀ i ∈ h, ∃ n, nodeAt ns i = some n ∧ n.minsym ∈ leavesBelow ns i

theorem heapDistinct_iff {s : State} : s.HeapDistinct ↔ Distinct s.node s.heap :=
  ⟨fun ⟨h1, h2⟩ => ⟨h1, h2⟩, fun ⟨h1, h2⟩ => ⟨h1, h2⟩⟩

theorem Distinct.perm {ns : List (Option Node)} {h h' : List Nat} (d : Distinct ns h) (p : h'.Perm h) : Distinct ns h' :=
  ⟨(heapSymbols_perm p).nodup_iff.2 d.leaves, fun i hi => d.minsym i (p.mem_iff.1 hi)⟩

theorem Distinct.tail {ns : List (Option Node)} {i : Nat} {h : List Nat} (d : Distinct ns (i :: h)) : Distinct ns h :=
  ⟨(List.nodup_append.1 d.leaves).2.1, fun j hj => d.minsym j (List.mem_cons_of_mem _ hj)⟩

/-- What lies below a heap entry stays when the arena grows. -/
theorem leavesBelow_entry {ns : List (Option Node)} {h : List Nat} (f : ForestOk ns h) {i : Nat} (hi : i ∈ h)
    (xs : List (Option Node)) : leavesBelow (ns ++ xs) i = leavesBelow ns i := by
  induction h with
  | nil => cases hi
  | cons j h ih =>
    rcases List.mem_cons.1 hi with rfl | hi
    · obtain ⟨is, hr, -⟩ := f.head
      exact leavesBelow_append hr xs
    · exact ih f.tail hi

/-- The merged node's leaves are those of its two children, and its minsym is one of theirs (R135). -/
theorem Distinct.newInternal {ns : List (Option Node)} {a b : Nat} {rest : List Nat} {x y : Node}
    (f : ForestOk ns (a :: b :: rest)) (ha : nodeAt ns a = some x) (hb : nodeAt ns b = some y)
    (d : Distinct ns (a :: b :: rest)) : Distinct (ns ++ [some (mergedNode a b x y)]) (ns.length :: rest) := by
  obtain ⟨ia, ra, -⟩ := f.head
  obtain ⟨ib, rb, -⟩ := f.tail.head
  obtain ⟨is, hrest, -⟩ := f.tail.tail
  have hnew : leavesBelow (ns ++ [some (mergedNode a b x y)]) ns.length = leavesBelow ns a ++ leavesBelow ns b :=
    leavesBelow_newInternal ra rb _ _
  have hmin : (mergedNode a b x y).minsym = x.minsym ∨ (mergedNode a b x y).minsym = y.minsym := by
    show ite _ _ _ = _ ∨ ite _ _ _ = _
    split <;> simp
  obtain ⟨x', hx, hxm⟩ := d.minsym a (by simp)
  obtain ⟨y', hy, hym⟩ := d.minsym b (by simp)
  cases ha.symm.trans hx
  cases hb.symm.trans hy
  refine ⟨?_, fun i hi => ?_⟩
  · have := d.leaves
    simp only [heapSymbols, List.flatMap_cons] at this ⊢
    rw [hnew, List.append_assoc]
    have hs := heapSymbols_append hrest [some (mergedNode a b x y)]
    simp only [heapSymbols] at hs
    rwa [hs]
  · rcases List.mem_cons.1 hi with rfl | hi
    · refine ⟨_, nodeAt_length ns _ [], ?_⟩
      rw [hnew, List.mem_append]
      rcases hmin with h | h <;> rw [h]
      · exact .inl hxm
      · exact .inr hym
    · obtain ⟨n, hn, hm⟩ := d.tail.tail.minsym i hi
      exact ⟨n, nodeAt_append hn _, by rw [leavesBelow_entry f.tail.tail hi]; exact hm⟩

/-- What `Seed` leaves is distinct: a leaf for each key, the keys being distinct (R134). -/
theorem seed_distinct {s t : State} (h : seed s = .ok () t) : Distinct t.node t.heap := by
  obtain ⟨t', e, -, hn, hp, -, -, hs, -, -⟩ := seed_spec s
  rw [e] at h
  cases h
  refine ⟨hs.nodup_iff.2 (by rw [keysOf_fst]; exact keys_nodup s), fun i hi => ?_⟩
  have hlt : i < (keysOf s.freqTable).length := List.mem_range.1 (hp.mem_iff.1 hi)
  have hleaf : nodeAt t.node i = some (.leaf (keysOf s.freqTable)[i].1 (keysOf s.freqTable)[i].2 (keysOf s.freqTable)[i].1) := by
    simp [hn, nodeAt, hlt, seedLeaf]
  obtain ⟨n, hlen⟩ : ∃ n, t.node.length = n + 1 := ⟨t.node.length - 1, by rw [hn, List.length_map]; omega⟩
  refine ⟨_, hleaf, ?_⟩
  simp [leavesBelow, hlen, treeOf, hleaf, CodeTree.symbols, Node.minsym]

/-- From a heap of disjoint trees: it stays one, its order stays, and its leaves stay distinct. -/
def HeapStays (s t : State) : Prop :=
  ForestOk s.node s.heap →
    ForestOk t.node t.heap ∧ (Ordered s.node s.heap → Ordered t.node t.heap) ∧
      (Distinct s.node s.heap → Distinct t.node t.heap)

theorem HeapStays.refl (s : State) : HeapStays s s := fun f => ⟨f, id, id⟩

theorem HeapStays.trans {s t u : State} (h1 : HeapStays s t) (h2 : HeapStays t u) : HeapStays s u := by
  intro f
  obtain ⟨ft, ot, dt⟩ := h1 f
  obtain ⟨fu, ou, du⟩ := h2 ft
  exact ⟨fu, ou ∘ ot, du ∘ dt⟩

theorem heapStays_of_eq {s t : State} (hn : t.node = s.node) (hh : t.heap = s.heap) : HeapStays s t := by
  unfold HeapStays
  rw [hn, hh]
  exact HeapStays.refl s

theorem heapStays_of_nil {s t : State} (h : t.heap = []) : HeapStays s t := by
  intro _
  rw [h]
  exact ⟨forest_nil _, fun _ => ordered_nil _, fun _ => ⟨List.nodup_nil, fun i hi => by cases hi⟩⟩

theorem merge_heapStays (s : State) : Steps HeapStays s (merge s) := by
  by_cases f : ForestOk s.node s.heap
  · by_cases h2 : 2 ≤ s.heap.length
    · obtain ⟨a, b, rest, x, y, mp, ⟨-, u, e, o, p, ord⟩ | ⟨-, u, e, -, hn, p, -, fu, ord⟩⟩ := merge_cases f h2
      · rw [e]
        refine .of fun _ => ⟨?_, ord, fun d => ?_⟩ <;> rw [o.node]
        · exact (f.perm mp.perm).tail.tail.perm p
        · exact (d.perm mp.perm).tail.tail.perm p
      · rw [e]
        refine .of fun _ => ⟨fu, ord, fun d => ?_⟩
        rw [hn]
        exact ((d.perm mp.perm).newInternal (f.perm mp.perm) mp.nodeA mp.nodeB).perm p
    · rw [merge_underflow (by omega)]
      exact .of (HeapStays.refl s)
  · exact ⟨fun _ f' => absurd f' f, fun _ f' => absurd f' f⟩

theorem mergeAll_heapStays (n : Nat) (s : State) : Steps HeapStays s (mergeAll n s) := by
  induction n generalizing s with
  | zero => exact .of (HeapStays.refl s)
  | succ n ih =>
    unfold mergeAll
    split
    · exact Steps.bind (R := HeapStays) HeapStays.trans (merge_heapStays s) fun _ t _ => ih t
    · exact .of (HeapStays.refl s)

theorem seed_heapStays (s : State) : Steps HeapStays s (seed s) := by
  obtain ⟨t, e, -, -, -, -, ft, -, -, ord⟩ := seed_spec s
  rw [e]
  exact .of fun _ => ⟨ft, fun _ => ord, fun _ => seed_distinct e⟩

theorem build_heapStays (s : State) : Steps HeapStays s (build s) :=
  Steps.bind (R := HeapStays) HeapStays.trans (seed_heapStays s) fun _ t _ => mergeAll_heapStays _ t

/-- `Deserialize` discards the heap, and nothing in it adds an entry (R163). -/
theorem deserialize_heapStays (s : State) : Steps HeapStays s (deserialize s) := by
  have hd : Steps (fun _ t => t.heap = []) s (desNode Config.desFuel (discardTree s)) :=
    ⟨fun e => by rw [(desNode_only _ _).ok e]; rfl, fun e => by rw [(desNode_only _ _).err e]; rfl⟩
  unfold deserialize
  cases hr : desNode Config.desFuel (discardTree s) with
  | ok a t =>
    have ht := hd.ok hr
    exact .of (heapStays_of_nil ht)
  | err x t =>
    have ht := hd.err hr
    exact .of (heapStays_of_nil ht)
  | stuck x => exact .of trivial

theorem heapStays_raise {s u : State} {i : Instr} {x : ErrorKind} (hw : i.wellFormed = true) (h : HeapStays s u) :
    HeapStays s (raise (encode i) x u) := by
  by_cases hi : i = .compress ∨ i = .decompress
  · rw [raise_invocation hi]
    exact heapStays_of_nil rfl
  · rw [raise_step hw (fun h => hi (.inl h)) (fun h => hi (.inr h))]
    exact h.trans (heapStays_of_eq rfl rfl)

theorem heapStays_finish {α : Type} {s t : State} {i : Instr} {r : Res α} (hw : i.wellFormed = true)
    (hr : Steps HeapStays s r) (h : finish (encode i) r = .next t) : HeapStays s t := by
  rcases hr.finish h with ht | ⟨x, u, -, hu, rfl⟩
  · exact ht
  · exact heapStays_raise hw hu

/-- An instruction that starts an invocation leaves an empty heap (R170, R171). -/
theorem exec_startsInvocation_heap {i : Instr} {s t : State} (hi : i.startsInvocation = true) (h : exec i s = .next t) :
    t.heap = [] := by
  have released : ∀ {α : Type} {r : Res α}, i = .compress ∨ i = .decompress →
      finishReleasing (encode i) r = .next t → t.heap = [] := by
    intro α r hc e
    rcases finishReleasing_next e with ⟨a, u, -, rfl⟩ | ⟨x, u, -, rfl⟩
    · rfl
    · rw [raise_invocation hc]; rfl
  rcases startsInvocation_iff.1 hi with rfl | rfl | rfl
  · rw [exec_clear] at h; cases h; rfl
  · rw [exec_compress] at h; exact released (.inl rfl) h
  · rw [exec_decompress] at h; exact released (.inr rfl) h

/-- Only the tree commands and the start of an invocation touch the heap (R26); all of them keep it sound. -/
theorem exec_heapStays {i : Instr} {s t : State} (h : exec i s = .next t) : HeapStays s t := by
  cases hi : i.startsInvocation with
  | true => exact heapStays_of_nil (exec_startsInvocation_heap hi h)
  | false =>
    by_cases hm : i ∈ [.seed, .merge, .build, .deserialize, .clear, .compress, .decompress]
    · simp only [List.mem_cons, List.not_mem_nil, or_false] at hm
      rcases hm with rfl | rfl | rfl | rfl | rfl | rfl | rfl
      · rw [exec_seed] at h; exact heapStays_finish rfl (seed_heapStays s) h
      · rw [exec_merge] at h; exact heapStays_finish rfl (merge_heapStays s) h
      · rw [exec_build] at h; exact heapStays_finish rfl (build_heapStays s) h
      · rw [exec_deserialize] at h; exact heapStays_finish rfl (deserialize_heapStays s) h
      all_goals cases hi
    · obtain ⟨hnode, -, -, hheap⟩ := ((exec_ended h).frame hi).tree hm
      exact heapStays_of_eq hnode hheap

end Sys2Proof.Laws
end

section
/-! The statements about the state: its invariants, who writes each part of it, its reset values, STATUS. -/

namespace Sys2Proof.Laws

open Sys2Proof.Machine

/-! ### Invariants -/

/-- Settles O58, by the cases of a step. -/
theorem invariantKept : Obligations.InvariantKept := by
  unfold Obligations.InvariantKept
  intro s t h e
  obtain ⟨q, rfl | ⟨w, x, -, -, rfl⟩ | ⟨w, i, -, -, e⟩ | ⟨bytes, rfl⟩ | rfl⟩ := step_cases e
  · exact inv_port h q
  · exact inv_err (inv_port h q) (by decide) w
  · exact exec_inv (inv_port h q) e
  · exact inv_bindSource (inv_port h q) bytes
  · exact inv_init h.source

/-- Settles O59: under the invariants the heap order is one of keys, and each case of a step keeps the heap or empties it. -/
theorem heapOrderKept : Obligations.HeapOrderKept := by
  unfold Obligations.HeapOrderKept
  intro s t h e
  have key : HeapStays s t := by
    obtain ⟨q, rfl | ⟨w, x, -, -, rfl⟩ | ⟨w, i, -, -, e⟩ | ⟨bytes, rfl⟩ | rfl⟩ := step_cases e
    · exact heapStays_of_eq rfl rfl
    · exact heapStays_of_eq rfl rfl
    · exact (heapStays_of_eq (t := { s with port := q }) rfl rfl).trans (exec_heapStays e)
    · exact heapStays_of_eq rfl rfl
    · exact heapStays_of_nil rfl
  have fs : ForestOk s.node s.heap := h.heapForest
  obtain ⟨ft, ord, dist⟩ := key fs
  exact ⟨fun o => (ordered_iff ft.written).1 (ord ((ordered_iff fs.written).2 o)),
    fun d => heapDistinct_iff.2 (dist (heapDistinct_iff.1 d))⟩

theorem heapOrdered_of_nil {s : State} (h : s.heap = []) : s.HeapOrdered := by
  intro k _ hk
  simp [h] at hk

theorem heapDistinct_of_nil {s : State} (h : s.heap = []) : s.HeapDistinct := by
  simp [State.HeapDistinct, h]

/-- Settles O57: the reset state is its own image under `Init`, and its heap is empty. -/
theorem invariantAtReset : Obligations.InvariantAtReset := by
  unfold Obligations.InvariantAtReset
  exact ⟨inv_init (s := State.reset) covers_nil, heapOrdered_of_nil rfl, heapDistinct_of_nil rfl⟩

/-- Settles O35: the shape of a tree, and the room the invariants leave it in the arena. -/
theorem treeShapeBounds : Obligations.TreeShapeBounds := by
  unfold Obligations.TreeShapeBounds
  intro s T h hT
  have hk := size_eq T
  have hn := size_le_of_inv h hT
  have hcap : s.node.length ≤ 511 := h.arenaCap
  exact ⟨hk, hn, by omega, fun v p hp => path_length hp⟩

/-! ### Writers -/

/-- Settles O54, with the frame of the instructions that start no invocation; the others are in every list of writers. -/
theorem registerWriters : Obligations.RegisterWriters := by
  unfold Obligations.RegisterWriters
  intro i s t h
  have he := exec_ended h
  cases hi : i.startsInvocation with
  | true => rcases startsInvocation_iff.1 hi with rfl | rfl | rfl <;> simp [he.host]
  | false => exact ⟨(he.frame hi).res, (he.frame hi).len, he.host⟩

/-- Settles O55, as O54. -/
theorem tableWriters : Obligations.TableWriters := by
  unfold Obligations.TableWriters
  intro i s t h
  cases hi : i.startsInvocation with
  | true => rcases startsInvocation_iff.1 hi with rfl | rfl | rfl <;> simp
  | false =>
    have f := (exec_ended h).frame hi
    exact ⟨f.freq, f.tree, f.code⟩

/-- Settles O56: the frame, the growth of the sink (`SinkGrows`) and what the bit reader fetches (`Fetched`). -/
theorem streamWriters : Obligations.StreamWriters := by
  unfold Obligations.StreamWriters
  intro i s t h hi
  have f := (exec_ended h).frame hi
  obtain ⟨u, hu, ht⟩ := (exec_ended h).mayWrite hi
  obtain ⟨hle, hread⟩ := hu.sinkGrows hi
  refine ⟨f.writer, f.reader, f.cursor, f.sink, ?_⟩
  rw [ht]
  refine ⟨hread, hle, fun ha he => ?_⟩
  obtain ⟨hsrc, hf⟩ := hu.fetched hi ha he
  rw [hsrc] at hf
  exact hf

/-- Settles O12: up to its end, or to its raise, an instruction leaves the error registers as `Init` or the state before left
them; only the raise writes them, with the instruction's own word. -/
theorem errorRecordsCommand : Obligations.ErrorRecordsCommand := by
  unfold Obligations.ErrorRecordsCommand
  intro i s t h0 h
  rcases exec_ended h with ht | ⟨x, u, -, -, rfl⟩
  · have q := ht.quiet
    split at q
    next hi => exact ⟨fun he => absurd q.err he, fun _ => .inr ⟨hi, q.errCmd⟩⟩
    next => exact ⟨fun he => absurd (q.err.trans h0) he, fun _ => .inl q.errCmd⟩
  · simp [code_ne_zero]

/-! ### Reset and STATUS -/

/-- Settles O9: the reset move is `Init`, each field of which is that of `State.reset`. -/
theorem resetValues : Obligations.ResetValues := by
  unfold Obligations.ResetValues
  refine ⟨fun s rest hp => ⟨_, step_reset hp, ?_⟩, rfl⟩
  simp [State.ncount, State.hsize, State.codev, State.freqAt, State.codeAt]

theorem status_bit (s : State) (j : Nat) :
    s.status.getLsbD j = if j = 0 then s.errf else if j = 1 then s.rootv else if j = 2 then s.wpend else
      if j = 3 then s.rpend else if j = 4 then s.send else false := by
  simp only [State.status, BitVec.getLsbD_append, BitVec.getLsbD_ofBool]
  grind

/-- Settles O11, by the bits of a concatenation. -/
theorem statusBits : Obligations.StatusBits := by
  unfold Obligations.StatusBits
  refine ⟨fun s => ?_, fun s rest hp => ⟨_, step_reset hp, fun h => ?_, fun h => ?_⟩⟩
  · simp only [status_bit, State.errf, State.wpend, State.rpend, State.send]
    have flag : ∀ {n : Nat} (a b : BitVec n), (a != b) = decide (a ≠ b) := by simp [bne, Bool.beq_eq_decide_eq]
    refine ⟨by simp [flag], by simp, by simp [flag], by simp [flag], by simp, fun j hj => ?_⟩
    repeat rw [if_neg (by omega)]
  · simp [State.status, State.errf, State.send, State.rpend, State.wpend, h]
  · simp [State.status, State.errf, State.send, State.rpend, State.wpend, h]

end Sys2Proof.Laws
end

section
/-! SUPPORT. Command words by their two fields (R71 to R73), and the serialized tree as a self-delimiting string (R78). -/

namespace Sys2Proof.Laws

open Sys2Proof.Machine

/-! ### Which words are legal -/

/-- The opcodes of the commands with no operand (R72). -/
def plainOpcodes : List Byte :=
  [0x01#8, 0x02#8, 0x03#8, 0x12#8, 0x13#8, 0x14#8, 0x20#8, 0x22#8, 0x30#8, 0x31#8, 0x32#8, 0x40#8, 0x50#8, 0x51#8, 0x60#8,
    0x61#8, 0x63#8, 0x64#8, 0x65#8]

/-- The opcodes of the commands with a byte for their operand (R72). -/
def byteOpcodes : List Byte := [0x11#8, 0x21#8, 0x62#8]

/-- What an entry of the opcode map says of the opcode: its operand shape is that of the one family it is listed in. -/
def FormListed (op : Byte) : Option Form → Prop
  | .none => op ∉ plainOpcodes ∧ op ≠ 0x10#8 ∧ op ∉ byteOpcodes
  | some (.none _) => op ∈ plainOpcodes ∧ op ≠ 0x10#8 ∧ op ∉ byteOpcodes
  | some (.bit _) => op ∉ plainOpcodes ∧ op = 0x10#8 ∧ op ∉ byteOpcodes
  | some (.byte _) => op ∉ plainOpcodes ∧ op ≠ 0x10#8 ∧ op ∈ byteOpcodes

theorem formListed_if {op c : Byte} {x y : Option Form} (h : FormListed c x) (k : op ≠ c → FormListed op y) :
    FormListed op (if op = c then x else y) := by
  by_cases e : op = c
  · rw [if_pos e, e]; exact h
  · rw [if_neg e]; exact k e

theorem form_listed (op : Byte) : FormListed op (form op) := by
  unfold form
  repeat refine formListed_if (by simp [FormListed, plainOpcodes, byteOpcodes]) fun _ => ?_
  simp [FormListed, plainOpcodes, byteOpcodes, *]

theorem argField_high (w : Word) : (argField w).extractLsb' 1 7 = w.extractLsb' 1 7 := by
  apply BitVec.eq_of_getLsbD_eq
  intro i hi
  simp [argField, hi]

/-- A word is legal exactly when its operand field has the shape its opcode asks for (R73). -/
theorem decode_ok_iff (w : Word) : (∃ i, decode w = .ok i) ↔
    (opField w ∈ plainOpcodes ∧ argField w = 0#8) ∨ (opField w = 0x10#8 ∧ w.extractLsb' 1 7 = 0#7) ∨
      opField w ∈ byteOpcodes := by
  have hl := form_listed (opField w)
  unfold decode
  match hf : form (opField w) with
  | .none =>
    rw [hf] at hl
    obtain ⟨hplain, hbit, hbyte⟩ := hl
    simp [hplain, hbit, hbyte]
  | some (.none i) =>
    rw [hf] at hl
    obtain ⟨hplain, hbit, hbyte⟩ := hl
    by_cases ha : argField w = 0#8 <;> simp [hplain, hbit, hbyte, ha]
  | some (.bit f) =>
    rw [hf] at hl
    obtain ⟨hplain, hbit, hbyte⟩ := hl
    rw [hbit] at hplain hbyte
    by_cases ha : w.extractLsb' 1 7 = 0#7 <;> simp [hplain, hbit, hbyte, argField_high, ha]
  | some (.byte f) =>
    rw [hf] at hl
    obtain ⟨-, -, hbyte⟩ := hl
    simp [hbyte]

/-- A word whose fields fit no family is illegal. -/
theorem decode_error_of {w : Word} (h1 : ¬(opField w ∈ plainOpcodes ∧ argField w = 0#8))
    (h2 : ¬(opField w = 0x10#8 ∧ w.extractLsb' 1 7 = 0#7)) (h3 : opField w ∉ byteOpcodes) : ∃ x, decode w = .error x := by
  match hd : decode w with
  | .error x => exact ⟨x, rfl⟩
  | .ok i => exact absurd ((decode_ok_iff w).1 ⟨i, hd⟩) (by simp only [h1, h2, h3, or_self, not_false_eq_true])

/-! ### The serialized tree -/

/-- No serialized tree begins another one, so where it ends is seen from its own bits (R78). -/
theorem bits_append_injective {t u : CodeTree} {xs ys : List Bool} (h : t.bits ++ xs = u.bits ++ ys) : t = u ∧ xs = ys := by
  induction t generalizing u xs ys with
  | leaf v =>
    cases u with
    | leaf w =>
      have := congrArg decodeToken h
      simpa [CodeTree.bits, decodeToken_leafBits] using this
    | fork l r => simp [CodeTree.bits, leafBits, internalBits] at h
  | fork l r ihl ihr =>
    cases u with
    | leaf w => simp [CodeTree.bits, leafBits, internalBits] at h
    | fork l' r' =>
      simp only [CodeTree.bits, List.append_assoc, List.append_cancel_left_eq] at h
      obtain ⟨rfl, hr⟩ := ihl h
      obtain ⟨rfl, hx⟩ := ihr hr
      exact ⟨rfl, hx⟩
end Sys2Proof.Laws
end

section
/-! The statements about command words, the step and the tree tokens. -/

namespace Sys2Proof.Laws.Encoding

open Sys2Proof.Machine

/-- Settles O3: each command's word decodes to it, and the opcode map agrees with the encoder on every legal word. -/
theorem decodeEncodeAgree : Obligations.DecodeEncodeAgree :=
  ⟨fun _ h => Laws.roundTrip h, fun _ _ h => encode_of_decode h⟩

/-- Settles O2, by the operand shape of each opcode. -/
theorem legalWordsByFields : Obligations.LegalWordsByFields := decode_ok_iff

/-- Settles O4: the tokens are read off one by one, by induction on the tree. -/
theorem treeBitsDelimitThemselves : Obligations.TreeBitsDelimitThemselves := by
  unfold Obligations.TreeBitsDelimitThemselves
  refine ⟨fun t u xs ys h => bits_append_injective h, bits_length, decodeToken_leafBits, fun l r xs => ?_⟩
  rw [CodeTree.bits, List.append_assoc, List.append_assoc, decodeToken_internalBits]

/-- Settles O7: a word that is illegal by its fields does not decode, and is recorded or refused. -/
theorem illegalWordRaises : Obligations.IllegalWordRaises := by
  unfold Obligations.IllegalWordRaises
  intro s w rest hp h1 h2 h3
  obtain ⟨x, hd⟩ := decode_error_of h1 h2 h3
  rw [step_command hp, present_illegal hd, raise_illegal hd]
  exact ⟨fun h => if_pos h, fun h => if_neg h⟩

/-- Settles O22: each token is written bit by bit (R160). -/
theorem tokensAreWrittenAsTheirBits : Obligations.TokensAreWrittenAsTheirBits := by
  unfold Obligations.TokensAreWrittenAsTheirBits
  refine ⟨fun v s h => ⟨_, exec_leaf v s, ?_⟩, fun s h => ⟨_, exec_internal s, ?_⟩⟩
  · exact writeBits_wrote (writerOk_of_inv h) (leafBits v)
  · exact writeBits_wrote (writerOk_of_inv h) internalBits

/-- Settles O1, by evaluation. -/
theorem decodeSampleWords : Obligations.DecodeSampleWords := by
  unfold Obligations.DecodeSampleWords
  decide

/-- Settles O5: the step presents the word at the head of the queue, and a legal, accepted word is executed. -/
theorem stepRunsDecodedInstruction : Obligations.StepRunsDecodedInstruction := by
  unfold Obligations.StepRunsDecodedInstruction
  have runs : ∀ (s : State) (w : Word) (rest : List HostMove) (i : Instr), s.port = .command w :: rest → decode w = .ok i →
      s.err = 0#8 ∨ i.startsInvocation = true → step s = exec i { s with port := rest } := by
    intro s w rest i hp hd ha
    rw [step_command hp, present_legal hd]
    exact if_pos ((accepts_iff i _).2 ha)
  exact ⟨runs, fun s n w i hd ha => runs (s.withFetchWord n w) _ s.port i rfl hd ha⟩

end Sys2Proof.Laws.Encoding
end

section
/-! SUPPORT. What every instruction needs to complete (R70), what the reader has consumed (R30, R103), and COMPRESS and
DECOMPRESS from end to end (R185, R186). -/

namespace Sys2Proof.Laws

open Sys2Proof.Machine

/-! ### Every instruction completes -/

theorem Raises.finish {α : Type} {es : List Byte} {r : Res α} (h : Raises es r) (w : Word) : ∃ t, finish w r = .next t := by
  cases r with
  | ok a t => exact ⟨_, rfl⟩
  | err x t => exact ⟨_, rfl⟩
  | stuck f => exact absurd rfl (h.live f)

theorem Raises.finishReleasing {α : Type} {es : List Byte} {r : Res α} (h : Raises es r) (w : Word) :
    ∃ t, finishReleasing w r = .next t := by
  cases r with
  | ok a t => exact ⟨_, rfl⟩
  | err x t => exact ⟨_, rfl⟩
  | stuck f => exact absurd rfl (h.live f)

/-- Under the invariants every instruction completes: none reads what has no value (R36, R58). -/
theorem exec_completes (i : Instr) {s : State} (h : s.Inv) : ∃ t, exec i s = .next t := by
  have hr := readerOk_of_inv h
  have h0 : (init s).Inv := inv_init h.source
  cases i with
  | clear => exact ⟨_, exec_clear s⟩
  | compress => exact (raises_compress h0).finishReleasing _
  | decompress => exact (raises_decompress h0).finishReleasing _
  | wbit b => exact ⟨_, exec_wbit b s⟩
  | wbyte v => exact ⟨_, exec_wbyte v s⟩
  | flush => exact ⟨_, exec_flush s⟩
  | rbit => exact ((raises_readBit hr).bind fun _ _ _ => .of_ok rfl).finish _
  | rbyte => exact ((raises_readByte hr).bind fun _ _ _ => .of_ok rfl).finish _
  | fclr => exact ⟨_, exec_fclr s⟩
  | fcount v => exact (raises_count v s).finish _
  | analyze => exact (raises_analyze h.source).finish _
  | seed => exact (raises_seed s).finish _
  | merge => exact (raises_merge h).finish _
  | build => exact (raises_build s).finish _
  | codegen => exact (raises_codeGen h).finish _
  | serialize => exact (raises_serialize h).finish _
  | deserialize => exact (raises_deserialize hr).finish _
  | wrhdr => exact ⟨_, exec_wrhdr s⟩
  | rdhdr => exact (raises_rdHdr hr).finish _
  | encsym v => exact (raises_encSym v s).finish _
  | encode => exact (raises_encode h.source).finish _
  | decsym => exact (raises_decSym h).finish _
  | decode => exact (raises_decode _ h).finish _
  | leaf v => exact ⟨_, exec_leaf v s⟩
  | internal => exact ⟨_, exec_internal s⟩

/-! ### What the reader has consumed -/

theorem flatMap_byteBits_length (vs : List Byte) : (vs.flatMap byteBits).length = 8 * vs.length := by
  simp [List.length_flatMap, byteBits_length, Nat.mul_comm]

/-- Bits left, counted by the cursor and RCNT (R30, R103). -/
theorem bitsLeft_length {s : State} (h : ReaderOk s) : s.bitsLeft.length = s.rcnt.toNat + 8 * (s.slen - s.spos) := by
  have hc := h.count
  rw [State.bitsLeft, List.length_append, lowBits_length _ _ (by omega), flatMap_byteBits_length, List.length_drop, bytes_length,
    covers_length h.source]

/-- Where eight bits or more are consumed a byte has been fetched, and RBUF holds the last one (R30, R103). -/
theorem Reads.fetched {s t : State} (r : Reads s t) (h : ReaderOk s) (hl : t.slen = s.slen)
    (hb : t.bitsLeft.length + 8 ≤ s.bitsLeft.length) : s.spos < t.spos ∧ s.src.read (t.spos - 1) = some t.rbuf := by
  obtain ⟨hsrc, ⟨hp, -⟩ | ⟨hlt, hread⟩⟩ := r.buffer
  · have hs := bitsLeft_length h
    have ht := bitsLeft_length (r.ok h)
    have hc := h.count
    rw [hp, hl] at ht
    omega
  · exact ⟨hlt, by rw [← hsrc]; exact hread⟩

/-- A reader that stands between two bytes and consumes `k` whole bytes stands between two bytes again, `k` further on. -/
theorem Reads.wholeBytes {s t : State} (r : Reads s t) (h : ReaderOk s) (hl : t.slen = s.slen) (h0 : s.rcnt = 0#4)
    (hp : s.spos ≤ s.slen) {k : Nat} (hb : s.bitsLeft.length = 8 * k + t.bitsLeft.length) :
    t.spos = s.spos + k ∧ t.rcnt = 0#4 := by
  have hs := bitsLeft_length h
  have ht := bitsLeft_length (r.ok h)
  have hcur := r.cursor hp
  have hc := (r.ok h).count
  have hz : s.rcnt.toNat = 0 := by rw [h0]; rfl
  exact ⟨by omega, BitVec.eq_of_toNat_eq (show t.rcnt.toNat = 0 by omega)⟩

theorem init_readerOk {s : State} (h : s.src.covers s.slen) : ReaderOk (init s) := ⟨h, Nat.zero_le _⟩

theorem init_bitsLeft (s : State) : (init s).bitsLeft = s.src.bytes.flatMap byteBits := rfl

/-! ### DECOMPRESS -/

theorem decompressBody_reads (s : State) : Steps Reads s (decompressBody s) := by
  refine Steps.bind (R := Reads) Reads.trans (rdHdr_reads s) fun _ a _ => ?_
  split
  · exact .of (.refl a)
  · exact Steps.bind (R := Reads) Reads.trans (deserialize_reads a) fun _ b _ => decodeAll_reads _ b

/-- `Decompress()` of a header of 0: four bytes are read, and nothing else happens (R186). -/
theorem decompressBody_empty {s : State} (h : s.src.covers s.slen) {rest : List Bool}
    (hb : s.src.bytes.flatMap byteBits = headerBits 0#32 ++ rest) :
    ∃ x, s.src.read 3 = some x ∧ decompressBody (init s) = .ok () { init s with rbuf := x, spos := 4 } := by
  have hr := init_readerOk h
  obtain ⟨a, ea, la, na, ra, oa⟩ := rdHdr_some hr ((init_bitsLeft s).trans hb)
  have reads : Reads (init s) a := (rdHdr_reads _).ok ea
  have hslen : a.slen = s.slen := by rw [oa]; rfl
  have used : (init s).bitsLeft.length = 8 * 4 + a.bitsLeft.length := by
    rw [la, init_bitsLeft, hb, List.length_append, headerBits_length]
  obtain ⟨hspos, hrcnt⟩ := reads.wholeBytes hr hslen rfl (Nat.zero_le _) used
  rw [init_spos, reset_spos, Nat.zero_add] at hspos
  obtain ⟨-, hread⟩ := reads.fetched hr hslen (by omega)
  rw [hspos] at hread
  refine ⟨a.rbuf, hread, ?_⟩
  unfold decompressBody
  rw [ea, bind_ok, if_pos na]
  unfold HeaderOnly at oa
  rw [oa, na, hspos, hrcnt]
  rfl

/-- `Decompress()` of a file: the symbols of the codewords are emitted, and the bits after them are left (R186). -/
theorem decompressBody_file {s : State} (h : s.src.covers s.slen) {N : Count} {T : CodeTree} {cs : List (Byte × List Bool)}
    {rest : List Bool} (hN : N ≠ 0#32)
    (hb : s.src.bytes.flatMap byteBits = headerBits N ++ T.bits ++ cs.flatMap Prod.snd ++ rest) (hT : T.size ≤ 511)
    (hc : ∀ c ∈ cs, c ∈ T.paths) (hn : cs.length = N.toNat) :
    ∃ t, decompressBody (init s) = .ok () t ∧ ReaderOk t ∧ t.bitsLeft = rest ∧ t.output = cs.map Prod.fst ∧
      release t = { init s with len := N, rbuf := t.rbuf, rcnt := t.rcnt, spos := t.spos, dst := t.dst, dpos := N.toNat } := by
  simp only [List.append_assoc] at hb
  obtain ⟨a, ea, la, na, ra, oa⟩ := rdHdr_some (init_readerOk h) ((init_bitsLeft s).trans hb)
  obtain ⟨b, eb, lb, rb, ob⟩ := deserialize_tree ra la hT
  have hTb : b.tree = some T := (tree_layout (by rw [ob]) (by rw [ob]) (by rw [ob])).1
  obtain ⟨t, et, ⟨ot, emit⟩, lt, rt⟩ := decodeAll_payload cs hTb rb hc lb
  unfold HeaderOnly at oa
  have hlen : b.len.toNat = cs.length := by rw [ob, hn, ← na]
  have hdst : b.dst = [] ∧ b.dpos = 0 := by rw [ob, oa]; exact ⟨rfl, rfl⟩
  refine ⟨t, ?_, rt, lt, ?_, ?_⟩
  · unfold decompressBody decodeSource
    rw [ea, bind_ok, if_neg (na ▸ hN), eb, bind_ok, hlen, et]
  · rw [(emit (by rw [hdst.1, hdst.2]; exact covers_nil)).2, State.output, hdst.1]
    rfl
  · rw [ot, ob, oa, na, List.length_map, hn, init_dpos, reset_dpos, Nat.zero_add]
    rfl

/-! ### COMPRESS -/

theorem flatMap_byteBits_injective {xs ys : List Byte} (h : xs.flatMap byteBits = ys.flatMap byteBits) : xs = ys := by
  induction xs generalizing ys with
  | nil =>
    cases ys with
    | nil => rfl
    | cons y ys => cases h
  | cons x xs ih =>
    cases ys with
    | nil => cases h
    | cons y ys =>
      simp only [List.flatMap_cons] at h
      obtain ⟨hx, hxs⟩ := List.append_inj h rfl
      rw [byteBits_injective hx, ih hxs]

/-- Bits written and flushed: the writer is empty again, and the sink holds the bits padded to whole bytes (R101, R102). -/
theorem flush_writeBits {s t : State} {bs : List Bool} (h : WriterOk s) (ht : flush (writeBits bs s) = t) :
    t = { s with wbuf := 0#8, wcnt := 0#3, dst := t.dst, dpos := t.dpos } ∧ t.dst.covers t.dpos ∧
      ∃ pad < 8, t.output.flatMap byteBits = s.bitsWritten ++ bs ++ List.replicate pad false := by
  obtain ⟨hw, hbits⟩ := writeBits_spec h bs
  obtain ⟨hf, hcnt, hout⟩ := flush_spec hw
  have only := (writeBits_only bs s).trans (flush_only _)
  rw [ht] at hf hcnt hout only
  have hbuf : t.wbuf = 0#8 := by
    apply BitVec.eq_of_getLsbD_eq
    intro j hj
    rw [hf.pad j (by rw [hcnt]; simpa using hj), BitVec.getLsbD_zero]
  unfold WriterOnly at only
  rw [hcnt, hbuf] at only
  exact ⟨only, hf.sink, _, Nat.mod_lt _ (by omega), by rw [hout, hbits]⟩

/-- `t` is what COMPRESS leaves when it has written `bits` (R171, R185). -/
structure Compressed (s t : State) (bits : List Bool) : Prop where
  registers : t = { init s with len := BitVec.ofNat 32 s.slen, spos := s.slen, dst := t.dst, dpos := t.dpos }
  sink : t.dst.covers t.dpos
  file : ∃ pad < 8, t.output.flatMap byteBits = bits ++ List.replicate pad false

theorem Compressed.err {s t : State} {bits : List Bool} (h : Compressed s t bits) : t.err = 0#8 := by rw [h.registers]; rfl

/-- The length of the sink is that of the bits, rounded up to bytes (R188). -/
theorem Compressed.dpos_eq {s t : State} {bits : List Bool} (h : Compressed s t bits) : t.dpos = (bits.length + 7) / 8 := by
  obtain ⟨-, hcov, pad, hpad, hout⟩ := h
  have hl := congrArg List.length hout
  rw [flatMap_byteBits_length, List.length_append, List.length_replicate, State.output, bytes_length,
    covers_length hcov] at hl
  omega

/-- A sink that holds the header of 0 and its padding holds four zero bytes: the padding is shorter than a byte (R79). -/
theorem Compressed.output_empty {s t : State} (h : Compressed s t (headerBits 0#32)) : t.output = [0#8, 0#8, 0#8, 0#8] := by
  have hdpos : t.dpos = 4 := h.dpos_eq
  obtain ⟨-, hcov, pad, -, hout⟩ := h
  have hl := congrArg List.length hout
  rw [flatMap_byteBits_length, List.length_append, List.length_replicate, State.output, bytes_length,
    covers_length hcov, hdpos, headerBits_length] at hl
  obtain rfl : pad = 0 := by omega
  exact flatMap_byteBits_injective hout

/-- From the state `c` after CODEGEN, which differs from that after `Init` in the tables, the tree, LEN and SPOS only, writing
`bits` and a flush end COMPRESS. -/
theorem compressed_of_written {s a b c : State} (ha : CountOnly (init s) a) (hb : TreeOnly a b) (hc : CodeOnly b c)
    (hw : WriterOk c) (hl : a.len = BitVec.ofNat 32 s.slen) (bits : List Bool) :
    Compressed s (release (flush { writeBits bits c with spos := s.slen })) bits := by
  rw [← writeBits_spos]
  generalize hu : flush (writeBits bits { c with spos := s.slen }) = u
  obtain ⟨only, hcov, pad, hpad, hout⟩ := flush_writeBits (s := { c with spos := s.slen }) ⟨hw.sink, hw.pad⟩ hu
  unfold CountOnly at ha
  unfold TreeOnly at hb
  unfold CodeOnly at hc
  have hbits : ({ c with spos := s.slen } : State).bitsWritten = [] := by rw [hc, hb, ha]; rfl
  refine ⟨?_, hcov, pad, hpad, by rw [hbits] at hout; exact hout⟩
  rw [only, hc, hb, ha, hl]
  rfl

/-- Everything COMPRESS can leave of a source shorter than 2^32 bytes: of an empty one the header of 0, else the file of the
tree BUILD makes of its counts (R79, R185). -/
theorem compress_cases {s : State} (h : s.src.covers s.slen) (hl : s.slen < 2 ^ 32) :
    ∃ t, exec .compress s = .next t ∧
      ((s.slen = 0 ∧ Compressed s t (headerBits (BitVec.ofNat 32 s.slen))) ∨
        (s.slen ≠ 0 ∧ ∃ a b T, exec .analyze (init s) = .next a ∧ exec .build a = .next b ∧ b.tree = some T ∧
          T.symbols.Nodup ∧ (∀ v, v ∈ T.symbols ↔ v ∈ s.src.bytes) ∧
          Compressed s t (headerBits (BitVec.ofNat 32 s.slen) ++ T.bits ++ T.payload s.src.bytes))) := by
  rcases compress_spec (inv_init h) with ⟨hbig, -⟩ | ⟨-, a, b, c, ea, eb, -, ic, hlen, oa, hsp, ob, oc, -, fin⟩
  · exact absurd hbig (Nat.not_le.2 hl)
  have hla : a.len = BitVec.ofNat 32 s.slen :=
    BitVec.eq_of_toNat_eq (by rw [hlen, init_slen, BitVec.toNat_ofNat, Nat.mod_eq_of_lt hl])
  have hlc : c.len = BitVec.ofNat 32 s.slen := by rw [oc, ob, hla]
  have hspos : max c.spos c.slen = s.slen := by
    rw [oc, ob, show max a.spos a.slen = a.slen by rw [hsp, Nat.zero_max], oa]; rfl
  have written := compressed_of_written oa ob oc (writerOk_of_inv ic) hla
  rw [wrHdr_eq, hlc, hspos] at fin
  rcases fin with ⟨hz, -, e⟩ | ⟨hz, T, hT, hnd, hsym, -, e⟩
  · exact ⟨_, finishReleasing_ok e, .inl ⟨hz, written _⟩⟩
  · rw [← writeBits_append, ← writeBits_append] at e
    exact ⟨_, finishReleasing_ok e, .inr ⟨hz, a, b, T, finish_ok ea, finish_ok eb, hT, hnd, hsym, written _⟩⟩

/-! ### The codewords of a source -/

/-- A source's bytes, each with its code: what the payload is made of (R79). -/
def codewords (T : CodeTree) (vs : List Byte) : List (Byte × List Bool) := vs.map fun v => (v, (T.codeOf v).getD [])

theorem codewords_fst (T : CodeTree) (vs : List Byte) : (codewords T vs).map Prod.fst = vs := by
  simp [codewords, Function.comp_def]

theorem codewords_payload (T : CodeTree) (vs : List Byte) : (codewords T vs).flatMap Prod.snd = T.payload vs :=
  List.flatMap_map ..

theorem codewords_length (T : CodeTree) (vs : List Byte) : (codewords T vs).length = vs.length := List.length_map _

theorem codewords_mem {T : CodeTree} {vs : List Byte} (h : ∀ v ∈ vs, v ∈ T.symbols) :
    ∀ c ∈ codewords T vs, c ∈ T.paths := by
  intro c hc
  obtain ⟨v, hv, rfl⟩ := List.mem_map.1 hc
  obtain ⟨p, hp⟩ := codeOf_isSome.2 (h v hv)
  rw [hp]
  exact codeOf_mem hp

/-- A tree with distinct leaf symbols fits the arena: there are 256 symbols (R141). -/
theorem size_le_of_nodup {T : CodeTree} (h : T.symbols.Nodup) : T.size ≤ 511 := by
  have hs := size_eq T
  have hc : T.symbols.length ≤ 256 := (h.subperm fun v _ => mem_allSymbols v).length_le.trans_eq allSymbols_length
  omega

end Sys2Proof.Laws
end

section
/-! The statements about whole commands and steps: COMPRESS, DECOMPRESS, the round trip, and that every step completes. -/

namespace Sys2Proof.Laws.Encoding

open Sys2Proof.Machine

/-- Settles O60: each move of the host leads to a state, a command by `exec_completes`. -/
theorem everyStepCompletes : Obligations.EveryStepCompletes := by
  unfold Obligations.EveryStepCompletes State.stepsSafely
  intro s h duty
  match hp : s.port with
  | [] => exact ⟨s, step_idle hp⟩
  | .reset :: rest => exact ⟨_, step_reset hp⟩
  | .bindSource bytes :: rest => exact ⟨_, (step_bindSource hp).trans (if_pos (duty bytes rest hp))⟩
  | .command w :: rest =>
    rw [step_command hp]
    match hd : decode w with
    | .error x => rw [present_illegal hd]; split <;> exact ⟨_, rfl⟩
    | .ok i =>
      rw [present_legal hd]
      split
      · exact exec_completes i (inv_port h rest)
      · exact ⟨_, rfl⟩

/-- Settles O50: `Decompress()` from end to end, and the byte in RBUF is the last one fetched because the header alone takes
32 bits. -/
theorem decompressRestoresTheBytes : Obligations.DecompressRestoresTheBytes := by
  unfold Obligations.DecompressRestoresTheBytes
  intro s h
  refine ⟨fun N T cs rest hN hb hT hc hn => ?_, fun rest hb => ?_⟩
  · obtain ⟨t, e, hr, hleft, hout, ht⟩ := decompressBody_file h hN hb hT hc hn
    have hslen : (release t).slen = s.slen := by rw [ht]; rfl
    obtain ⟨-, hread⟩ := ((decompressBody_reads _).ok e).fetched (init_readerOk h) hslen (by
      rw [hleft, init_bitsLeft, hb]
      simp only [List.length_append, headerBits_length]
      omega)
    exact ⟨release t, finishReleasing_ok e, ht, hout, hleft, hr.count, hread⟩
  · obtain ⟨x, hx, e⟩ := decompressBody_empty h hb
    exact ⟨x, hx, finishReleasing_ok e⟩

/-- Settles O48: the bits COMPRESS writes, and their number in bytes. -/
theorem compressMakesTheFile : Obligations.CompressMakesTheFile := by
  unfold Obligations.CompressMakesTheFile
  intro s h hl
  obtain ⟨t, e, ⟨hz, comp⟩ | ⟨hz, a, b, T, ea, eb, hT, hnd, hsym, comp⟩⟩ := compress_cases h hl
  · rw [hz] at comp
    exact ⟨t, e, comp.registers, comp.sink, fun _ => comp.output_empty, fun hne => absurd hz hne⟩
  · have hdpos := comp.dpos_eq
    obtain ⟨ht, hcov, pad, hpad, hout⟩ := comp
    refine ⟨t, e, ht, hcov, fun h0 => absurd h0 hz, fun _ => ⟨a, b, T, pad, ea, eb, hT, hnd, hsym, hpad, hout, ?_⟩⟩
    rw [hdpos]
    simp only [List.length_append, headerBits_length]
    omega

/-- Settles O53: what COMPRESS wrote is a file that DECOMPRESS reads, and its codewords are the codes of the source's bytes;
the empty source is the file of the header alone. -/
theorem roundTrip : Obligations.RoundTrip := by
  unfold Obligations.RoundTrip
  intro bytes s hl
  have hbytes : (bindSource bytes s).src.bytes = bytes := ofBytesAt_bytes 0 bytes
  obtain ⟨t, e, fin⟩ := compress_cases (s := bindSource bytes s) (ofBytes_covers bytes) hl
  have hsrc : (bindSource t.output t).src.covers (bindSource t.output t).slen := ofBytes_covers t.output
  have hout : (bindSource t.output t).src.bytes = t.output := ofBytesAt_bytes 0 t.output
  rw [bindSource_slen, hbytes] at fin
  rcases fin with ⟨hz, comp⟩ | ⟨hz, -, -, T, -, -, -, hnd, hsym, comp⟩
  · have ht := comp.err
    rw [hz] at comp
    obtain ⟨x, -, eu⟩ := decompressBody_empty hsrc (rest := []) (by rw [hout, comp.output_empty]; rfl)
    exact ⟨t, _, e, finishReleasing_ok eu, ht, rfl, (List.length_eq_zero_iff.1 hz).symm, hz.symm⟩
  · have ht := comp.err
    obtain ⟨-, -, pad, -, hbits⟩ := comp
    have hN : (BitVec.ofNat 32 bytes.length).toNat = bytes.length := by rw [BitVec.toNat_ofNat, Nat.mod_eq_of_lt hl]
    obtain ⟨u, eu, -, -, hu, frame⟩ := decompressBody_file hsrc (N := BitVec.ofNat 32 bytes.length) (T := T)
      (cs := codewords T bytes) (rest := List.replicate pad false) (fun h0 => hz (by rw [← hN, h0]; rfl))
      (by rw [hout, hbits, codewords_payload]) (size_le_of_nodup hnd) (codewords_mem fun v hv => (hsym v).2 hv)
      (by rw [codewords_length, hN])
    refine ⟨t, release u, e, finishReleasing_ok eu, ht, by rw [frame]; rfl, hu.trans (codewords_fst T bytes), ?_⟩
    rw [frame]
    exact hN

end Sys2Proof.Laws.Encoding
end

section
/-! SUPPORT. The bit stream in every state, the invariants not assumed (R100 to R104): what a run of writes puts into WBUF
and when it emits, what `ReadBit` does by RCNT and the source, and what a run of reads takes from RBUF and the next byte. -/

namespace Sys2Proof.Laws

open Sys2Proof.Machine

/-! ### The writer -/

/-- The emission of R100: the byte goes to the sink, and WBUF and WCNT are cleared. -/
def emit (v : Byte) (s : State) : State := { sinkPut v s with wbuf := 0#8, wcnt := 0#3 }

/-- An emission is one byte at DPOS, and no other byte of the sink changes (R53). -/
theorem emit_spec (v : Byte) (s : State) :
    emit v s = { s with wbuf := 0#8, wcnt := 0#3, dst := (emit v s).dst, dpos := s.dpos + 1 } ∧
      (emit v s).dst.read s.dpos = some v ∧ ∀ a, a ≠ s.dpos → (emit v s).dst.read a = s.dst.read a :=
  ⟨rfl, read_write_same _ _, fun _ ha => read_write_other v ha⟩

theorem writeBit_pending (b : Bool) {s : State} (h : s.wcnt ≠ 7#3) :
    writeBit b s = { s with wbuf := setBit s.wbuf (7 - s.wcnt.toNat) b, wcnt := s.wcnt + 1#3 } := if_neg h

theorem writeBit_full (b : Bool) {s : State} (h : s.wcnt = 7#3) :
    writeBit b s = emit (setBit s.wbuf (7 - s.wcnt.toNat) b) s := if_pos h

theorem flush_empty {s : State} (h : s.wcnt = 0#3) : flush s = s := if_pos h

theorem flush_pending {s : State} (h : s.wcnt ≠ 0#3) : flush s = emit s.wbuf s := if_neg h

/-- A byte's bits before a position and after it. -/
theorem topBits_append_lowBits (v : Byte) (c : Nat) : topBits v (8 - c) ++ lowBits v c = byteBits v :=
  List.take_append_drop ..

theorem lowBits_getElem (v : Byte) {n i : Nat} (hi : i < n) (hn : n ≤ 8) :
    (lowBits v n)[i]? = some (v.getLsbD (n - 1 - i)) := by
  rw [lowBits, List.getElem?_drop, byteBits_getElem _ _ (by omega), show 7 - (8 - n + i) = n - 1 - i by omega]

/-- The buffer `u` with the bits set into it one after the other, the first at position `7 - c`. -/
def putBits (u : Byte) (c : Nat) : List Bool → Byte
  | [] => u
  | b :: bs => putBits (setBit u (7 - c) b) (c + 1) bs

/-- Bits that fit the buffer stand below the `c` bits before them; the positions they do not reach keep theirs. -/
theorem putBits_getLsbD (u : Byte) {c : Nat} {bs : List Bool} (h : c + bs.length ≤ 8) {j : Nat} (hj : j < 8) :
    (putBits u c bs).getLsbD j =
      if j < 8 - c ∧ 8 - c ≤ j + bs.length then bs[7 - c - j]?.getD false else u.getLsbD j := by
  induction bs generalizing u c with
  | nil => rw [putBits, if_neg (by rw [List.length_nil]; omega)]
  | cons b bs ih =>
    rw [List.length_cons] at h ⊢
    rw [putBits, ih _ (by omega), setBit_getLsbD _ _ _ _ hj]
    by_cases hbelow : j < 8 - (c + 1)
    · rw [show 7 - c - j = 7 - (c + 1) - j + 1 by omega, List.getElem?_cons_succ]
      simp only [show j ≠ 7 - c by omega, if_false]
      exact if_congr (by omega) rfl rfl
    · rw [if_neg (by omega)]
      by_cases hhere : j = 7 - c
      · rw [if_pos hhere, if_pos (by omega), hhere, Nat.sub_self]
        rfl
      · rw [if_neg hhere, if_neg (by omega)]

/-- Bits that leave room in the buffer only wait there (R100). -/
theorem writeBits_pending {bs : List Bool} {s : State} (h : s.wcnt.toNat + bs.length < 8) :
    writeBits bs s = { s with wbuf := putBits s.wbuf s.wcnt.toNat bs, wcnt := s.wcnt + BitVec.ofNat 3 bs.length } := by
  induction bs generalizing s with
  | nil => simp [writeBits, putBits]
  | cons b bs ih =>
    rw [List.length_cons] at h
    have h7 : s.wcnt ≠ 7#3 := fun e => by have := wcnt_seven e; omega
    have hcnt := wcnt_succ h7
    rw [writeBits, writeBit_pending b h7, ih (by dsimp only; omega)]
    simp only [hcnt, putBits, List.length_cons]
    rw [BitVec.add_assoc, Nat.add_comm bs.length 1, BitVec.ofNat_add]

/-- Bits that fill the buffer to the last position emit it (R100). -/
theorem writeBits_full {bs : List Bool} {s : State} (h : s.wcnt.toNat + bs.length = 8) :
    writeBits bs s = emit (putBits s.wbuf s.wcnt.toNat bs) s := by
  induction bs generalizing s with
  | nil => exact absurd s.wcnt.isLt (by rw [List.length_nil] at h; omega)
  | cons b bs ih =>
    rw [List.length_cons] at h
    by_cases h7 : s.wcnt = 7#3
    · have hnil : bs = [] := List.length_eq_zero_iff.1 (by have := wcnt_seven h7; omega)
      rw [hnil]
      exact writeBit_full b h7
    · have hcnt := wcnt_succ h7
      rw [writeBits, writeBit_pending b h7, ih (by dsimp only; omega)]
      simp only [hcnt, putBits]
      rfl

/-- `WriteByte` with `c` bits pending: the high `8 - c` bits of the byte fill the buffer, the others wait in the next one
(R101). -/
theorem writeByte_eq (v : Byte) (s : State) :
    writeByte v s = { emit (putBits s.wbuf s.wcnt.toNat (topBits v (8 - s.wcnt.toNat))) s with
      wbuf := putBits 0#8 0 (lowBits v s.wcnt.toNat), wcnt := s.wcnt } := by
  have hc : s.wcnt.toNat < 8 := s.wcnt.isLt
  have htop := topBits_length v (8 - s.wcnt.toNat) (by omega)
  have hlow := lowBits_length v s.wcnt.toNat (by omega)
  have hcnt : 0#3 + BitVec.ofNat 3 s.wcnt.toNat = s.wcnt := by simp
  have hfull := writeBits_full (bs := topBits v (8 - s.wcnt.toNat)) (s := s) (by omega)
  have hpending := writeBits_pending (bs := lowBits v s.wcnt.toNat)
    (s := emit (putBits s.wbuf s.wcnt.toNat (topBits v (8 - s.wcnt.toNat))) s)
    (by rw [hlow]; exact (Nat.zero_add _).trans_lt hc)
  rw [writeByte, ← topBits_append_lowBits v s.wcnt.toNat, writeBits_append, hfull, hpending, hlow]
  simp only [emit, hcnt]
  rfl

/-! ### The reader -/

theorem readBit_buffered {s : State} (h : s.rcnt ≠ 0#4) :
    readBit s = .ok (s.rbuf.getLsbD (s.rcnt.toNat - 1)) { s with rcnt := s.rcnt - 1#4 } := by
  rw [readBit, refill, if_neg h, bind_ok]

/-- The fetch of R103: the byte `x` at SPOS is in RBUF, all of it waiting. -/
def fetch (x : Byte) (s : State) : State := { s with rbuf := x, rcnt := 8#4, spos := s.spos + 1 }

/-- With no bit waiting, `ReadBit` is `ReadBit` after the fetch of R103. -/
theorem readBit_fetches {s : State} (h : s.rcnt = 0#4) (hl : s.spos < s.slen) {x : Byte} (hx : s.src.read s.spos = some x) :
    readBit s = readBit (fetch x s) := by
  have hnext : srcNext s = .ok x { s with spos := s.spos + 1 } := by simp [srcNext, hl, hx]
  simp [readBit, refill, fetch, h, hnext]

/-- The first bit of a fetched byte is its bit 7 (R103). -/
theorem readBit_fetch (x : Byte) (s : State) :
    readBit (fetch x s) = .ok (x.getLsbD 7) { s with rbuf := x, rcnt := 7#4, spos := s.spos + 1 } := by
  have hcnt : (fetch x s).rcnt - 1#4 = 7#4 := (rfl : 8#4 - 1#4 = 7#4)
  rw [readBit_buffered (s := fetch x s) (by decide : 8#4 ≠ 0#4), hcnt]
  rfl

theorem readBit_endOfSource {s : State} (h : s.rcnt = 0#4) (hl : s.slen ≤ s.spos) : readBit s = .err .eos s := by
  simp [readBit, refill, h, srcNext, hl]

theorem readInto_add (m n : Nat) (v : Byte) (s : State) :
    readInto (m + n) v s = (readInto m v s).bind fun w t => readInto n w t := by
  induction m generalizing v s with
  | zero => rw [Nat.zero_add]; rfl
  | succ m ih =>
    rw [Nat.add_right_comm, readInto, readInto, bind_assoc]
    exact congrArg (readBit s).bind (funext fun b => funext fun t => ih _ t)

/-- Bits that are waiting are read off without a fetch (R104). -/
theorem readInto_buffered {n : Nat} {s : State} (v : Byte) (hn : n ≤ s.rcnt.toNat) (hc : s.rcnt.toNat ≤ 8) :
    readInto n v s =
      .ok (((lowBits s.rbuf s.rcnt.toNat).take n).foldl shiftIn v) { s with rcnt := s.rcnt - BitVec.ofNat 4 n } := by
  induction n generalizing v s with
  | zero => simp [readInto]
  | succ n ih =>
    have h0 : s.rcnt ≠ 0#4 := fun e => by rw [e] at hn; exact absurd hn (by simp)
    have hpred := rcnt_pred h0
    have hlow := lowBits_succ s.rbuf (n := s.rcnt.toNat - 1) (by omega)
    rw [Nat.sub_add_cancel (by omega)] at hlow
    rw [readInto, readBit_buffered h0, bind_ok, ih _ (by dsimp only; omega) (by dsimp only; omega), hlow, hpred,
      List.take_succ_cons, List.foldl_cons, BitVec.sub_sub, Nat.add_comm n 1, BitVec.ofNat_add]

/-- With no bit waiting, reading `n` bits, at least one and at most eight, takes the first `n` of the next byte (R103). -/
theorem readInto_fetches {n : Nat} {s : State} (v : Byte) (h : s.rcnt = 0#4) (hl : s.spos < s.slen) {x : Byte}
    (hx : s.src.read s.spos = some x) (hn : 0 < n) (h8 : n ≤ 8) :
    readInto n v s = .ok ((topBits x n).foldl shiftIn v)
      { s with rbuf := x, rcnt := 8#4 - BitVec.ofNat 4 n, spos := s.spos + 1 } := by
  have hfetch : readInto n v s = readInto n v (fetch x s) := by
    obtain ⟨m, rfl⟩ := Nat.exists_eq_add_one.2 hn
    rw [readInto, readBit_fetches h hl hx, ← readInto]
  exact hfetch.trans (readInto_buffered (s := fetch x s) v h8 (Nat.le_refl 8))

/-- The byte `RBUF[c-1 : 0] :: X[7 : c]` of R104. -/
def joinBytes (u x : Byte) (c : Nat) : Byte := byteOfBits (lowBits u c ++ topBits x (8 - c))

theorem byteBits_byteOfBits_of_length {bs : List Bool} (h : bs.length = 8) : byteBits (byteOfBits bs) = bs := by
  match bs, h with
  | [b7, b6, b5, b4, b3, b2, b1, b0], _ => exact byteBits_byteOfBits ..

theorem joinBytes_getLsbD (u x : Byte) {c j : Nat} (hc : c ≤ 8) (hj : j < 8) : (joinBytes u x c).getLsbD j =
    if 8 - c ≤ j then u.getLsbD (j - (8 - c)) else x.getLsbD (j + c) := by
  have hlow := lowBits_length u c hc
  have hbits : byteBits (joinBytes u x c) = lowBits u c ++ topBits x (8 - c) :=
    byteBits_byteOfBits_of_length (by rw [List.length_append, hlow, topBits_length _ _ (by omega)]; omega)
  have hbit := byteBits_getElem (joinBytes u x c) (7 - j) (by omega)
  rw [show 7 - (7 - j) = j by omega, hbits] at hbit
  apply Option.some.inj
  rw [← hbit]
  split
  · rw [List.getElem?_append_left (by omega), lowBits_getElem _ (by omega) hc, show c - 1 - (7 - j) = j - (8 - c) by omega]
  · rw [List.getElem?_append_right (by omega), hlow, topBits_getElem _ (by omega) (by omega),
      show 7 - (7 - j - c) = j + c by omega]

/-- `ReadByte` first takes the bits that are waiting (R104). -/
theorem readByte_after_waiting {s : State} (hc : s.rcnt.toNat ≤ 7) : readByte s =
    readInto (8 - s.rcnt.toNat) ((lowBits s.rbuf s.rcnt.toNat).foldl shiftIn 0#8) { s with rcnt := 0#4 } := by
  have hzero : s.rcnt - BitVec.ofNat 4 s.rcnt.toNat = 0#4 := by simp
  have hsplit := readInto_add s.rcnt.toNat (8 - s.rcnt.toNat) 0#8 s
  rw [Nat.add_sub_cancel' (by omega)] at hsplit
  rw [readByte, hsplit, readInto_buffered _ (Nat.le_refl _) (by omega), bind_ok, hzero,
    List.take_of_length_le (by rw [lowBits_length _ _ (by omega)])]

/-- `ReadByte` with `c` bits waiting and a byte to come (R104). -/
theorem readByte_joins {s : State} (hc : s.rcnt.toNat ≤ 7) (hl : s.spos < s.slen) {x : Byte}
    (hx : s.src.read s.spos = some x) :
    readByte s = .ok (joinBytes s.rbuf x s.rcnt.toNat) { s with rbuf := x, spos := s.spos + 1 } := by
  have hcnt : 8#4 - BitVec.ofNat 4 (8 - s.rcnt.toNat) = s.rcnt := by
    bv_omega
  have hnext := readInto_fetches (s := { s with rcnt := 0#4 }) ((lowBits s.rbuf s.rcnt.toNat).foldl shiftIn 0#8) rfl hl hx
    (n := 8 - s.rcnt.toNat) (by omega) (by omega)
  rw [readByte_after_waiting hc, hnext, ← List.foldl_append, hcnt]
  rfl

/-- `ReadByte` with `c` bits waiting and no byte to come consumes them (R104). -/
theorem readByte_endOfSource {s : State} (hc : s.rcnt.toNat ≤ 7) (hl : s.slen ≤ s.spos) :
    readByte s = .err .eos { s with rcnt := 0#4 } := by
  rw [readByte_after_waiting hc, show 8 - s.rcnt.toNat = 7 - s.rcnt.toNat + 1 by omega, readInto,
    readBit_endOfSource (s := { s with rcnt := 0#4 }) rfl hl, bind_err]

/-! ### Runs -/

/-- WBIT for each bit in turn is the bit writer's run (R105). -/
theorem execAll_wbit (bs : List Bool) (is : List Instr) (s : State) :
    execAll (bs.map .wbit ++ is) s = execAll is (writeBits bs s) := by
  induction bs generalizing s with
  | nil => rfl
  | cons b bs ih => exact ih (writeBit b s)

/-- The bits left are read in order (R103). -/
theorem readBits_some {s : State} (h : ReaderOk s) {bs rest : List Bool} (hb : s.bitsLeft = bs ++ rest) :
    ∃ t, readBits bs.length s = .ok bs t ∧ t.bitsLeft = rest ∧ ReaderOk t := by
  induction bs generalizing s with
  | nil => exact ⟨s, rfl, hb, h⟩
  | cons b bs ih =>
    obtain ⟨t, e, ht, hr, -⟩ := readBit_some h hb
    obtain ⟨u, eu, hu, hru⟩ := ih hr ht
    exact ⟨u, by rw [List.length_cons, readBits, e, bind_ok, eu, bind_ok], hu, hru⟩

/-- Nothing is written yet where the sink and the buffer are empty (R61). -/
theorem bitsWritten_nil {s : State} (h : s.dst.covers s.dpos) (hd : s.dpos = 0) (hc : s.wcnt = 0#3) : s.bitsWritten = [] := by
  have hdst : s.dst = [] := List.length_eq_zero_iff.1 ((covers_length h).trans hd)
  rw [State.bitsWritten, State.output, hdst, hc]
  rfl

/-- RBIT at the end of the source records E_EOS and its own word (R108, R201). -/
theorem exec_rbit_endOfSource {s : State} (h : readBit s = .err .eos s) :
    exec .rbit s = .next { s with err := 2#8, errCmd := 0x1300#16 } := by
  rw [exec_rbit, h, bind_err]
  exact congrArg _ (raise_step (i := .rbit) rfl nofun nofun .eos s)

end Sys2Proof.Laws
end

section
/-! The statements about the bit stream: what WBIT, WBYTE and FLUSH write, what RBIT and RBYTE read, and that the reader
inverts the writer. -/

namespace Sys2Proof.Laws

open Sys2Proof.Machine

/-- Settles O21: the flushed sink holds the bits and fewer than eight zeros, and they are the bits the reader has left. -/
theorem readerInvertsWriter : Obligations.ReaderInvertsWriter := by
  unfold Obligations.ReaderInvertsWriter
  intro bs s t r hinv hwcnt hdpos hrun hsrc hcov hrcnt hspos
  rw [execAll_wbit] at hrun
  have ht : flush (writeBits bs s) = t := by cases hrun; rfl
  obtain ⟨-, -, pad, hpad, hout⟩ := flush_writeBits (writerOk_of_inv hinv) ht
  rw [bitsWritten_nil hinv.sink hdpos hwcnt, List.nil_append] at hout
  have hlen := congrArg List.length hout
  rw [flatMap_byteBits_length, List.length_append, List.length_replicate] at hlen
  have hleft : r.bitsLeft = (bs ++ List.replicate pad false) ++ [] := by
    rw [State.bitsLeft, hrcnt, hspos, hsrc, List.drop_zero, hout, List.append_nil]
    rfl
  obtain ⟨u, eu, hu, hru⟩ := readBits_some ⟨hcov, by rw [hrcnt]; decide⟩ hleft
  rw [List.length_append, List.length_replicate, ← hlen] at eu
  refine ⟨by omega, u, ?_, exec_rbit_endOfSource (readBit_none hru hu)⟩
  rw [eu, hlen, Nat.add_sub_cancel_left]

/-- Settles O16: the eighth bit emits the buffer, any other one waits in it. -/
theorem wbitWritesOneBit : Obligations.WbitWritesOneBit := by
  unfold Obligations.WbitWritesOneBit
  intro b s
  refine ⟨setBit s.wbuf (7 - s.wcnt.toNat) b, fun j hj => setBit_getLsbD _ _ _ _ hj, fun h => ?_, fun h => ?_⟩
  · rw [exec_wbit, writeBit_pending b h]
  · exact ⟨_, by rw [exec_wbit, writeBit_full b h], emit_spec _ s⟩

/-- Settles O17: the high bits of the byte fill the buffer, which is emitted, and the low ones wait in the next. -/
theorem wbyteWritesEightBits : Obligations.WbyteWritesEightBits := by
  unfold Obligations.WbyteWritesEightBits
  intro v s
  have hc : s.wcnt.toNat < 8 := s.wcnt.isLt
  have htop := topBits_length v (8 - s.wcnt.toNat) (by omega)
  have hlow := lowBits_length v s.wcnt.toNat (by omega)
  obtain ⟨-, hread, hother⟩ := emit_spec (putBits s.wbuf s.wcnt.toNat (topBits v (8 - s.wcnt.toNat))) s
  refine ⟨_, _, (exec_wbyte v s).trans (congrArg _ (writeByte_eq v s)), rfl, hread, fun j hj => ?_, fun j hj => ?_, hother⟩
  · rw [putBits_getLsbD _ (by omega) hj, htop]
    by_cases hold : 8 - s.wcnt.toNat ≤ j
    · rw [if_neg (by omega), if_pos hold]
    · rw [if_pos (by omega), if_neg hold, topBits_getElem _ (by omega) (by omega), Option.getD_some,
        show 7 - (7 - s.wcnt.toNat - j) = j + s.wcnt.toNat by omega]
  · show (putBits 0#8 0 (lowBits v s.wcnt.toNat)).getLsbD j = _
    rw [putBits_getLsbD _ (by omega) hj, hlow]
    by_cases hnew : 8 - s.wcnt.toNat ≤ j
    · rw [if_pos (by omega), if_pos hnew, lowBits_getElem _ (by omega) (by omega), Option.getD_some,
        show s.wcnt.toNat - 1 - (7 - 0 - j) = j - (8 - s.wcnt.toNat) by omega]
    · rw [if_neg (by omega), if_neg hnew, BitVec.getLsbD_zero]

/-- Settles O19, by RCNT and the source. -/
theorem rbitReadsOneBit : Obligations.RbitReadsOneBit := by
  unfold Obligations.RbitReadsOneBit
  have bitByte_eq : ∀ b, bitByte b = if b then 1#8 else 0#8 := by decide
  intro s
  refine ⟨fun h => ?_, fun v h hl hv => ?_, fun h hl => exec_rbit_endOfSource (readBit_endOfSource h hl)⟩
  · rw [exec_rbit, readBit_buffered h, bind_ok, bitByte_eq]
    rfl
  · rw [exec_rbit, readBit_fetches h hl hv, readBit_fetch, bind_ok, bitByte_eq]
    rfl

/-- Settles O20: `ReadByte` joins the bits waiting with the next byte, or loses them when there is none. -/
theorem rbyteReadsEightBits : Obligations.RbyteReadsEightBits := by
  unfold Obligations.RbyteReadsEightBits
  intro s hc
  refine ⟨fun x hl hx => ⟨joinBytes s.rbuf x s.rcnt.toNat, fun j hj => joinBytes_getLsbD _ _ (by omega) hj, ?_⟩, fun hl => ?_⟩
  · rw [exec_rbyte, readByte_joins hc hl hx, bind_ok]
    rfl
  · rw [exec_rbyte, readByte_endOfSource hc hl, bind_err]
    exact congrArg _ (raise_step (i := .rbyte) rfl nofun nofun .eos _)

/-- Settles O18: a partial byte is emitted as it stands in WBUF. -/
theorem flushPadsThePartialByte : Obligations.FlushPadsThePartialByte := by
  unfold Obligations.FlushPadsThePartialByte
  intro s
  refine ⟨fun h => ?_, fun h => ⟨emit s.wbuf s, ?_, emit_spec s.wbuf s⟩⟩
  · rw [exec_flush, flush_empty h]
  · rw [exec_flush, flush_pending h]

end Sys2Proof.Laws
end

section
/-! The statements about the frequency table: what FCLR, FCOUNT and ANALYZE make of it, and that ANALYZE counts the multiset
of the source bytes. -/

namespace Sys2Proof.Laws

open Sys2Proof.Machine

/-! ### The table that ANALYZE makes -/

/-- Tables that agree on every symbol are the same. -/
theorem freq_ext {s t : State} (h : ∀ v, s.freqAt v = t.freqAt v) : s.freq = t.freq := by
  refine Vector.ext fun i hi => ?_
  have hv : (BitVec.ofNat 8 i).toNat = i := Nat.mod_eq_of_lt hi
  simpa [State.freqAt, hv] using h (BitVec.ofNat 8 i)

/-- A frame over the counters is exact once LEN and SPOS are known. -/
theorem CountOnly.eq_of_len_spos {s t : State} {n : Count} {p : Nat} (h : CountOnly s t) (hl : t.len = n)
    (hp : t.spos = p) : t = { s with freq := t.freq, len := n, spos := p } := by
  subst hl hp
  exact h

/-- ANALYZE of a source below 2^32 bytes ends in the counts of its bytes (R124, R125). -/
theorem freqAt_of_exec_analyze {s t : State} (hs : s.src.covers s.slen) (hl : s.slen < 2 ^ 32)
    (e : exec .analyze s = .next t) (v : Byte) : (t.freqAt v).toNat = s.src.bytes.count v := by
  rcases analyze_spec hs with ⟨-, a, ea, -, -, -, -, hf⟩ | ⟨hge, -⟩
  · rw [exec_analyze, finish_ok ea] at e
    cases e
    exact hf v
  · omega

theorem keys_length_le (s : State) : s.keys.length ≤ 256 :=
  (List.length_filter_le _ _).trans_eq allSymbols_length

/-- SEED makes one arena entry for each key (R134). -/
theorem exec_seed_ncount (s : State) : ∃ x, exec .seed s = .next x ∧ x.ncount = s.keys.length := by
  obtain ⟨x, e, -, hn, -⟩ := seed_spec s
  refine ⟨x, finish_ok e, ?_⟩
  rw [State.ncount, hn, List.length_map, ← keysOf_fst, List.length_map]

/-! ### The settled statements -/

/-- Settles O25, by the two cases of the source's length. -/
theorem analyzeCountsTheSource : Obligations.AnalyzeCountsTheSource := by
  unfold Obligations.AnalyzeCountsTheSource
  intro s hs
  rcases analyze_spec hs with ⟨hlt, t, e, ho, -, hl, hp, hf⟩ | ⟨hge, t, e, ho, hl, hp, hf⟩
  · have hlen : t.len = BitVec.ofNat 32 s.slen :=
      BitVec.eq_of_toNat_eq (by rw [hl, BitVec.toNat_ofNat, Nat.mod_eq_of_lt hlt])
    exact ⟨t, finish_ok e, fun _ => ⟨ho.eq_of_len_spos hlen hp, hf⟩, fun h => by omega⟩
  · have hraise : exec .analyze s = .next { t with err := 4#8, errCmd := 0x2200#16 } :=
      (finish_err e).trans (congrArg _ (raise_step (i := .analyze) rfl nofun nofun .countOverflow t))
    have hframe := ho.eq_of_len_spos hl hp
    refine ⟨_, hraise, fun h => by omega, fun _ => ⟨?_, hf⟩⟩
    exact congrArg (fun u : State => { u with err := 4#8, errCmd := 0x2200#16 }) hframe

/-- Settles O26: permuted sources have the same counts, and a key is a symbol whose count is not 0. -/
theorem tableIsOfTheMultiset : Obligations.TableIsOfTheMultiset := by
  unfold Obligations.TableIsOfTheMultiset
  intro s u t t' hs hu hl hperm et eu
  have hul : u.slen < 2 ^ 32 := by
    have h := hperm.length_eq
    rw [bytes_length, bytes_length, covers_length hs, covers_length hu] at h
    omega
  have ht := freqAt_of_exec_analyze hs hl et
  have ht' := freqAt_of_exec_analyze hu hul eu
  refine ⟨freq_ext fun v => BitVec.eq_of_toNat_eq ?_, fun v => mem_keys.symm.trans (mem_keys_of ht v), keys_length_le t,
    exec_seed_ncount t⟩
  rw [ht, ht', hperm.count_eq]

/-- Settles O24, by whether a counter is full. -/
theorem fcountCountsOneSymbol : Obligations.FcountCountsOneSymbol := by
  unfold Obligations.FcountCountsOneSymbol
  intro v s
  refine ⟨fun h => ?_, fun hl hf => ?_⟩
  · exact (finish_err (count_err h)).trans
      (congrArg _ (raise_step (i := .fcount v) rfl nofun nofun .countOverflow s))
  · refine ⟨_, finish_ok (count_ok hl hf), rfl, ?_, fun w hw => ?_⟩
    · exact (freqAt_setFreq s v v _).trans (if_pos rfl)
    · exact (freqAt_setFreq s v w _).trans (if_neg hw)

/-- Settles O23: `FreqClear` replaces the table and LEN only, and every entry of its table reads as 0. -/
theorem fclrEmptiesTheTable : Obligations.FclrEmptiesTheTable := by
  unfold Obligations.FclrEmptiesTheTable
  exact fun s => ⟨freqClear s, exec_fclr s, rfl, freqAt_freqClear s⟩

end Sys2Proof.Laws
end

section
/-! SUPPORT. The tree builder's commands as their statements need them: the root that `SetRoot` leaves, the pair MERGE takes in
terms of `Less`, the tree of a BUILD that fits 32 bits and its cost, BUILD as a run of commands, and that BUILD reads FREQ only. -/

namespace Sys2Proof.Laws

open Sys2Proof.Machine

/-! ### The root (R133) -/

/-- ROOTV says whether one entry is left in the heap. -/
theorem rootv_of_setRoot {s : State} (h : setRoot s = s) : s.rootv = decide (s.heap.length = 1) := by
  rcases setRoot_cases s with ⟨r, hh, -, hv⟩ | ⟨hl, -, hv⟩ <;> rw [h] at hv
  · simp [hv, hh]
  · simp [hv, hl]

theorem root_of_singleton {s : State} {r : Nat} (h : setRoot s = s) (hh : s.heap = [r]) : s.root = r := by
  rw [← h]
  simp [setRoot, hh]

theorem root_of_length_ne {s : State} (h : setRoot s = s) (hl : s.heap.length ≠ 1) : s.root = 0 := by
  rcases setRoot_cases s with ⟨r, hh, -⟩ | ⟨-, hr, -⟩
  · simp [hh] at hl
  · rwa [h] at hr

/-! ### The keys, and the leaves they make (R134) -/

theorem keysOf_length_eq (s : State) : (keysOf s.freqTable).length = s.keys.length := by
  rw [keysOf_freqTable, List.length_map]

theorem keysOf_seedLeaf (s : State) :
    (keysOf s.freqTable).map seedLeaf = s.keys.map fun v => some (.leaf v (s.freqAt v) v) := by
  rw [keysOf_freqTable, List.map_map]
  rfl

theorem keysOf_eq_nil {s : State} : keysOf s.freqTable = [] ↔ s.keys = [] := by
  rw [keysOf_freqTable, List.map_eq_nil_iff]

/-- Where the seeds are the first arena entries (R139). -/
theorem take_seeds {s : State} {ns xs : List (Option Node)} (h : ns = (keysOf s.freqTable).map seedLeaf ++ xs) :
    ns.take s.keys.length = s.keys.map fun v => some (.leaf v (s.freqAt v) v) := by
  rw [h, keysOf_seedLeaf]
  exact List.take_left' (List.length_map _)

/-! ### Least keys (R130) -/

/-- Of written entries, `Less` denies that `i` comes before an entry of no greater key. -/
theorem less_eq_false {ns : List (Option Node)} {i j : Nat} {a b : Node} (hi : nodeAt ns i = some a)
    (hj : nodeAt ns j = some b) (h : keyOf ns j ≤ keyOf ns i) : less ns i j = some false := by
  rw [less_eq hi hj, decide_eq_false (by omega)]

/-- In an ordered heap, no entry is `Less` than the first node MERGE takes, and none left is `Less` than the second. -/
theorem MergePair.least_less {s : State} {a b : Nat} {rest : List Nat} {x y : Node} (mp : MergePair s a b rest x y)
    (w : Written s.node s.heap) (o : s.HeapOrdered) :
    (∀ i ∈ s.heap, less s.node i a = some false) ∧ ∀ i ∈ b :: rest, less s.node i b = some false := by
  refine ⟨fun i hi => ?_, fun i hi => ?_⟩
  · obtain ⟨n, hn⟩ := w i hi
    exact less_eq_false hn mp.nodeA (mp.least o i hi)
  · obtain ⟨n, hn⟩ := w i (mp.perm.mem_iff.1 (List.mem_cons_of_mem a hi))
    exact less_eq_false hn mp.nodeB (mp.second o i hi)

/-- The `minsym` is part of the key: written entries of equal key have the same one. -/
theorem minsym_eq_of_keyOf_eq {ns : List (Option Node)} {i j : Nat} {a b : Node} (hi : nodeAt ns i = some a)
    (hj : nodeAt ns j = some b) (h : keyOf ns i = keyOf ns j) : a.minsym = b.minsym := by
  have ha : a.minsym.toNat < 256 := a.minsym.isLt
  have hb : b.minsym.toNat < 256 := b.minsym.isLt
  simp only [keyOf, hi, hj, Option.elim_some, keyNat] at h
  exact BitVec.eq_of_toNat_eq (by omega)

/-- Two entries of a heap with distinct leaves share no leaf (R140). -/
theorem Distinct.disjoint {ns : List (Option Node)} {h : List Nat} (d : Distinct ns h) {i j : Nat} (hi : i ∈ h) (hj : j ∈ h)
    (hij : i ≠ j) : List.Disjoint (leavesBelow ns i) (leavesBelow ns j) := by
  have pairwise := (List.nodup_flatMap.1 d.leaves).2
  have symm : Std.Symm (Function.onFun List.Disjoint (leavesBelow ns)) := ⟨fun _ _ hd => hd.symm⟩
  exact pairwise.forall hi hj hij

/-- Different entries of a heap with distinct leaves have different keys (R140). -/
theorem Distinct.keyOf_ne {ns : List (Option Node)} {h : List Nat} (d : Distinct ns h) {i j : Nat} (hi : i ∈ h) (hj : j ∈ h)
    (hij : i ≠ j) : keyOf ns i ≠ keyOf ns j := by
  intro e
  obtain ⟨a, ha, hma⟩ := d.minsym i hi
  obtain ⟨b, hb, hmb⟩ := d.minsym j hj
  rw [minsym_eq_of_keyOf_eq ha hb e] at hma
  exact d.disjoint hi hj hij hma hmb

/-- Where `Merge` raises, MERGE records it and changes nothing else of the state reached (R201). -/
theorem exec_merge_raises {s t : State} {x : ErrorKind} (e : merge s = .err x t) :
    exec .merge s = .next { t with err := x.code, errCmd := 0x3100#16 } :=
  (finish_err e).trans (congrArg _ (raise_step (i := .merge) rfl nofun nofun x t))

/-- Likewise for BUILD. -/
theorem exec_build_raises {s t : State} {x : ErrorKind} (e : build s = .err x t) :
    exec .build s = .next { t with err := x.code, errCmd := 0x3200#16 } :=
  (finish_err e).trans (congrArg _ (raise_step (i := .build) rfl nofun nofun x t))

/-- A change of the heap alone and the record of an error, in one frame. -/
theorem HeapOnly.raised {s t : State} (o : HeapOnly s t) (e : Byte) (w : Word) :
    { t with err := e, errCmd := w } = { s with heap := t.heap, err := e, errCmd := w } :=
  congrArg (fun v : State => { v with err := e, errCmd := w }) o

/-- With the pair out of the heap (R206) the entries left are written. -/
theorem MergePair.written_rest {s t : State} {a b : Nat} {rest : List Nat} {x y : Node} (mp : MergePair s a b rest x y)
    (f : ForestOk s.node s.heap) (o : HeapOnly s t) (hp : t.heap.Perm rest) : Written t.node t.heap := by
  rw [o.node]
  exact ((f.perm mp.perm).tail.tail.perm hp).written

/-! ### The tree BUILD makes (R136) -/

/-- `t` is `s` with the whole Huffman tree `T` of its keys: the leaves first in the arena, the root last, and no other entry
in the heap. -/
structure Built (s t : State) (T : CodeTree) : Prop where
  frame : TreeOnly s t
  count : t.node.length + 1 = 2 * s.keys.length
  rootLast : t.root + 1 = t.node.length
  rootv : t.rootv = true
  heap : t.heap = [t.root]
  seeds : t.node.take s.keys.length = s.keys.map fun v => some (.leaf v (s.freqAt v) v)
  tree : t.tree = some T
  symbols : T.symbols.Perm s.keys
  weight : ∃ x, nodeAt t.node t.root = some x ∧ x.weight.toNat = s.totalCount

theorem build_empty {s : State} (hk : s.keys = []) :
    ∃ t, build s = .ok () t ∧ TreeOnly s t ∧ t.node = [] ∧ t.heap = [] ∧ t.root = 0 ∧ t.rootv = false := by
  have hsum : s.totalCount = 0 := by rw [← keysOf_sum, keysOf_eq_nil.2 hk]; rfl
  rcases build_spec s with ⟨-, t, e, o, -, hr, h0, -⟩ | ⟨hw, -⟩
  · obtain ⟨hn, hh⟩ := h0 (keysOf_eq_nil.2 hk)
    exact ⟨t, e, o, hn, hh, root_of_length_ne hr (by simp [hh]), by simp [rootv_of_setRoot hr, hh]⟩
  · rw [keysOf_sum] at hw; omega

/-- BUILD on counts that fit and a key: `build_tree` names the tree and its leaves, `build_spec` the arena around it. -/
theorem build_built {s : State} (h : s.totalCount < 2 ^ 32) (hk : s.keys ≠ []) :
    ∃ t T, build s = .ok () t ∧ Built s t T := by
  obtain ⟨t, e, o, -, htree⟩ := build_tree h
  obtain ⟨T, hT, hsyms⟩ := htree hk
  rcases build_spec s with ⟨-, t', e', -, f, hr, -, hsome, -, hw, xs, hx⟩ | ⟨hw, -⟩
  · cases e.symm.trans e'
    obtain ⟨hcount, hheap⟩ := hsome (mt keysOf_eq_nil.1 hk)
    have hroot := root_of_singleton hr hheap
    rw [← hroot] at hheap
    obtain ⟨x, hnode⟩ := f.written t.root (by simp [hheap])
    have hweight : x.weight.toNat = s.totalCount := by
      rw [keysOf_sum, hheap] at hw
      simpa [heapWeight, weightOf, hnode] using hw
    have hpos := List.length_pos_iff.2 hk
    rw [keysOf_length_eq] at hcount
    exact ⟨t, T, e, o, hcount, by omega, (tree_some hT).1, hheap, take_seeds hx, hT, hsyms, x, hnode, hweight⟩
  · rw [keysOf_sum] at hw; omega

/-! ### What the tree costs (R142) -/

/-- In a tree with distinct leaf symbols the code of a leaf's symbol is that leaf's path. -/
theorem codeOf_of_mem {T : CodeTree} (hd : T.symbols.Nodup) {v : Byte} {p : List Bool} (h : (v, p) ∈ T.paths) :
    T.codeOf v = some p := by
  rw [← paths_symbols] at hd
  obtain ⟨q, hq⟩ := codeOf_isSome.2 (paths_symbols T ▸ List.mem_map_of_mem h)
  cases List.inj_on_of_nodup_map hd h (codeOf_mem hq) rfl
  exact hq

theorem Built.nodup {s t : State} {T : CodeTree} (b : Built s t T) : T.symbols.Nodup :=
  b.symbols.nodup_iff.2 (keys_nodup s)

theorem Built.path_mem {s t : State} {T : CodeTree} (b : Built s t T) {v : Byte} (hv : v ∈ s.keys) :
    (v, (T.codeOf v).getD []) ∈ T.paths := by
  obtain ⟨p, hp⟩ := codeOf_isSome.2 (b.symbols.mem_iff.2 hv)
  simpa [hp] using codeOf_mem hp

theorem Built.prefixFree {s t : State} {T : CodeTree} (b : Built s t T) :
    PrefixFree s.keys fun v => (T.codeOf v).getD [] := fun _ hv _ hw h =>
  congrArg Prod.fst (paths_prefix_free (b.path_mem hv) (b.path_mem hw) h)

/-- The bits the tree's codes need are the sum over its leaves of count times depth. -/
theorem Built.codedBits_eq {s t : State} {T : CodeTree} (b : Built s t T) :
    s.codedBits (fun v => (T.codeOf v).getD []) = pathCost (fun v => (s.freqAt v).toNat) T := by
  have hperm := b.symbols.symm.map fun v => (s.freqAt v).toNat * ((T.codeOf v).getD []).length
  rw [State.codedBits, hperm.sum_eq, ← paths_symbols, List.map_map, pathCost]
  refine congrArg List.sum (List.map_congr_left fun c hc => ?_)
  simp [codeOf_of_mem b.nodup hc]

/-- The merges of BUILD are Huffman's on the counts of the keys, and the tree's cost is the sum of the weights they make. -/
theorem Built.greedy {s t : State} {T : CodeTree} (e : build s = .ok () t) (b : Built s t T) :
    Greedy (s.keys.map fun v => (s.freqAt v).toNat : List Nat) (pathCost (fun v => (s.freqAt v).toNat) T) := by
  obtain ⟨a, ea, -, -, -, -, fa, -, -, oa⟩ := seed_spec s
  rw [build, ea, bind_ok] at e
  obtain ⟨hweighed, hzero, hcounts⟩ := seed_weighed ea
  obtain ⟨c, hg, hc⟩ := mergeAll_greedy fa oa (Nat.le_refl _) hweighed e
  obtain ⟨-, hT⟩ := tree_some b.tree
  have hcost : pathCost (fun v => (s.freqAt v).toNat) T = c := by
    rw [hzero, Nat.zero_add] at hc
    simpa [heapCost, costBelow, b.heap, hT] using hc
  rwa [Multiset.coe_eq_coe.2 hcounts, ← hcost] at hg

theorem pairwise_of_prefixFree {vs : List Byte} {code : Byte → List Bool} (h : PrefixFree vs code) (hd : vs.Nodup) :
    (vs.map code).Pairwise fun p q => ¬p <+: q ∧ ¬q <+: p := by
  rw [List.pairwise_map]
  exact hd.imp_of_mem fun hv hw hne => ⟨fun hp => hne (h _ hv _ hw hp), fun hp => hne (h _ hw _ hv hp).symm⟩

/-- Kraft, with the sum of the lengths for the bound on each of them. -/
theorem exists_kraft_le {cs : List (List Bool)} (h : cs.Pairwise fun p q => ¬p <+: q ∧ ¬q <+: p) :
    ∃ m, (∀ c ∈ cs, c.length ≤ m) ∧ kraft m (cs.map List.length : List Nat) ≤ 2 ^ m := by
  have hle : ∀ c ∈ cs, c.length ≤ (cs.map List.length).sum := fun c hc => List.le_sum_of_mem (List.mem_map_of_mem hc)
  exact ⟨_, hle, kraft_le h hle⟩

/-- Each key's count with the length of its code: what `codedBits` multiplies. -/
def keyItems (s : State) (code : Byte → List Bool) : List (Nat × Nat) :=
  s.keys.map fun v => ((s.freqAt v).toNat, (code v).length)

theorem keyItems_fst (s : State) (code : Byte → List Bool) :
    (keyItems s code).map Prod.fst = s.keys.map fun v => (s.freqAt v).toNat := List.map_map

theorem keyItems_snd (s : State) (code : Byte → List Bool) :
    (keyItems s code).map Prod.snd = (s.keys.map code).map List.length := by
  simp [keyItems, Function.comp_def]

theorem codeCost_keyItems (s : State) (code : Byte → List Bool) :
    codeCost (keyItems s code : Multiset (Nat × Nat)) = s.codedBits code := by
  simp [codeCost, keyItems, State.codedBits, Function.comp_def]

/-- No `PrefixFree` code for the keys needs fewer bits than Huffman's merges of their counts: by Kraft its lengths fit. -/
theorem greedy_le_codedBits {s : State} {c : Nat} {code : Byte → List Bool}
    (hg : Greedy (s.keys.map fun v => (s.freqAt v).toNat : List Nat) c) (hp : PrefixFree s.keys code) :
    c ≤ s.codedBits code := by
  obtain ⟨m, hm, hkraft⟩ := exists_kraft_le (pairwise_of_prefixFree hp (keys_nodup s))
  rw [← keyItems_snd] at hkraft
  rw [← codeCost_keyItems]
  refine greedy_le hg _ (keyItems s code) rfl (congrArg _ (keyItems_fst s code)) m (fun p hp => ?_) hkraft
  obtain ⟨v, hv, rfl⟩ := List.mem_map.1 hp
  exact hm _ (List.mem_map_of_mem hv)

/-! ### BUILD as a run of commands (R138) -/

theorem execAll_cons {i : Instr} {is : List Instr} {s t : State} (h : exec i s = .next t) :
    execAll (i :: is) s = execAll is t := by
  simp only [execAll, h]

/-- Where the merges of `Build` end well they are MERGE commands, one less than the heap has entries. -/
theorem execAll_merges {n : Nat} {s t : State} (f : ForestOk s.node s.heap) (hn : s.heap.length ≤ n)
    (e : mergeAll n s = .ok () t) : execAll (List.replicate (s.heap.length - 1) .merge) s = .next t := by
  induction n generalizing s with
  | zero =>
    cases e
    rw [Nat.le_zero.1 hn]
    rfl
  | succ n ih =>
    by_cases h1 : 1 < s.heap.length
    · rw [mergeAll, if_pos h1] at e
      obtain ⟨a, b, rest, x, y, mp, ⟨-, u, eu, -⟩ | ⟨-, u, eu, -, -, hp, -, fu, -⟩⟩ := merge_cases f h1
      · rw [eu] at e; cases e
      · rw [eu, bind_ok] at e
        have hl : rest.length + 2 = s.heap.length := mp.perm.length_eq
        have hul : u.heap.length = rest.length + 1 := hp.length_eq
        have hcount : s.heap.length - 1 = u.heap.length - 1 + 1 := by omega
        have hmerge : exec .merge s = .next u := finish_ok eu
        rw [hcount, List.replicate_succ, execAll_cons hmerge]
        exact ih fu (by omega) e
    · rw [mergeAll, if_neg h1] at e
      cases e
      rw [Nat.sub_eq_zero_of_le (by omega)]
      rfl

theorem execAll_build {s t : State} (e : build s = .ok () t) :
    execAll (.seed :: List.replicate (s.keys.length - 1) .merge) s = .next t := by
  obtain ⟨a, ea, -, -, hp, -, fa, -⟩ := seed_spec s
  rw [build, ea, bind_ok] at e
  have hl : a.heap.length = s.keys.length := by rw [hp.length_eq, List.length_range, keysOf_length_eq]
  have hseed : exec .seed s = .next a := finish_ok ea
  rw [execAll_cons hseed, ← hl]
  exact execAll_merges fa (Nat.le_refl _) e

/-! ### BUILD reads FREQ only (R140) -/

/-- `s` with the tree and the heap of `t`. -/
def withTreeOf (s t : State) : State := { s with node := t.node, root := t.root, rootv := t.rootv, heap := t.heap }

@[simp] theorem withTreeOf_node (s t : State) : (withTreeOf s t).node = t.node := rfl
@[simp] theorem withTreeOf_heap (s t : State) : (withTreeOf s t).heap = t.heap := rfl

/-- The same ending, in the state `s` with the tree and the heap reached. -/
def endingIn {α : Type} (s : State) : Res α → Res α
  | .ok a t => .ok a (withTreeOf s t)
  | .err e t => .err e (withTreeOf s t)
  | .stuck x => .stuck x

/-- How the micro-operation ends, and the tree and the heap it leaves, depend on the tree and the heap alone. -/
def OfTree {α : Type} (f : State → Res α) : Prop := ∀ s t, f (withTreeOf s t) = endingIn s (f t)

theorem OfTree.bind {α β : Type} {f : State → Res α} {g : α → State → Res β} (hf : OfTree f) (hg : ∀ a, OfTree (g a)) :
    OfTree fun s => (f s).bind g := by
  intro s t
  show (f (withTreeOf s t)).bind g = endingIn s ((f t).bind g)
  rw [hf s t]
  cases f t with
  | ok a u => exact hg a s u
  | err e u => rfl
  | stuck x => rfl

theorem OfTree.ite {α : Type} {p : State → Prop} [DecidablePred p] {f g : State → Res α}
    (hp : ∀ s t, p (withTreeOf s t) ↔ p t) (hf : OfTree f) (hg : OfTree g) : OfTree fun s => if p s then f s else g s := by
  intro s t
  by_cases h : p t
  · simpa only [if_pos h, if_pos ((hp s t).2 h)] using hf s t
  · simpa only [if_neg h, if_neg (mt (hp s t).1 h)] using hg s t

theorem heapInsert_ofTree (i : Nat) : OfTree (heapInsert i) := by
  intro s t
  simp only [heapInsert, withTreeOf_node, withTreeOf_heap]
  split <;> rfl

/-- A new node is allocated and joins the heap (R134, R135). -/
theorem insertNew_ofTree (n : Option Node) : OfTree fun s => heapInsert s.node.length (allocNode n s) :=
  fun s t => heapInsert_ofTree t.node.length s (allocNode n t)

theorem heapExtractMin_ofTree : OfTree heapExtractMin := by
  intro s t
  simp only [heapExtractMin, withTreeOf_node, withTreeOf_heap]
  split
  · rfl
  · split
    · rfl
    · split <;> rfl

theorem setRoot_ofTree : OfTree fun s => .ok () (setRoot s) := by
  intro s t
  simp only [setRoot, withTreeOf_heap]
  split <;> rfl

theorem mergePair_ofTree (a b : Nat) : OfTree (mergePair a b) := by
  intro s t
  simp only [mergePair, withTreeOf_node]
  split
  next x y _ _ =>
    split
    · rfl
    · exact ((insertNew_ofTree (some (mergedNode a b x y))).bind fun _ => setRoot_ofTree) s t
  next => rfl

theorem merge_ofTree : OfTree merge :=
  OfTree.ite (p := fun s => s.heap.length < 2) (fun _ _ => Iff.rfl) (fun _ _ => rfl)
    (heapExtractMin_ofTree.bind fun a => heapExtractMin_ofTree.bind fun b => mergePair_ofTree a b)

theorem mergeAll_ofTree (n : Nat) : OfTree (mergeAll n) := by
  induction n with
  | zero => exact fun _ _ => rfl
  | succ n ih =>
    exact OfTree.ite (p := fun s => 1 < s.heap.length) (fun _ _ => Iff.rfl) (merge_ofTree.bind fun _ => ih) fun _ _ => rfl

theorem seedAll_ofTree (table : List (Byte × Count)) : OfTree (seedAll table) := by
  induction table with
  | nil => exact fun _ _ => rfl
  | cons c rest ih =>
    intro s t
    unfold seedAll
    split
    · exact ih s t
    · exact ((insertNew_ofTree (some (.leaf c.1 c.2 c.1))).bind fun _ => ih) s t

/-- `Build` from the table and the tree and the heap there are. -/
theorem buildFrom_ofTree (table : List (Byte × Count)) : OfTree fun s =>
    ((seedAll table s).bind fun _ s => .ok () (setRoot s)).bind fun _ s => mergeAll s.heap.length s :=
  ((seedAll_ofTree table).bind fun _ => setRoot_ofTree).bind fun _ s t => mergeAll_ofTree t.heap.length s t

/-- With the same table `Build` ends in the same way and makes the same tree; the other fields are each state's own. -/
theorem build_eq_of_freq {s u : State} (h : s.freq = u.freq) : build u = endingIn u (build s) := by
  have htable : u.freqTable = s.freqTable := by rw [State.freqTable, State.freqTable, h]
  unfold build seed
  rw [htable]
  exact buildFrom_ofTree s.freqTable u (discardTree s)

end Sys2Proof.Laws
end

section
/-! The statements about the tree builder: SEED, MERGE and BUILD, the order of the heap, and that the tree is optimal. -/

namespace Sys2Proof.Laws

open Sys2Proof.Machine

/-- Settles O33: the tree costs what Huffman's merges do (`Built.greedy`), and no `PrefixFree` code does better
(`greedy_le_codedBits`). -/
theorem builtTreeIsOptimal : Obligations.BuiltTreeIsOptimal := by
  unfold Obligations.BuiltTreeIsOptimal
  intro s h hk
  obtain ⟨t, T, e, b⟩ := build_built h hk
  refine ⟨t, T, finish_ok e, b.tree, b.prefixFree, fun code hcode => ?_⟩
  rw [b.codedBits_eq]
  exact greedy_le_codedBits (b.greedy e) hcode

/-- Settles O27: what `Seed` makes (`seed_spec`), and the root of its heap. -/
theorem seedMakesTheLeaves : Obligations.SeedMakesTheLeaves := by
  unfold Obligations.SeedMakesTheLeaves
  intro s
  obtain ⟨t, e, o, hn, hp, hr, hf, -, -, ho⟩ := seed_spec s
  rw [keysOf_length_eq] at hp
  have hl : t.heap.length = s.keys.length := by rw [hp.length_eq, List.length_range]
  have hroot : t.root = 0 := by
    by_cases h1 : s.keys.length = 1
    · rw [h1] at hp
      exact root_of_singleton hr (List.perm_singleton.1 hp)
    · exact root_of_length_ne hr (by rwa [hl])
  refine ⟨t, finish_ok e, ?_, by rw [hn, keysOf_seedLeaf], hp, (ordered_iff hf.written).1 ho⟩
  rw [← hl, ← rootv_of_setRoot hr, ← hroot]
  exact o

/-- Settles O28: MERGE on a heap too small, and the two cases of `merge_cases`. -/
theorem mergeJoinsTheTwoLeast : Obligations.MergeJoinsTheTwoLeast := by
  unfold Obligations.MergeJoinsTheTwoLeast
  refine ⟨fun s h => exec_merge_raises (merge_underflow h), fun s hi hord h2 => ?_⟩
  have f : ForestOk s.node s.heap := hi.heapForest
  have hordered := (ordered_iff f.written).2 hord
  obtain ⟨a, b, rest, x, y, mp, h⟩ := merge_cases f h2
  obtain ⟨hleast, hsecond⟩ := mp.least_less f.written hord
  have hl : rest.length + 2 = s.hsize := mp.perm.length_eq
  rcases h with ⟨hw, u, e, o, hp, ord⟩ | ⟨hw, u, e, o, hn, hp, hr, fu, ord⟩
  · have hord' := (ordered_iff (mp.written_rest f o hp)).1 (ord hordered)
    exact ⟨a, b, rest, x, y, _, mp.perm.symm, mp.nodeA, mp.nodeB, hleast, hsecond, exec_merge_raises e,
      fun _ => ⟨o.raised _ _, hp⟩, fun h => by omega, hord'⟩
  · have hul : u.heap.length = rest.length + 1 := hp.length_eq
    refine ⟨a, b, rest, x, y, u, mp.perm.symm, mp.nodeA, mp.nodeB, hleast, hsecond, finish_ok e, fun h => by omega,
      fun _ => ⟨?_, hn, ?_, hp⟩, (ordered_iff fu.written).1 (ord hordered)⟩
    · have hrootv : decide (s.hsize = 2) = u.rootv := by
        rw [rootv_of_setRoot hr]
        exact decide_eq_decide.2 (by omega)
      rw [hrootv]
      exact o
    · split
      next h =>
        rw [List.length_eq_zero_iff.1 (show rest.length = 0 by omega)] at hp
        exact root_of_singleton hr (List.perm_singleton.1 hp)
      next h => exact root_of_length_ne hr (by omega)

/-- Settles O29: the empty table (`build_empty`) and the whole tree (`build_built`). -/
theorem buildMakesTheTree : Obligations.BuildMakesTheTree := by
  unfold Obligations.BuildMakesTheTree
  intro s h
  by_cases hk : s.keys = []
  · obtain ⟨t, e, o, hempty⟩ := build_empty hk
    exact ⟨t, finish_ok e, o, fun _ => hempty, fun hne => absurd hk hne⟩
  · obtain ⟨t, T, e, b⟩ := build_built h hk
    obtain ⟨x, hx, hw⟩ := b.weight
    exact ⟨t, finish_ok e, b.frame, fun h0 => absurd h0 hk, fun _ =>
      ⟨b.count, b.rootLast, b.rootv, b.heap, b.seeds, T, x, b.tree, b.symbols, hx, hw⟩⟩

/-- Settles O30: where `Build` raises (`build_overflow`), with the pair least in the order of R130. -/
theorem buildOverflows : Obligations.BuildOverflows := by
  unfold Obligations.BuildOverflows
  intro s h
  rw [← keysOf_sum] at h
  obtain ⟨t, m, u, a, b, rest, x, y, eb, eu, ou, h0, hv0, hn, hh, ⟨xs, hx⟩, fu, ordu, ordt, mp, hw, em, o, hp⟩ :=
    build_overflow h
  have hord := (ordered_iff fu.written).1 ordu
  obtain ⟨hleast, hsecond⟩ := mp.least_less fu.written hord
  have hordt := (ordered_iff (mp.written_rest fu o hp)).1 ordt
  rw [keysOf_length_eq] at hn hh
  refine ⟨m, u, { t with err := 5#8, errCmd := 0x3200#16 }, a, b, rest, x, y, eu, ?_, hn, hh, take_seeds hx, mp.perm.symm,
    mp.nodeA, mp.nodeB, hleast, hsecond, hw, exec_build_raises eb, o.raised _ _, hp, hordt, exec_merge_raises em⟩
  rw [← h0, ← hv0]
  exact ou

/-- Settles O31, by `execAll_build`. -/
theorem buildIsSeedThenMerges : Obligations.BuildIsSeedThenMerges := by
  unfold Obligations.BuildIsSeedThenMerges
  intro s h hk
  obtain ⟨t, T, e, -⟩ := build_built h hk
  exact ⟨t, finish_ok e, execAll_build e⟩

/-- Settles O32: `Build` reads the table only (`build_eq_of_freq`), and error entry does not touch the tree. -/
theorem buildIsAFunctionOfFreq : Obligations.BuildIsAFunctionOfFreq := by
  unfold Obligations.BuildIsAFunctionOfFreq
  intro s u t t' h e e'
  have hu : build u = endingIn u (build s) := build_eq_of_freq h
  cases hb : build s with
  | ok a v =>
    rw [hb] at hu
    cases e.symm.trans (finish_ok hb)
    cases e'.symm.trans (finish_ok hu)
    exact ⟨rfl, rfl, rfl, rfl⟩
  | err x v =>
    rw [hb] at hu
    cases e.symm.trans (exec_build_raises hb)
    cases e'.symm.trans (exec_build_raises hu)
    exact ⟨rfl, rfl, rfl, rfl⟩
  | stuck x =>
    rw [exec_build, hb] at e
    cases e

/-- Settles O34: by R130 the order is that of the keys, and those differ. -/
theorem lessIsStrictOnTheHeap : Obligations.LessIsStrictOnTheHeap := by
  unfold Obligations.LessIsStrictOnTheHeap
  intro s h i hi j hj hij
  have d := heapDistinct_iff.1 h
  obtain ⟨a, ha, -⟩ := d.minsym i hi
  obtain ⟨b, hb, -⟩ := d.minsym j hj
  have hne := d.keyOf_ne hi hj hij
  refine ⟨_, less_eq ha hb, ?_⟩
  rw [less_eq hb ha, ← decide_not]
  exact congrArg some (decide_eq_decide.2 (by omega))

end Sys2Proof.Laws
end

section
/-! The statements about the code table generator: what CODEGEN records, and that the codes of distinct symbols are
prefix-free. -/

namespace Sys2Proof.Laws

open Sys2Proof.Machine

/-! ### What CODEGEN records -/

/-- CODEGEN on a tree, as a command (R150, R153). -/
theorem exec_codegen_tree {s : State} {T : CodeTree} (h : s.tree = some T) :
    ∃ t, exec .codegen s = .next t ∧ CodeOnly s t ∧ ∀ v, t.codeAt v = T.codeOf v :=
  let ⟨t, e, o, hcode⟩ := codeGen_tree h
  ⟨t, finish_ok e, o, hcode⟩

/-- `CodeGen` starts by emptying the code table, so the table it starts from does not matter. -/
theorem codeGen_eq_of_codeOnly {s t : State} (h : CodeOnly s t) : codeGen t = codeGen s := by
  unfold CodeOnly at h
  rw [h]
  rfl

/-- Only a tree of one leaf has an empty path. -/
theorem path_ne_nil {T : CodeTree} {c : Byte × List Bool} (h : c ∈ T.paths) (h2 : 2 ≤ T.symbols.length) : c.2 ≠ [] := by
  cases T with
  | leaf v => simp [CodeTree.symbols] at h2
  | fork l r =>
    simp only [CodeTree.paths, List.mem_append, List.mem_map] at h
    rcases h with ⟨d, -, rfl⟩ | ⟨d, -, rfl⟩ <;> exact List.cons_ne_nil _ _

/-! ### The statements -/

/-- Settles O36: `CodeGen` without a tree (`codeGen_null`) and on one (`codeGen_tree`). -/
theorem codegenRecordsThePaths : Obligations.CodegenRecordsThePaths := by
  unfold Obligations.CodegenRecordsThePaths
  exact fun s => ⟨fun h => finish_ok (codeGen_null h), fun T h => exec_codegen_tree h⟩

/-- Settles O37: each code is a leaf's path (`codeOf_mem`), no such path is a prefix of another's, and the table that CODEGEN
finds does not matter (`codeGen_eq_of_codeOnly`). -/
theorem codesArePrefixFree : Obligations.CodesArePrefixFree := by
  unfold Obligations.CodesArePrefixFree
  intro s t T h hT _ e
  obtain ⟨u, eu, o, hcode⟩ := exec_codegen_tree hT
  cases e.symm.trans eu
  obtain ⟨-, -, hk, hlen⟩ := treeShapeBounds s T h hT
  have hpath : ∀ {v p}, t.codeAt v = some p → (v, p) ∈ T.paths := fun hp => codeOf_mem (hcode _ ▸ hp)
  refine ⟨fun v w p q hp hq hpq => ?_, fun v p hp => ⟨hpath hp, ?_, path_ne_nil (hpath hp)⟩, fun v => ?_, ?_⟩
  · exact congrArg Prod.fst (paths_prefix_free (hpath hp) (hpath hq) hpq)
  · have := hlen v p (hpath hp)
    omega
  · rw [State.codev, hcode, Option.isSome_iff_exists, codeOf_isSome]
  · rw [exec_codegen, codeGen_eq_of_codeOnly o, ← exec_codegen, e]

end Sys2Proof.Laws
end

section
/-! The statements about the tree wire format: SERIALIZE, DESERIALIZE of a tree and of anything else, and that the second
inverts the first. -/

namespace Sys2Proof.Laws

open Sys2Proof.Machine

/-! ### The two commands -/

/-- SERIALIZE without a tree (R161, R164). -/
theorem exec_serialize_null {s : State} (h : s.rootv = false) : exec .serialize s = .next s :=
  finish_ok (a := ()) (by simp [serialize, h])

/-- SERIALIZE of a tree is a run of the bit writer (R160, R164). -/
theorem exec_serialize_tree {s : State} {T : CodeTree} (h : s.tree = some T) :
    exec .serialize s = .next (writeBits T.bits s) := finish_ok (serialize_tree h)

/-- Where `Deserialize` raises, DESERIALIZE records it and changes nothing else of the state reached (R165, R201). -/
theorem exec_deserialize_raises {s t : State} {x : ErrorKind} (e : deserialize s = .err x t) :
    exec .deserialize s = .next { t with err := x.code, errCmd := 0x5100#16 } :=
  (finish_err e).trans (congrArg _ (raise_step (i := .deserialize) rfl nofun nofun x t))

/-- Every record of a tree read from the stream has weight and minsym 0 (R162). -/
theorem layout_zero {T : CodeTree} {i : Nat} {n : Node} (h : n ∈ T.layout i) : n.weight = 0#32 ∧ n.minsym = 0#8 := by
  induction T generalizing i with
  | leaf v =>
    cases List.mem_singleton.1 h
    exact ⟨rfl, rfl⟩
  | fork l r ihl ihr =>
    rcases List.mem_cons.1 h with rfl | h
    · exact ⟨rfl, rfl⟩
    · exact (List.mem_append.1 h).elim ihl ihr

/-- Two states with the same tree get the same table from CODEGEN (R150). -/
theorem exec_codegen_eq_of_tree {s x : State} {T : CodeTree} (hs : s.tree = some T) (hx : x.tree = some T) :
    ∃ a b, exec .codegen s = .next a ∧ exec .codegen x = .next b ∧ a.code = b.code := by
  obtain ⟨a, ea, -, ha⟩ := exec_codegen_tree hs
  obtain ⟨b, eb, -, hb⟩ := exec_codegen_tree hx
  exact ⟨a, b, ea, eb, code_ext fun v => (ha v).trans (hb v).symm⟩

/-! ### The statements -/

/-- Settles O38: the tree's bits go through the bit writer, from wherever it stands. -/
theorem serializeWritesTheTree : Obligations.SerializeWritesTheTree := by
  unfold Obligations.SerializeWritesTheTree
  exact fun s => ⟨exec_serialize_null, fun T h hT =>
    ⟨_, exec_serialize_tree hT, writeBits_wrote (writerOk_of_inv h) T.bits⟩⟩

/-- Settles O39: `Deserialize` of a tree (`deserialize_tree`), and the tree its layout holds (`tree_layout`). -/
theorem deserializeReadsTheTree : Obligations.DeserializeReadsTheTree := by
  unfold Obligations.DeserializeReadsTheTree
  intro s T rest h hb hsize
  obtain ⟨t, e, hleft, hr, frame⟩ := deserialize_tree (readerOk_of_inv h) hb hsize
  have hT : t.tree = some T :=
    (tree_layout (congrArg State.node frame) (congrArg State.root frame) (congrArg State.rootv frame)).1
  exact ⟨t, finish_ok e, frame, hleft, hr.count, hT⟩

/-- Settles O40: the stream holds no tree that fits, so `Deserialize` fails (`deserialize_cases`), and it fails by the capacity
test where the stream holds a larger one (`deserialize_overflow`). -/
theorem deserializeRaises : Obligations.DeserializeRaises := by
  unfold Obligations.DeserializeRaises
  intro s h hno
  have hr := readerOk_of_inv h
  obtain ⟨T, t, -, hb, hsize, -, -⟩ | ⟨e, t, et, ht, hcap, frame, hfail, hend⟩ := deserialize_cases hr
  · exact absurd (hno T _ hb) (Nat.not_lt.2 hsize)
  obtain ⟨hsrc, hfetched⟩ := ((deserialize_reads s).err et).buffer
  rw [hsrc] at hfetched
  refine ⟨{ t with err := e.code, errCmd := 0x5100#16 }, exec_deserialize_raises et,
    congrArg (fun v : State => { v with err := e.code, errCmd := 0x5100#16 }) frame, hfail, ht.count, hfetched, ?_, ?_, ?_⟩
  · rcases hend with ⟨-, -, hc, hp⟩ | ⟨rfl, -⟩
    · exact fun _ => ⟨hp, hc, hcap⟩
    · exact nofun
  · rcases hend with ⟨rfl, -⟩ | ⟨-, hfull⟩
    · exact nofun
    · exact fun _ => hfull
  · rintro ⟨T, rest, hb⟩
    obtain ⟨v, ev⟩ := deserialize_overflow hr hb (hno T rest hb)
    cases et.symm.trans ev
    rfl

/-- Settles O41: what SERIALIZE adds is what the second core reads, the tree fits the arena by the invariant, and both cores
hold the same tree, from which CODEGEN makes the table. -/
theorem serializedTreeReadsBack : Obligations.SerializedTreeReadsBack := by
  unfold Obligations.SerializedTreeReadsBack
  intro s u t T rest h hT e hu hbits
  cases e.symm.trans (exec_serialize_tree hT)
  rw [(writeBits_spec (writerOk_of_inv h) T.bits).2, List.append_assoc, List.append_cancel_left_eq] at hbits
  obtain ⟨x, ex, frame, hleft, -, hx⟩ := deserializeReadsTheTree u T rest hu hbits ((size_le_of_inv h hT).trans h.arenaCap)
  refine ⟨x, ex, by rw [frame], hx, hleft, fun n hn => ?_, exec_codegen_eq_of_tree hT hx⟩
  rw [frame] at hn
  obtain ⟨m, hm, hmn⟩ := List.mem_map.1 hn
  cases hmn
  exact layout_zero hm

end Sys2Proof.Laws
end

section
/-! SUPPORT. The pipeline's commands: a run of steps that ends without an error, how a step command and an invocation record
an error, what the writer's description says after another register has changed, and the parts of `Decompress()`. -/

namespace Sys2Proof.Laws

open Sys2Proof.Machine

/-! ### Runs without an error -/

/-- Only the start of an invocation ends a pending error (R203). -/
theorem Ended.err_eq_zero {i : Instr} {s t : State} (h : Ended i s t) (hi : i.startsInvocation = false) (ht : t.err = 0#8) :
    s.err = 0#8 := by
  rcases h with hu | ⟨x, u, -, -, rfl⟩
  · have q := hu.quiet
    rw [hi] at q
    exact q.err.symm.trans ht
  · rw [raise_err] at ht
    exact absurd ht (code_ne_zero x)

theorem execAll_cons_next {i : Instr} {is : List Instr} {s t : State} (h : execAll (i :: is) s = .next t) :
    ∃ u, exec i s = .next u ∧ execAll is u = .next t := by
  rw [execAll] at h
  cases e : exec i s with
  | next u => rw [e] at h; exact ⟨u, rfl, h⟩
  | fault x => rw [e] at h; cases h
  | refused x => rw [e] at h; cases h

/-- A run that starts no invocation and ends without an error began without one. -/
theorem execAll_err_eq_zero {is : List Instr} {s t : State} (his : ∀ i ∈ is, i.startsInvocation = false)
    (h : execAll is s = .next t) (ht : t.err = 0#8) : s.err = 0#8 := by
  induction is generalizing s with
  | nil => cases h; exact ht
  | cons i is ih =>
    obtain ⟨u, e, h⟩ := execAll_cons_next h
    have hu : u.err = 0#8 := ih (fun j hj => his j (.tail i hj)) h
    exact (exec_ended e).err_eq_zero (his i (.head is)) hu

theorem finish_next_of_err_eq_zero {w : Word} {r : Res Unit} {t : State} (h : finish w r = .next t) (ht : t.err = 0#8) :
    r = .ok () t := by
  rcases finish_next h with ⟨_, ok⟩ | ⟨x, u, -, rfl⟩
  · exact ok
  · rw [raise_err] at ht
    exact absurd ht (code_ne_zero x)

/-- In a run that ends without an error the first command's micro-operation ends by a result. -/
theorem execAll_finish_cons {i : Instr} {is : List Instr} {w : Word} {r : Res Unit} {s t : State}
    (hi : exec i s = finish w r) (his : ∀ j ∈ is, j.startsInvocation = false) (h : execAll (i :: is) s = .next t)
    (ht : t.err = 0#8) : ∃ u, r = .ok () u ∧ execAll is u = .next t := by
  obtain ⟨u, e, h⟩ := execAll_cons_next h
  exact ⟨u, finish_next_of_err_eq_zero (hi.symm.trans e) (execAll_err_eq_zero his h ht), h⟩

/-! ### Error entry -/

/-- How a step command ends where its micro-operation raises: ERR and ERRCMD are recorded in the state reached (R201). -/
theorem finish_raises {α : Type} {i : Instr} (hi : i.wellFormed = true) (h1 : i ≠ .compress) (h2 : i ≠ .decompress)
    {r : Res α} {x : ErrorKind} {t : State} (e : r = .err x t) :
    finish (encode i) r = .next { t with err := x.code, errCmd := encode i } :=
  (finish_err e).trans (congrArg _ (raise_step hi h1 h2 x t))

/-- How COMPRESS and DECOMPRESS end where their body raises (R201, R207). -/
theorem finishReleasing_raises {α : Type} {i : Instr} (hi : i = .compress ∨ i = .decompress) {r : Res α} {x : ErrorKind}
    {t : State} (e : r = .err x t) :
    finishReleasing (encode i) r = .next (release { t with err := x.code, errCmd := encode i }) :=
  (finishReleasing_err e).trans (congrArg _ (raise_invocation hi x t))

/-- COMPRESS and DECOMPRESS leave a released state, on the normal path and after a raise (R207). -/
theorem exec_released {i : Instr} {s t : State} (hi : i = .compress ∨ i = .decompress) (h : exec i s = .next t) :
    ∃ u, t = release u := by
  have released : ∀ r : Res Unit, finishReleasing (encode i) r = .next t → ∃ u, t = release u := by
    intro r e
    rcases finishReleasing_next e with ⟨-, u, -, ht⟩ | ⟨x, u, -, ht⟩
    · exact ⟨u, ht⟩
    · exact ⟨_, ht.trans (raise_invocation hi x u)⟩
  rcases hi with rfl | rfl <;> exact released _ h

/-! ### The writer beside other registers -/

theorem wrote_spos {s t : State} {bits : List Bool} (h : s.wrote t bits) (p : Nat) :
    State.wrote { s with spos := p } { t with spos := p } bits :=
  ⟨congrArg (fun v : State => { v with spos := p }) h.1, h.2⟩

theorem wrote_raised {s t : State} {bits : List Bool} (h : s.wrote t bits) (e : Byte) (w : Word) :
    State.wrote { s with err := e, errCmd := w } { t with err := e, errCmd := w } bits :=
  ⟨congrArg (fun v : State => { v with err := e, errCmd := w }) h.1, h.2⟩

/-! ### Encoding and decoding -/

/-- A list splits in one way at its first element without a property. -/
theorem before_eq_of_first_not {α : Type} {p : α → Bool} {xs xs' ys ys' : List α} {y y' : α}
    (h : xs ++ y :: ys = xs' ++ y' :: ys') (hxs : ∀ x ∈ xs, p x = true) (hy : ¬p y = true) (hxs' : ∀ x ∈ xs', p x = true)
    (hy' : ¬p y' = true) : xs = xs' := by
  have run : ∀ {us v vs}, (∀ u ∈ us, p u = true) → ¬p v = true → (us ++ v :: vs).takeWhile p = us := by
    intro us v vs hus hv
    rw [List.takeWhile_append_of_pos hus, List.takeWhile_cons_of_neg hv, List.append_nil]
  rw [← run (vs := ys) hxs hy, h, run hxs' hy']

/-- A reader with no bit in its buffer (R30). -/
theorem ReaderOnly.drained {s t : State} (h : ReaderOnly s t) (hc : t.rcnt = 0#4) :
    t = { s with rbuf := t.rbuf, rcnt := 0#4, spos := t.spos } := hc ▸ h

theorem decSym_null {s : State} (h : s.rootv = false) : decSym s = .err .noTree s := by simp [decSym, h]

theorem decodeSource_zero {s : State} (h : s.len = 0#32) : decodeSource s = .ok () s := by
  rw [decodeSource, h]
  rfl

theorem decodeSource_null {s : State} (h0 : s.len ≠ 0#32) (h : s.rootv = false) : decodeSource s = .err .noTree s := by
  obtain ⟨n, hn⟩ : ∃ n, s.len.toNat = n + 1 :=
    Nat.exists_eq_succ_of_ne_zero fun e => h0 (BitVec.eq_of_toNat_eq e)
  rw [decodeSource, hn, decodeAll, decSym_null h, bind_err]

/-! ### Decompress -/

/-- `Decompress()` after a header that is not 0: the tree and the payload are read from the bits after it (R186). -/
theorem decompressBody_header {s : State} (h : s.src.covers s.slen) {N : Count} {rest : List Bool} (hN : N ≠ 0#32)
    (hb : s.src.bytes.flatMap byteBits = headerBits N ++ rest) :
    ∃ d, rdHdr (init s) = .ok () d ∧ d.bitsLeft = rest ∧ ReaderOk d ∧
      d = { init s with len := N, rbuf := d.rbuf, rcnt := d.rcnt, spos := d.spos } ∧
      decompressBody (init s) = (deserialize d).bind fun _ u => decodeSource u := by
  obtain ⟨d, e, hleft, hlen, hr, frame⟩ := rdHdr_some (init_readerOk h) ((init_bitsLeft s).trans hb)
  refine ⟨d, e, hleft, hr, hlen ▸ frame, ?_⟩
  rw [decompressBody, e, bind_ok, if_neg (hlen ▸ hN)]

/-- Where `Decompress()` raises with the source used up the cursor stands at its end, and where a byte or more was there RBUF
holds the last one (R18, R30). -/
theorem decompressBody_endOfSource {s t : State} {x : ErrorKind} (h : s.src.covers s.slen)
    (e : decompressBody (init s) = .err x t) (hp : t.slen ≤ t.spos) :
    t.spos = s.slen ∧ t.rbuf = (s.src.read (s.slen - 1)).getD 0#8 := by
  have reads : Reads (init s) t := (decompressBody_reads _).err e
  have quiet : Quiet (init s) t := (decompressBody_quiet _).err e
  have hslen : t.slen = s.slen := quiet.slen
  have hspos : t.spos = s.slen := by
    have := reads.cursor (Nat.zero_le _)
    omega
  refine ⟨hspos, ?_⟩
  rcases reads.buffer.2 with ⟨h0, hbuf⟩ | ⟨-, hread⟩
  · have hz : s.slen = 0 := hspos.symm.trans h0
    have hsrc : s.src = [] := List.length_eq_zero_iff.1 ((covers_length h).trans hz)
    rw [hbuf, hsrc]
    rfl
  · rw [quiet.src, hspos] at hread
    rw [← init_src, hread]
    rfl

/-- Where `Decompress()` raises behind the header, RBUF holds the last byte fetched: the header alone takes 32 bits (R30). -/
theorem decompressBody_fetched {s t : State} {x : ErrorKind} (h : s.src.covers s.slen) {N : Count} {rest : List Bool}
    (hb : s.src.bytes.flatMap byteBits = headerBits N ++ rest) (e : decompressBody (init s) = .err x t)
    (hl : t.bitsLeft.length ≤ rest.length) : t.spos ≤ s.slen ∧ s.src.read (t.spos - 1) = some t.rbuf := by
  have reads : Reads (init s) t := (decompressBody_reads _).err e
  have hslen : t.slen = s.slen := ((decompressBody_quiet _).err e).slen
  refine ⟨hslen ▸ reads.cursor (Nat.zero_le _), (reads.fetched (init_readerOk h) hslen ?_).2⟩
  rw [init_bitsLeft, hb, List.length_append, headerBits_length]
  omega

/-- `Decompress()` of a source too short for the header: E_EOS, with the source used up and LEN kept (R173, R206). -/
theorem decompressBody_shortHeader {s : State} (h : s.src.covers s.slen) (hs : s.slen < 4) :
    ∃ t, decompressBody (init s) = .err .eos t ∧ t = { init s with rbuf := t.rbuf, spos := s.slen } ∧
      t.rbuf = (s.src.read (s.slen - 1)).getD 0#8 := by
  obtain ⟨n, t, -, hb, -⟩ | ⟨t, -, et, -, hc, hp, -, frame⟩ := rdHdr_cases (init_readerOk h)
  · have hl := congrArg List.length hb
    rw [init_bitsLeft, flatMap_byteBits_length, bytes_length, covers_length h, List.length_append, headerBits_length] at hl
    omega
  · have e : decompressBody (init s) = .err .eos t := by rw [decompressBody, et, bind_err]
    obtain ⟨hspos, hbuf⟩ := decompressBody_endOfSource h e hp
    exact ⟨t, e, hspos ▸ frame.drained hc, hbuf⟩

/-- `Decompress()` where no tree of at most 511 nodes follows the header: it fails where `Deserialize` does (R206). -/
theorem decompressBody_noTree {s : State} (h : s.src.covers s.slen) {N : Count} {rest : List Bool} (hN : N ≠ 0#32)
    (hb : s.src.bytes.flatMap byteBits = headerBits N ++ rest)
    (hno : ∀ (T : CodeTree) (more : List Bool), rest = T.bits ++ more → 511 < T.size) :
    ∃ d x u, rdHdr (init s) = .ok () d ∧ deserialize d = .err x u ∧ decompressBody (init s) = .err x u ∧
      release u = { init s with len := N, rbuf := u.rbuf, rcnt := u.rcnt, spos := u.spos } ∧
      DesFailure [] rest x.code u.node u.bitsLeft ∧ ((u.spos = s.slen ∧ u.rcnt = 0#4) ∨ x = .treeOverflow) ∧
      u.rcnt.toNat ≤ 7 ∧ u.spos ≤ s.slen ∧ s.src.read (u.spos - 1) = some u.rbuf := by
  obtain ⟨d, ed, hleft, hd, dframe, e⟩ := decompressBody_header h hN hb
  obtain ⟨T, u, -, hT, hsize, -⟩ | ⟨x, u, eu, hu, -, uframe, hfail, hend⟩ := deserialize_cases hd
  · exact absurd (hno T _ (hleft.symm.trans hT)) (Nat.not_lt.2 hsize)
  rw [eu, bind_err] at e
  have hshrinks : u.bitsLeft <:+ d.bitsLeft := ((deserialize_reads d).err eu).suffix hd
  rw [hleft] at hfail hshrinks
  obtain ⟨hcursor, hread⟩ := decompressBody_fetched h hb e hshrinks.length_le
  refine ⟨d, x, u, ed, eu, e, ?_, hfail, ?_, hu.count, hcursor, hread⟩
  · rw [dframe] at uframe
    exact congrArg release uframe
  · rcases hend with ⟨-, -, hcnt, hp⟩ | ⟨hx, -⟩
    · exact .inl ⟨(decompressBody_endOfSource h e hp).1, hcnt⟩
    · exact .inr hx

/-- `Decompress()` of a file whose payload ends early: E_EOS, with the symbols of the whole codewords emitted and the source
used up (R177, R206). -/
theorem decompressBody_shortPayload {s : State} (h : s.src.covers s.slen) {N : Count} {T : CodeTree}
    {cs : List (Byte × List Bool)} {rest : List Bool}
    (hb : s.src.bytes.flatMap byteBits = headerBits N ++ T.bits ++ cs.flatMap Prod.snd ++ rest) (hT : T.size ≤ 511)
    (hc : ∀ c ∈ cs, c ∈ T.paths) (hn : cs.length < N.toNat) (hrest : ∀ c ∈ T.paths, ¬c.2 <+: rest) :
    ∃ t, decompressBody (init s) = .err .eos t ∧
      release t = { init s with len := N, rbuf := t.rbuf, rcnt := 0#4, spos := s.slen, dst := t.dst, dpos := cs.length } ∧
      t.output = cs.map Prod.fst ∧ s.src.read (s.slen - 1) = some t.rbuf := by
  have hN : N ≠ 0#32 := by
    rintro rfl
    exact absurd hn (Nat.not_lt_zero _)
  simp only [List.append_assoc] at hb
  obtain ⟨d, -, dleft, hd, dframe, e⟩ := decompressBody_header h hN hb
  obtain ⟨b, eb, bleft, hr, bframe⟩ := deserialize_tree hd dleft hT
  have hTb : b.tree = some T :=
    (tree_layout (congrArg State.node bframe) (congrArg State.root bframe) (congrArg State.rootv bframe)).1
  rw [dframe] at bframe
  have hlen : b.len = N := congrArg State.len bframe
  have hdst : b.dst = [] := congrArg State.dst bframe
  have hdpos : b.dpos = 0 := congrArg State.dpos bframe
  obtain ⟨t, et, ⟨tframe, out⟩, tleft, hcnt, hp, -⟩ := decodeAll_short cs hTb hr hc bleft hrest (hlen ▸ hn)
  rw [eb, bind_ok, decodeSource, et] at e
  obtain ⟨hspos, -⟩ := decompressBody_endOfSource h e hp
  obtain ⟨-, hread⟩ := decompressBody_fetched h hb e (tleft ▸ Nat.zero_le _)
  refine ⟨t, e, ?_, ?_, hspos ▸ hread⟩
  · rw [List.length_map, hdpos, Nat.zero_add, hcnt, hspos, bframe] at tframe
    exact congrArg release tframe
  · rw [(out (by rw [hdst, hdpos]; exact covers_nil)).2, State.output, hdst]
    rfl

end Sys2Proof.Laws
end

section
/-! The statements about the pipeline: the composites and their steps, the header, encoding, decoding, and how COMPRESS and
DECOMPRESS fail and release. -/

namespace Sys2Proof.Laws

open Sys2Proof.Machine

/-- Settles O52: where the run ends without an error each step's micro-operation ends by a result (`execAll_finish_cons`), and
the composite's body is these one after the other; LEN is not written after RDHDR. -/
theorem compositesAreTheirSteps : Obligations.CompositesAreTheirSteps := by
  unfold Obligations.CompositesAreTheirSteps
  refine ⟨fun s t h ht => ?_, fun s t h ht hlen => ?_⟩
  · rw [execAll_cons (exec_clear s)] at h
    obtain ⟨a, ea, h⟩ := execAll_finish_cons (exec_analyze _) (by decide) h ht
    obtain ⟨b, eb, h⟩ := execAll_finish_cons (exec_build a) (by decide) h ht
    obtain ⟨c, ec, h⟩ := execAll_finish_cons (exec_codegen b) (by decide) h ht
    rw [execAll_cons (exec_wrhdr c)] at h
    obtain ⟨d, ed, h⟩ := execAll_finish_cons (exec_serialize _) (by decide) h ht
    obtain ⟨e, ee, h⟩ := execAll_finish_cons (exec_encode d) (by decide) h ht
    rw [execAll_cons (exec_flush e)] at h
    cases h
    exact finishReleasing_ok (a := ()) (by simp only [compressBody, ea, eb, ec, ed, ee, bind_ok])
  · rw [execAll_cons (exec_clear s)] at h
    obtain ⟨a, ea, h⟩ := execAll_finish_cons (exec_rdhdr _) (by decide) h ht
    obtain ⟨b, eb, h⟩ := execAll_finish_cons (exec_deserialize a) (by decide) h ht
    obtain ⟨c, ec, h⟩ := execAll_finish_cons (exec_decode b) (by decide) h ht
    cases h
    have hb : b.len = a.len := by rw [(deserialize_only a).ok eb]
    have hc : t.len = b.len := by rw [((decodeAll_only _ b).ok ec).1]
    have ha : a.len ≠ 0#32 := by rwa [← hb, ← hc]
    exact finishReleasing_ok (a := ()) (by simp only [decompressBody, ea, if_neg ha, eb, ec, bind_ok])

/-- Settles O42: the header's bits go through the bit writer, from wherever it stands. -/
theorem wrhdrWritesLen : Obligations.WrhdrWritesLen := by
  unfold Obligations.WrhdrWritesLen
  intro s h
  exact ⟨_, (exec_wrhdr s).trans (congrArg _ (wrHdr_eq s)), writeBits_wrote (writerOk_of_inv h) _⟩

/-- Settles O43: `RdHdr` with 32 bits (`rdHdr_some`) and, by `rdHdr_cases`, with fewer. -/
theorem rdhdrReadsLen : Obligations.RdhdrReadsLen := by
  unfold Obligations.RdhdrReadsLen
  intro s h
  have hr := readerOk_of_inv h
  refine ⟨fun b0 b1 b2 b3 rest hb => ?_, fun hshort => ?_⟩
  · rw [← headerBits_headerCount] at hb
    obtain ⟨t, e, hleft, hlen, ht, frame⟩ := rdHdr_some hr hb
    refine ⟨t, finish_ok e, ?_, hleft, ht.count⟩
    rw [show b3 ++ b2 ++ b1 ++ b0 = t.len from hlen.symm]
    exact frame
  · obtain ⟨n, t, -, hb, -⟩ | ⟨t, -, e, hleft, hc, hp, -, frame⟩ := rdHdr_cases hr
    · rw [hb, List.length_append, headerBits_length] at hshort
      omega
    · refine ⟨_, finish_raises (i := .rdhdr) rfl nofun nofun e, ?_, hleft, hp⟩
      exact congrArg (fun v : State => { v with err := 2#8, errCmd := 0x6100#16 }) (frame.drained hc)

/-- Settles O44: `EncSym` without a code and with one. -/
theorem encsymWritesTheCode : Obligations.EncsymWritesTheCode := by
  unfold Obligations.EncsymWritesTheCode
  exact fun v s => ⟨fun hv => finish_raises (i := .encsym v) rfl nofun nofun (encSym_none hv), fun p h hv =>
    ⟨_, finish_ok (encSym_some hv), writeBits_wrote (writerOk_of_inv h) p⟩⟩

/-- Settles O45: the two ends of the loop (`encodeAll_cases`), of which each hypothesis leaves one; the first byte without a
code is the same in both (`before_eq_of_first_not`). -/
theorem encodeWritesTheCodes : Obligations.EncodeWritesTheCodes := by
  unfold Obligations.EncodeWritesTheCodes
  intro s h
  have written : ∀ bits, s.wrote (writeBits bits s) bits := writeBits_wrote (writerOk_of_inv h)
  obtain ⟨hall, e⟩ | ⟨pre, v, post, hsplit, hpre, hv, e⟩ := encodeAll_cases h.source (Nat.le_refl (s.slen - s.spos))
  · refine ⟨fun _ => ⟨_, finish_ok e, rfl, wrote_spos (written _) _⟩, fun pre v post hsplit _ hv => ?_⟩
    obtain ⟨p, hp⟩ := hall v (by rw [hsplit]; exact List.mem_append_right pre (.head post))
    rw [hv] at hp
    cases hp
  · refine ⟨fun hcoded => ?_, fun pre' v' post' hsplit' hpre' hv' => ?_⟩
    · have hsome := hcoded v (by rw [hsplit]; exact List.mem_append_right pre (.head post))
      rw [hv] at hsome
      cases hsome
    · obtain rfl : pre' = pre := before_eq_of_first_not (p := fun x => (s.codeAt x).isSome) (hsplit'.symm.trans hsplit) hpre'
        (by simp [hv']) (fun x hx => Option.isSome_iff_exists.2 (hpre x hx)) (by simp [hv])
      exact ⟨_, finish_raises (i := .encode) rfl nofun nofun e, wrote_raised (wrote_spos (written _) _) _ _⟩

/-- Settles O46: `DecSym` without a tree, along a leaf's path (`decSym_path`), and where no path is left (`decSym_cases`). -/
theorem decsymEmitsASymbol : Obligations.DecsymEmitsASymbol := by
  unfold Obligations.DecsymEmitsASymbol
  refine fun s => ⟨fun hv => finish_raises (i := .decsym) rfl nofun nofun (decSym_null hv), fun T h hT => ?_⟩
  have hr := readerOk_of_inv h
  refine ⟨fun v p rest hp hb => ?_, fun hno => ?_⟩
  · obtain ⟨u, e, hleft, hu, frame⟩ := decSym_path hT hr hp hb
    have hdst : u.dst = s.dst := by rw [frame]
    have hdpos : u.dpos = s.dpos := by rw [frame]
    refine ⟨sinkPut v u, finish_ok e, (emitted_sinkPut frame v).1, hleft, hu.count, ?_, fun a ha => ?_⟩
    · rw [sinkPut_dst, hdpos, read_write_same]
    · rw [sinkPut_dst, hdpos, hdst, read_write_other v ha]
  · obtain ⟨c, hc, u, -, hb, -⟩ | ⟨u, e, hleft, hcnt, hp, -, frame⟩ := decSym_cases hT hr
    · exact absurd ⟨_, hb.symm⟩ (hno c.1 c.2 hc)
    · refine ⟨_, finish_raises (i := .decsym) rfl nofun nofun e, ?_, hleft, hp⟩
      exact congrArg (fun v : State => { v with err := 2#8, errCmd := 0x6400#16 }) (frame.drained hcnt)

/-- Settles O47: `Decode`'s loop with no pass, without a tree, and on a payload that is whole (`decodeAll_payload`) or ends
early (`decodeAll_short`). -/
theorem decodeEmitsLenSymbols : Obligations.DecodeEmitsLenSymbols := by
  unfold Obligations.DecodeEmitsLenSymbols
  refine fun s => ⟨fun h0 => finish_ok (decodeSource_zero h0), fun h0 hv =>
    finish_raises (i := .decode) rfl nofun nofun (decodeSource_null h0 hv), fun T cs rest h hT hc hb => ?_⟩
  have hr := readerOk_of_inv h
  refine ⟨fun hn => ?_, fun hn hrest => ?_⟩
  · obtain ⟨t, e, ⟨frame, out⟩, hleft, ht⟩ := decodeAll_payload cs hT hr hc hb
    rw [hn] at e
    rw [List.length_map] at frame
    exact ⟨t, finish_ok e, frame, (out h.sink).2, hleft, ht.count⟩
  · obtain ⟨t, e, ⟨frame, out⟩, hleft, hcnt, hp, -⟩ := decodeAll_short cs hT hr hc hb hrest hn
    rw [List.length_map, hcnt] at frame
    exact ⟨_, finish_raises (i := .decode) rfl nofun nofun e,
      congrArg (fun v : State => { v with err := 2#8, errCmd := 0x6500#16 }) frame, (out h.sink).2, hleft, hp⟩

/-- Settles O49: `Analyze` raises (`analyze_spec`), and what it counted is released. -/
theorem compressOverflows : Obligations.CompressOverflows := by
  unfold Obligations.CompressOverflows
  intro s h hl
  obtain ⟨hfit, -⟩ | ⟨-, t, e, frame, hlen, hspos, -⟩ := analyze_spec (s := init s) h
  · exact absurd hfit (Nat.not_lt.2 hl)
  have hbody : compressBody (init s) = .err .countOverflow t := by rw [compressBody, e, bind_err]
  rw [exec_compress, finishReleasing_raises (.inl rfl) hbody]
  unfold CountOnly at frame
  rw [frame, hlen, hspos]
  rfl

/-- Settles O51: where the header ends early, where no tree follows it, and where the payload ends early, each recorded and
released. -/
theorem decompressRaises : Obligations.DecompressRaises := by
  unfold Obligations.DecompressRaises
  intro s h
  refine ⟨fun hshort => ?_, fun N rest hN hb hno => ?_, fun N T cs rest hb hsize hc hn hrest => ?_⟩
  · obtain ⟨t, e, frame, hbuf⟩ := decompressBody_shortHeader h hshort
    exact ⟨_, finishReleasing_raises (i := .decompress) (.inr rfl) e,
      congrArg (fun v : State => release { v with err := 2#8, errCmd := 0x0300#16 }) frame, hbuf⟩
  · obtain ⟨d, x, u, ed, eu, e, frame, hfail, hend, hcount, hcursor, hread⟩ := decompressBody_noTree h hN hb hno
    refine ⟨d, _, _, finish_ok ed, exec_deserialize_raises eu, finishReleasing_raises (i := .decompress) (.inr rfl) e, rfl,
      congrArg (fun v : State => release { v with err := x.code, errCmd := 0x0300#16 }) frame, hfail, ?_, hcount, hcursor, hread⟩
    rcases hend with hend | rfl
    · exact fun _ => hend
    · exact nofun
  · obtain ⟨t, e, frame, hout, hread⟩ := decompressBody_shortPayload h hb hsize hc hn hrest
    exact ⟨_, finishReleasing_raises (i := .decompress) (.inr rfl) e,
      congrArg (fun v : State => release { v with err := 2#8, errCmd := 0x0300#16 }) frame, hout, hread⟩

/-- Settles O14: both commands leave a released state (`exec_released`). -/
theorem releaseOnEveryExit : Obligations.ReleaseOnEveryExit := by
  unfold Obligations.ReleaseOnEveryExit
  intro i s t hi h
  obtain ⟨u, rfl⟩ := exec_released hi h
  exact ⟨fun v => by simp [State.freqAt], rfl, rfl, rfl, rfl, fun v => by simp [State.codev, State.codeAt]⟩

/-- Settles O15: CLEAR is `Init`, which gives these values (R170). -/
theorem clearResetsTheCore : Obligations.ClearResetsTheCore := by
  unfold Obligations.ClearResetsTheCore
  exact exec_clear

end Sys2Proof.Laws
end

section
/-! SUPPORT. What an instruction can leave in ERR (R201, R205), and the words a pending error refuses (R202). -/

namespace Sys2Proof.Laws

open Sys2Proof.Machine

/-! ### The codes an instruction can leave in ERR -/

/-- The row of R205 for each instruction: the codes it can raise. -/
def errorRow : Instr → List Byte
  | .clear | .wbit _ | .wbyte _ | .flush | .fclr | .seed | .codegen | .serialize | .wrhdr => []
  | .rbit | .rbyte | .rdhdr => [2#8]
  | .fcount _ | .analyze | .compress => [4#8]
  | .merge => [5#8, 8#8]
  | .build => [5#8]
  | .deserialize | .decompress => [2#8, 3#8]
  | .encsym _ | .encode => [6#8]
  | .decsym | .decode => [2#8, 7#8]
  | .leaf _ | .internal => []

/-- Up to its end or its raise an instruction leaves no error where none was pending. -/
theorem MayWrite.err_eq_zero {i : Instr} {s t : State} (h : MayWrite i s t) (h0 : s.err = 0#8) : t.err = 0#8 := by
  have q := h.quiet
  split at q
  · exact q.err
  · exact q.err.trans h0

theorem err_mem_of_next {i : Instr} {s t u : State} {es : List Byte} (h0 : s.err = 0#8) (hi : exec i s = .next u)
    (hu : MayWrite i s u) (h : exec i s = .next t) : t.err ∈ 0#8 :: es := by
  cases hi.symm.trans h
  exact List.mem_cons.2 (.inl (hu.err_eq_zero h0))

theorem err_mem_of_finish {α : Type} {i : Instr} {s t : State} {r : Res α} {es : List Byte} (h0 : s.err = 0#8)
    (hi : exec i s = finish (encode i) r) (hw : Steps (MayWrite i) s r) (hr : Raises es r) (h : exec i s = .next t) :
    t.err ∈ 0#8 :: es := by
  rcases finish_next (hi.symm.trans h) with ⟨a, e⟩ | ⟨x, u, e, rfl⟩
  · exact List.mem_cons.2 (.inl ((hw.ok e).err_eq_zero h0))
  · rw [raise_err]
    exact List.mem_cons_of_mem _ (hr.err e)

/-- COMPRESS and DECOMPRESS run their body after `Init`, and neither it nor `Release` writes ERR. -/
theorem err_mem_of_finishReleasing {α : Type} {i : Instr} {s t : State} {r : Res α} {es : List Byte}
    (hi : exec i s = finishReleasing (encode i) r) (hq : Steps Quiet (init s) r) (hr : Raises es r)
    (h : exec i s = .next t) : t.err ∈ 0#8 :: es := by
  rcases finishReleasing_next (hi.symm.trans h) with ⟨a, u, e, rfl⟩ | ⟨x, u, e, rfl⟩
  · exact List.mem_cons.2 (.inl (hq.ok e).err)
  · rw [raise_err]
    exact List.mem_cons_of_mem _ (hr.err e)

/-- Under the invariants, with no error pending, an instruction ends with ERR 0 or a code of its row. -/
theorem exec_err_mem {i : Instr} {s t : State} (hs : s.Inv) (h0 : s.err = 0#8) (h : exec i s = .next t) :
    t.err ∈ 0#8 :: errorRow i := by
  have rd := readerOk_of_inv hs
  have hinit : (init s).Inv := inv_init hs.source
  cases i with
  | clear => exact err_mem_of_next h0 (exec_clear s) (Quiet.refl _) h
  | compress => exact err_mem_of_finishReleasing (exec_compress s) (compressBody_quiet _) (raises_compress hinit) h
  | decompress => exact err_mem_of_finishReleasing (exec_decompress s) (decompressBody_quiet _) (raises_decompress hinit) h
  | wbit b => exact err_mem_of_next h0 (exec_wbit b s) (writeBits_writes [b] s) h
  | wbyte v => exact err_mem_of_next h0 (exec_wbyte v s) (writeBits_writes (byteBits v) s) h
  | flush => exact err_mem_of_next h0 (exec_flush s) ⟨flush_only s, flush_grows s⟩ h
  | rbit =>
    exact err_mem_of_finish h0 (exec_rbit s) (toRes_steps bitByte (readBit_only s) (readBit_reads s))
      ((raises_readBit rd).bind fun _ _ _ => .of_ok rfl) h
  | rbyte =>
    exact err_mem_of_finish h0 (exec_rbyte s) (toRes_steps id (readByte_only s) (readByte_reads s))
      ((raises_readByte rd).bind fun _ _ _ => .of_ok rfl) h
  | fclr => exact err_mem_of_next h0 (exec_fclr s) (rfl : FreqOnly s (freqClear s)) h
  | fcount v => exact err_mem_of_finish h0 (exec_fcount v s) (count_freqOnly v s) (raises_count v s) h
  | analyze => exact err_mem_of_finish h0 (exec_analyze s) (analyze_only s) (raises_analyze hs.source) h
  | seed => exact err_mem_of_finish h0 (exec_seed s) (seed_only s) (raises_seed s) h
  | merge => exact err_mem_of_finish h0 (exec_merge s) (merge_only s) (raises_merge hs) h
  | build => exact err_mem_of_finish h0 (exec_build s) (build_only s) (raises_build s) h
  | codegen => exact err_mem_of_finish h0 (exec_codegen s) (codeGen_only s) (raises_codeGen hs) h
  | serialize => exact err_mem_of_finish h0 (exec_serialize s) (serialize_writes s) (raises_serialize hs) h
  | deserialize =>
    exact err_mem_of_finish h0 (exec_deserialize s) ((deserialize_only s).and (deserialize_reads s))
      (raises_deserialize rd) h
  | wrhdr => exact err_mem_of_next h0 (exec_wrhdr s) (wrHdr_writes s) h
  | rdhdr =>
    exact err_mem_of_finish h0 (exec_rdhdr s) ((rdHdr_only s).and (rdHdr_reads s)) (raises_rdHdr rd) h
  | encsym v => exact err_mem_of_finish h0 (exec_encsym v s) (encSym_writes v s) (raises_encSym v s) h
  | encode => exact err_mem_of_finish h0 (exec_encode s) (encodeAll_only _ s) (raises_encode hs.source) h
  | decsym =>
    exact err_mem_of_finish h0 (exec_decsym s) ((decSym_only s).and (decSym_reads s)) (raises_decSym hs) h
  | decode =>
    exact err_mem_of_finish h0 (exec_decode s) ((decodeAll_only _ s).and (decodeAll_reads _ s)) (raises_decode _ hs) h
  | leaf v => exact err_mem_of_next h0 (exec_leaf v s) (writeBits_writes (leafBits v) s) h
  | internal => exact err_mem_of_next h0 (exec_internal s) (writeBits_writes internalBits s) h

/-! ### The words a pending error refuses -/

/-- The words of the commands that start an invocation (R72, R202). -/
theorem encode_startsInvocation {i : Instr} (hi : i.startsInvocation = true) :
    encode i = 0x0100#16 ∨ encode i = 0x0200#16 ∨ encode i = 0x0300#16 := by
  rcases startsInvocation_iff.1 hi with rfl | rfl | rfl <;> decide

/-- With an error pending every other word is refused: the host's move is used up and nothing else happens. -/
theorem step_refused {s : State} {w : Word} {rest : List HostMove} (hp : s.port = .command w :: rest) (he : s.err ≠ 0#8)
    (h1 : w ≠ 0x0100#16) (h2 : w ≠ 0x0200#16) (h3 : w ≠ 0x0300#16) : step s = .next { s with port := rest } := by
  rw [step_command hp]
  match hd : decode w with
  | .error x => rw [present_illegal hd, if_neg he]
  | .ok i =>
    rw [present_legal hd, if_neg]
    intro ha
    rcases (accepts_iff i _).1 ha with h0 | hi
    · exact he h0
    · have hw := encode_startsInvocation hi
      rw [(encode_of_decode hd).2] at hw
      simp [h1, h2, h3] at hw

end Sys2Proof.Laws
end

section
/-! The statements about errors: which word can raise what, and what a pending error refuses. -/

namespace Sys2Proof.Laws

open Sys2Proof.Machine

/-- Settles O13: an illegal word is recorded with code 1, and an instruction stays within its row (`exec_err_mem`). -/
theorem errorTable : Obligations.ErrorTable := by
  unfold Obligations.ErrorTable
  refine ⟨fun w rest e s t hp hd h0 h => ?_, fun i s t hs h0 h => ?_⟩
  · rw [step_command hp, present_illegal hd, if_pos h0] at h
    cases h
    exact raise_err w .illegalCmd _
  · have hrow := exec_err_mem hs h0 h
    cases i with
    | clear | wbit | wbyte | flush | fclr | seed | codegen | serialize | wrhdr | leaf | internal =>
      exact List.mem_singleton.1 hrow
    | rbit | rbyte | rdhdr | fcount | analyze | compress | merge | build | deserialize | decompress | encsym | encode
    | decsym | decode => exact hrow

/-- Settles O6: the three words decode to the commands that run, every other word is refused (`step_refused`), and no move
but those words and reset writes ERR or ERRCMD. -/
theorem pendingErrorRefuses : Obligations.PendingErrorRefuses := by
  unfold Obligations.PendingErrorRefuses
  have runs := Encoding.stepRunsDecodedInstruction.1
  refine ⟨fun s w rest hp he => ⟨step_refused hp he, ?_, ?_, ?_⟩, fun s t he h => ?_⟩
  · rintro rfl
    exact runs s _ rest .clear hp (roundTrip (i := .clear) rfl) (.inr rfl)
  · rintro rfl
    exact runs s _ rest .compress hp (roundTrip (i := .compress) rfl) (.inr rfl)
  · rintro rfl
    exact runs s _ rest .decompress hp (roundTrip (i := .decompress) rfl) (.inr rfl)
  · match hp : s.port with
    | [] =>
      rw [step_idle hp] at h
      cases h
      exact .inl ⟨rfl, rfl⟩
    | .reset :: rest => exact .inr ⟨.reset, rest, rfl, by simp⟩
    | .bindSource bytes :: rest =>
      rw [step_bindSource hp] at h
      split at h
      · cases h
        exact .inl ⟨rfl, rfl⟩
      · cases h
    | .command w :: rest =>
      by_cases hw : w = 0x0100#16 ∨ w = 0x0200#16 ∨ w = 0x0300#16
      · exact .inr ⟨.command w, rest, rfl, by simpa using hw⟩
      · simp only [not_or] at hw
        obtain ⟨h1, h2, h3⟩ := hw
        rw [step_refused hp he h1 h2 h3] at h
        cases h
        exact .inl ⟨rfl, rfl⟩

end Sys2Proof.Laws
end

section
/-! The statements about the host's other moves: what binding a source changes, and that reset and CLEAR are one state
transformer, which keeps only the source and the host's pending moves. -/

namespace Sys2Proof.Laws

open Sys2Proof.Machine

/-! ### The source bound (R244) -/

theorem bindSource_read (bytes : List Byte) (s : State) (a : Nat) : (bindSource bytes s).src.read a = bytes[a]? := by
  rw [bindSource_src, read_covers (ofBytes_covers bytes), ofBytesAt_bytes]

theorem srcNext_bindSource {bytes : List Byte} (s : State) {v : Byte} (hv : bytes[s.spos]? = some v) :
    srcNext (bindSource bytes s) = .ok v { bindSource bytes s with spos := s.spos + 1 } := by
  have hlt : s.spos < bytes.length := (List.getElem?_eq_some_iff.1 hv).1
  have hread : (bindSource bytes s).src.read s.spos = some v := (bindSource_read bytes s s.spos).trans hv
  simp only [srcNext, bindSource_slen, bindSource_spos, if_neg (Nat.not_le.2 hlt), hread]

theorem srcNext_bindSource_end {bytes : List Byte} (s : State) (h : bytes.length ≤ s.spos) :
    srcNext (bindSource bytes s) = .err .eos (bindSource bytes s) := if_pos h

/-- Settles O8: the move is `bindSource` below the limit (`step_bindSource`), and `SrcNext` after it reads the new source. -/
theorem bindSourceOnly : Obligations.BindSourceOnly := by
  unfold Obligations.BindSourceOnly
  refine ⟨fun s bytes rest hp => ⟨fun hl => ?_, fun hl => ?_⟩, fun _ => step_idle⟩
  · have hstep : step s = .next (bindSource bytes { s with port := rest }) := (step_bindSource hp).trans (if_pos hl)
    exact ⟨_, hstep, rfl, bindSource_read bytes _, fun _ => srcNext_bindSource { s with port := rest },
      srcNext_bindSource_end { s with port := rest }⟩
  · exact (step_bindSource hp).trans (if_neg (Nat.not_lt.2 hl))

/-! ### Reset and CLEAR (R231) -/

theorem init_eq_of_host_eq {s u : State} (hsrc : s.src = u.src) (hslen : s.slen = u.slen) (hport : s.port = u.port) :
    init s = init u := by
  rw [init, init, hsrc, hslen, hport]

/-- Settles O10: reset, CLEAR and the start of COMPRESS and DECOMPRESS are `Init` (R170), which reads the state only as
`init_eq_of_host_eq` says. -/
theorem resetEqualsClear : Obligations.ResetEqualsClear := by
  unfold Obligations.ResetEqualsClear
  refine ⟨fun s rest hp => (step_reset hp).trans (exec_clear _).symm, exec_clear, fun s u hsrc hslen hport => ?_⟩
  have hinit : init s = init u := init_eq_of_host_eq hsrc hslen hport
  refine ⟨?_, ?_, ?_⟩
  · rw [exec_clear, exec_clear, hinit]
  · rw [exec_compress, exec_compress, hinit]
  · rw [exec_decompress, exec_decompress, hinit]

end Sys2Proof.Laws
end
